-- ==== Sys2Proof/Word.lean ====
section
/-! DEFINITION. The word types of the verifier block: bytes, 32-bit words, 256-bit fields and the codec integer. -/

namespace Sys2Proof

/-- A byte on the wire or in the window (00_scope.md R12). -/
abbrev Byte := BitVec 8

/-- A 32-bit host access or control register (10_state.md section 3, 20_memory.md R61). -/
abbrev Word := BitVec 32

/-- One integer field of a data register: an integer below 2^256 (10_state.md section 4). -/
abbrev Field := BitVec 256

/-- The codec integer register's contents: an integer below 2^1024 (10_state.md R42). -/
abbrev WideInt := BitVec 1024

end Sys2Proof
end

