-- ==== Sys2Proof/Config.lean ====
section
/-! DEFINITION. What is fixed for one block (00_scope.md section 3): its capacities and selectors (log 14), its
parameters, and the two uninterpreted constants that stand for what the spec leaves open. -/

namespace Sys2Proof

/-- A G1 value: two integer fields, with no curve check (00_scope.md R16). -/
structure G1 where
  x : Field
  y : Field
deriving DecidableEq, Repr, Inhabited

/-- A G2 value: four integer fields, imaginary part before real part (00_scope.md R16, 30_encoding.md R93). -/
structure G2 where
  xIm : Field
  xRe : Field
  yIm : Field
  yRe : Field
deriving DecidableEq, Repr, Inhabited

/-- An engine response: `Ok(bytes)` or `Err` (42_engine_interface.md R191). -/
inductive EngineResponse where
  | ok (bytes : List Byte)
  | err
deriving DecidableEq, Repr, Inhabited

/-- One engine request: the selector and the payload (42_engine_interface.md R190). -/
structure EngineCall where
  sel : Byte
  payload : List Byte
deriving DecidableEq, Repr, Inhabited

/-- One known answer of the attached engine (log 7). -/
structure EngineFact where
  call : EngineCall
  answer : EngineResponse
deriving DecidableEq, Repr, Inhabited

/-- The byte layout of the pairing argument (42_engine_interface.md R195). -/
inductive PairLayout where
  | interleaved
  | split
deriving DecidableEq, Repr, Inhabited

/-- The verification key (00_scope.md R8): NIC is the length of `ic`. -/
structure VerifyingKey where
  alfa1 : G1
  beta2 : G2
  gamma2 : G2
  delta2 : G2
  ic : List G1
deriving DecidableEq, Repr, Inhabited

/-- The parameters of one block. No step changes them (60_exceptions.md R291, 70_reset_and_hazards.md R312).
ENGINE is `Config.engineOracle` with `engineTable` before it (log 7); `engineAnswers` is false of an engine that never
answers (R320, log 8). -/
structure Config where
  baseP : Nat
  scalarR : Nat
  vk : VerifyingKey
  vkVersion : Word
  pairLayout : PairLayout
  engineAnswers : Bool
  engineTable : List EngineFact
deriving DecidableEq, Repr, Inhabited

/-- NPUB_MAX (00_scope.md R10): the capacity of PUB. -/
abbrev Config.npubMax : Nat := 64

/-- CIN_CAP in bytes (00_scope.md R10). -/
abbrev Config.cinCap : Nat := 128

/-- COUT_CAP in bytes (00_scope.md R10). -/
abbrev Config.coutCap : Nat := 768

/-- WINDOW_BYTES (00_scope.md R10). -/
abbrev Config.windowBytes : Nat := 0x4000

/-- SEL_ADD (30_encoding.md R105). -/
abbrev Config.selAdd : Byte := 0x01

/-- SEL_SMUL (30_encoding.md R105). -/
abbrev Config.selSmul : Byte := 0x02

/-- SEL_PAIR (30_encoding.md R105). -/
abbrev Config.selPair : Byte := 0x03

/-- The constraints of 00_scope.md R7 and R8 that the types do not already carry. -/
abbrev Config.wf (cfg : Config) : Prop :=
  2 < cfg.baseP ∧ cfg.baseP < 2 ^ 256 ∧ 2 < cfg.scalarR ∧ cfg.scalarR < 2 ^ 256 ∧
    1 ≤ cfg.vk.ic.length ∧ cfg.vk.ic.length ≤ Config.npubMax + 1

/-- ENGINE where no answer is known: what the spec says of it is that it is a function (00_scope.md R9). FREE VALUE,
log 7. -/
opaque Config.engineOracle : EngineCall → EngineResponse

/-- The value a host read of an unwritten byte returns (10_state.md R47, "any value"), for a count of the steps other
agents have taken and a window offset. FREE VALUE, log 4. -/
opaque Config.freeByte : Nat → Nat → Byte

/-- The default of BASE_P (00_scope.md R7). PRESUMED, log 6. -/
def Config.bn254BaseP : Nat := 0x30644e72e131a029b85045b68181585d97816a916871ca8d3c208c16d87cfd47

/-- The default of SCALAR_R (00_scope.md R7). PRESUMED, log 6. -/
def Config.bn254ScalarR : Nat := 0x30644e72e131a029b85045b68181585d2833e84879b9709143e1f593f0000001

/-- The key of the BN-1 vector (95_test_vectors.md section 7), which the model's reset state holds. DESIGN CHOICE,
log 5. -/
def Config.bn1Key : VerifyingKey where
  alfa1 := ⟨0x030644e72e131a029b85045b68181585d97816a916871ca8d3c208c16d87cfd3,
    0x15ed738c0e0a7c92e7845f96b2ae9c0a68a6a449e3538fc7ff3ebf7a5a18a2c4⟩
  beta2 := ⟨0x1014772f57bb9742735191cd5dcfe4ebbc04156b6878a0a7c9824f32ffb66e85,
    0x06064e784db10e9051e52826e192715e8d7e478cb09a5e0012defa0694fbc7f5,
    0x021e2335f3354bb7922ffcc2f38d3323dd9453ac49b55441452aeaca147711b2,
    0x058e1d5681b5b9e0074b0f9c8d2c68a069b920d74521e79765036d57666c5597⟩
  gamma2 := ⟨0x0a09ccf561b55fd99d1c1208dee1162457b57ac5af3759d50671e510e428b2a1,
    0x2e539c423b302d13f4e5773c603948eaf5db5df8ae8a9a9113708390a06410d8,
    0x19b763513924a736e4eebd0d78c91c1bc1d657fee4214057d21414011cfcc763,
    0x2f8d9f9ab83727c77a2fec063cb7b6e5eb23044ccf535ad49d46d394fb6f6bf6⟩
  delta2 := ⟨0x2903ba015a9abde26a5d081e84551e63be0fd4516e46ee6d593edeba46362455,
    0x224bdc5d4327fcf8ed702e01de1c2f1657a253ba75e32a89c390142aaa28b308,
    0x03c8b7cda6b2dedb7aeeaf5fda464ad17036bea1c4e6f7adbaed1ebe0335e0d8,
    0x1d92fff52a265017eeccb372e37d7a7bd431800eca28dfd82e21e8054114233f⟩
  ic := [⟨0x2a14705537b009189da8808651eecdb82482477fe92ac12ca8b71f80fc3d49ef,
      0x2df7ee7f243ea8b38e1ddf14029258877a618c779fd4717db6177e19ea67ec38⟩,
    ⟨0x05e86f8cc8a7a4f10f56093465679f17f8b8c3fdb41469e408b529e030f52f3f,
      0x2857bd14bbc09767bed8e913d3ccb42b2bc8738f715417dd6f020725d22bcd90⟩,
    ⟨0x1c6a451060210f3baad93fe1631753751da9857edae0468e8e4bee7dd33cfb2c,
      0x2331a64aa86c50d2d1e0237893ef7744a77228881ce73fcc2ad555a37d4ab405⟩]

/-- The configuration the model's reset state holds: the BN254 primes, the BN-1 key, PAIR_LAYOUT = INTERLEAVED
(00_scope.md R10) and an engine of which nothing is known. DESIGN CHOICE, log 5 to log 8. -/
def Config.default : Config where
  baseP := Config.bn254BaseP
  scalarR := Config.bn254ScalarR
  vk := Config.bn1Key
  vkVersion := 0
  pairLayout := .interleaved
  engineAnswers := true
  engineTable := []

end Sys2Proof
end

