-- ==== Sys2Proof/Syntax.lean ====
section
/-! DEFINITION. The instructions: one constructor per row of spec/opcode_table.json. -/

namespace Sys2Proof

/-- The eleven commands of 30_encoding.md R97 and the three engine requests of 42_engine_interface.md R192 to R194.
`append` is the A field (R99), `width` the W field (R98). An engine request's payload is no part of the instruction: it
stands in REQ_PAYLOAD (10_state.md R46). -/
inductive Instr where
  | strip (append : Bool)
  | encfix (append : Bool) (width : Byte)
  | decuint
  | concat (append : Bool)
  | sdec
  | senc (append : Bool)
  | g1dec
  | g1enc (append : Bool)
  | g2enc (append : Bool)
  | neg
  | verify
  | engAdd
  | engSmul
  | engPair
deriving DecidableEq, Repr, Inhabited

end Sys2Proof
end

