-- ==== Sys2Proof/WellFormed.lean ====
section
/-! DEFINITION. Which instructions the encoding admits. -/

namespace Sys2Proof

/-- ENCFIX is legal only for 1 ≤ W ≤ 128 (30_encoding.md R98). Every other instruction is legal as the constructors
give it: a command without an A field has none to set (R99), and W is 0 in every other word. -/
def Instr.wellFormed : Instr → Bool
  | .encfix _ width => decide (1 ≤ width.toNat) && decide (width.toNat ≤ Config.cinCap)
  | .strip _ => true
  | .decuint => true
  | .concat _ => true
  | .sdec => true
  | .senc _ => true
  | .g1dec => true
  | .g1enc _ => true
  | .g2enc _ => true
  | .neg => true
  | .verify => true
  | .engAdd => true
  | .engSmul => true
  | .engPair => true

end Sys2Proof
end

