-- ==== Sys2Proof/Decode.lean ====
section
/-! DEFINITION. Decoding of command words and engine selectors, total on any bytes, and the encoder. -/

namespace Sys2Proof

/-- Why bytes are no instruction. The first four are the clauses of 30_encoding.md R101, in its order. -/
inductive Reject where
  | reservedBits
  | reservedOpcode
  | badWidth
  | badAppend
  | reservedSelector
  | wrongLength
deriving DecidableEq, Repr

/-- What a decoder answers. -/
inductive Decoded where
  | instr (i : Instr)
  | reject (why : Reject)
deriving DecidableEq, Repr

/-- The instruction, if there is one. -/
def Decoded.toOption : Decoded → Option Instr
  | .instr i => some i
  | .reject _ => none

/-- CTRL[7:0], the opcode (10_state.md R23). -/
def opcField (w : Word) : Byte := w.extractLsb' 0 8

/-- CTRL[15:8], the width (10_state.md R23). -/
def widthField (w : Word) : Byte := w.extractLsb' 8 8

/-- CTRL[16], the append flag (10_state.md R23). -/
def appendField (w : Word) : Bool := w.getLsbD 16

/-- CTRL[31:17], which must be 0 (30_encoding.md R100). -/
def reservedField (w : Word) : BitVec 15 := w.extractLsb' 17 15

/-- A command whose W must be 0 and whose A is free (30_encoding.md R98, R99). -/
def decodeAppendable (width : Byte) (i : Instr) : Decoded :=
  if width = 0 then .instr i else .reject .badWidth

/-- A command whose W and A must both be 0 (30_encoding.md R98, R99). -/
def decodePlain (width : Byte) (append : Bool) (i : Instr) : Decoded :=
  if width ≠ 0 then .reject .badWidth else if append then .reject .badAppend else .instr i

/-- Decoding of a command word by the opcode map R97 and the legality rule R101 of 30_encoding.md, in R101's order:
reserved bits, opcode, W, A. -/
def decodeWord (w : Word) : Decoded :=
  if reservedField w ≠ 0 then .reject .reservedBits
  else if opcField w = 0x01 then decodeAppendable (widthField w) (.strip (appendField w))
  else if opcField w = 0x02 then
    if 1 ≤ (widthField w).toNat ∧ (widthField w).toNat ≤ Config.cinCap then
      .instr (.encfix (appendField w) (widthField w))
    else .reject .badWidth
  else if opcField w = 0x03 then decodePlain (widthField w) (appendField w) .decuint
  else if opcField w = 0x04 then decodeAppendable (widthField w) (.concat (appendField w))
  else if opcField w = 0x08 then decodePlain (widthField w) (appendField w) .sdec
  else if opcField w = 0x09 then decodeAppendable (widthField w) (.senc (appendField w))
  else if opcField w = 0x0A then decodePlain (widthField w) (appendField w) .g1dec
  else if opcField w = 0x0B then decodeAppendable (widthField w) (.g1enc (appendField w))
  else if opcField w = 0x0C then decodeAppendable (widthField w) (.g2enc (appendField w))
  else if opcField w = 0x10 then decodePlain (widthField w) (appendField w) .neg
  else if opcField w = 0x20 then decodePlain (widthField w) (appendField w) .verify
  else .reject .reservedOpcode

/-- Decoding of an engine selector (30_encoding.md R105). -/
def decodeSelector (sel : Byte) : Decoded :=
  if sel = Config.selAdd then .instr .engAdd
  else if sel = Config.selSmul then .instr .engSmul
  else if sel = Config.selPair then .instr .engPair
  else .reject .reservedSelector

/-- A word's four bytes, most significant first (20_memory.md R64). -/
def wordBytes (w : Word) : List Byte :=
  [w.extractLsb' 24 8, w.extractLsb' 16 8, w.extractLsb' 8 8, w.extractLsb' 0 8]

/-- The word that four bytes spell, most significant first (20_memory.md R64). -/
def wordOfBytes (b0 b1 b2 b3 : Byte) : Word := b0 ++ b1 ++ b2 ++ b3

/-- The decoder: one byte is an engine selector, four bytes are a command word in the window's byte order
(30_encoding.md R96, R104, R105), and any other number of bytes is no instruction. -/
def decode : List Byte → Decoded
  | [sel] => decodeSelector sel
  | [b0, b1, b2, b3] => decodeWord (wordOfBytes b0 b1 b2 b3)
  | _ => .reject .wrongLength

/-- `(A << 16) | (W << 8) | OPC` (30_encoding.md R107). -/
def packWord (opc : Byte) (width : Byte) (append : Bool) : Word :=
  (0 : BitVec 15) ++ BitVec.ofBool append ++ width ++ opc

/-- The words of an instruction, laid out as the hardware stores them: a command word's four bytes
(30_encoding.md R97, R107), or a selector's one byte (R105). -/
def encode : Instr → List Byte
  | .strip append => wordBytes (packWord 0x01 0 append)
  | .encfix append width => wordBytes (packWord 0x02 width append)
  | .decuint => wordBytes (packWord 0x03 0 false)
  | .concat append => wordBytes (packWord 0x04 0 append)
  | .sdec => wordBytes (packWord 0x08 0 false)
  | .senc append => wordBytes (packWord 0x09 0 append)
  | .g1dec => wordBytes (packWord 0x0A 0 false)
  | .g1enc append => wordBytes (packWord 0x0B 0 append)
  | .g2enc append => wordBytes (packWord 0x0C 0 append)
  | .neg => wordBytes (packWord 0x10 0 false)
  | .verify => wordBytes (packWord 0x20 0 false)
  | .engAdd => [Config.selAdd]
  | .engSmul => [Config.selSmul]
  | .engPair => [Config.selPair]

/-- The bytes of an instruction whose bits are numbered as the opcode table numbers them: an ENGREQ row has eight bits
and is one byte, a CMD32 row is one 32-bit word, which the hardware stores most significant byte first. -/
def tableBytes (nbits w : Nat) : List Byte :=
  if nbits ≤ 8 then [BitVec.ofNat 8 w] else wordBytes (BitVec.ofNat 32 w)

/-- The instruction this decoder reads from an instruction whose bits are `w` as the opcode table numbers them. -/
def decodeTableWord (nbits w : Nat) : Option Instr :=
  (decode (tableBytes nbits w)).toOption

end Sys2Proof
end

