-- ==== Sys2Proof/Machine/State.lean ====
section
/-! DEFINITION. The state of the verifier block as plain data, its faults and refusals, and the state after reset. -/

namespace Sys2Proof.Machine

/-- The sequencer phases (10_state.md R30). All other codes are never held. -/
inductive Phase where
  | idle
  | exec
  | vLen
  | vRange
  | vLcinit
  | vSmul
  | vAdd
  | vNeg
  | vPair
deriving DecidableEq, Repr, Inhabited

/-- The error classes of STATUS.ERR, `none` being code 0 (60_exceptions.md R271). All other codes are never written. -/
inductive ErrorClass where
  | none
  | formatError
  | encodingError
  | inputLengthMismatch
  | scalarFieldOverflow
  | precheckError
  | providerError
  | illegalCommand
  | capacityError
  | emptyInput
deriving DecidableEq, Repr, Inhabited

/-- STATUS by its fields (10_state.md R24). The reserved bits read 0 and have no home. -/
structure Status where
  busy : Bool
  done : Bool
  valid : Bool
  haz : Bool
  waiteng : Bool
  err : ErrorClass
  lastop : Byte
deriving DecidableEq, Repr, Inhabited

/-- The named entries of the window's address map (20_memory.md R65). -/
inductive Reg where
  | ctrl
  | status
  | errinfo
  | npub
  | cinlen
  | coutlen
  | phase
  | idx
  | nic
  | npubmax
  | vkver
  | a
  | b
  | c
  | nega
  | vkx
  | term
  | p
  | q
  | v
  | cin
  | cout
  | pub
  | alfa1
  | beta2
  | gamma2
  | delta2
  | ic
deriving DecidableEq, Repr, Inhabited

/-- A sparse byte array in canonical form: addresses strictly rising and no entry equal to what an unlisted address
reads as. CIN, COUT and the written marks are held so. -/
abbrev Memory := List Host.Cell

/-- What an unlisted address reads as. DESIGN CHOICE, log 1: the spec leaves the contents after reset unspecified
(10_state.md R47, R49). -/
def Memory.unlisted : Byte := 0

/-- The canonical form, from a lowest admissible address on. -/
def Memory.wfFrom : Nat → Memory → Bool
  | _, [] => true
  | lo, (k, b) :: m => decide (lo ≤ k) && decide (b ≠ Memory.unlisted) && Memory.wfFrom (k + 1) m

/-- The canonical form. -/
def Memory.wf (m : Memory) : Bool := Memory.wfFrom 0 m

/-- Every listed address is below a bound. -/
def Memory.below (bound : Nat) (m : Memory) : Bool := m.all (fun cell => decide (cell.1 < bound))

/-- One line of a host program (30_encoding.md R106), after WRB and CMD are expanded (R107, R109). Addresses are plain
numbers, so that an access outside the window can be written down. -/
inductive HostOp where
  | rd (addr : Nat)
  | wr (addr : Nat) (value : Word)
  | wait
deriving DecidableEq, Repr, Inhabited

/-- What the host port answered last. The model's own field (log 10). -/
inductive HostResp where
  | none
  | data (value : Word)
  | written
deriving DecidableEq, Repr, Inhabited

/-- Who moves next: one of the three agents of 10_state.md R20, or the reset input of 70_reset_and_hazards.md R310. -/
inductive Turn where
  | host
  | sequencer
  | engine
  | reset
deriving DecidableEq, Repr, Inhabited

/-- Why the machine stops. Each is safe: a claim about a next state says nothing of a step that stops. -/
inductive Fault where
  /-- Raised by a host access that is misaligned or at 0x4000 or above: the host-side fault BusError(addr) of
  20_memory.md R62 and R63 (log 17). Safe. -/
  | busError (addr : Nat)
  /-- Raised by a command that reads an operand byte not written since reset: the model-only fault UnwrittenOperand of
  10_state.md R47, 60_exceptions.md R282 and 70_reset_and_hazards.md R314. Its ruling in 93_implementation_defined.md U5
  is that the model stops the run and no hardware state is defined after it. Safe. -/
  | unwrittenOperand (reg : Reg)
  /-- Raised by VERIFY in a state that names a PUB or IC entry the block does not have. No run reaches such a state
  (log 13). Safe. -/
  | absentEntry (reg : Reg)
  /-- Raised by VERIFY where PHASE is none of its phases. No step runs VERIFY so (log 13). Safe. -/
  | noPhaseAction
deriving DecidableEq, Repr

/-- Why an instruction has no meaning. Each is safe. -/
inductive Refusal where
  /-- Raised by a constructor of Instr that has no meaning in the model. Safe. -/
  | notModelled (mnemonic : String)
  /-- Raised by the sequencer where PHASE = EXEC and CTRL holds no legal command word. No run reaches such a state
  (log 13). Safe. -/
  | undecodableCommand
deriving DecidableEq, Repr

/-- The state. First what the spec gives the block, then its parameters, then the model's own fields. -/
@[ext]
structure State where
  /-- CTRL, 10_state.md R23. -/
  ctrl : Word
  /-- STATUS, R24. -/
  status : Status
  /-- ERRINFO, R25. -/
  errinfo : Word
  /-- NPUB, R26. -/
  npub : Word
  /-- CINLEN, R27. -/
  cinlen : Word
  /-- COUTLEN, R28. -/
  coutlen : Word
  /-- PHASE, R30. -/
  phase : Phase
  /-- IDX[7:0], R31. -/
  idx : Byte
  /-- A, R35. -/
  a : G1
  /-- B, R35. -/
  b : G2
  /-- C, R35. -/
  c : G1
  /-- PUB, R36. -/
  pub : Vector Field 64
  /-- NEGA, R37. -/
  nega : G1
  /-- VKX, R38. -/
  vkx : G1
  /-- TERM, R39. -/
  term : G1
  /-- P, R40. -/
  p : G1
  /-- Q, R41. -/
  q : G2
  /-- V, R42. -/
  v : WideInt
  /-- CIN, R43, by element number. -/
  cin : Memory
  /-- COUT, R44, by element number. -/
  cout : Memory
  /-- REQ_SEL, R46. -/
  reqSel : Byte
  /-- REQ_PAYLOAD, R46. -/
  reqPayload : List Byte
  /-- RSP_VALID, R46. -/
  rspValid : Bool
  /-- RSP, R46. -/
  rsp : EngineResponse
  /-- The written state of R47 and 70_reset_and_hazards.md R314: byte 1 at the window offset of each byte of a data
  register, NPUB, CINLEN or COUTLEN written since reset. -/
  written : Memory
  /-- The block's parameters (log 5). -/
  cfg : Config
  /-- What the host does next (log 10). The model's own. -/
  hostProg : List HostOp
  /-- The host port's last response (log 10). The model's own. -/
  hostResp : HostResp
  /-- Who moves next (log 9). The model's own. -/
  turns : List Turn
  /-- The count a free value is taken at (log 4). The model's own. -/
  freeCount : Nat
deriving DecidableEq, Repr

/-- STATUS = 0 (10_state.md R49). -/
def Status.zero : Status where
  busy := false
  done := false
  valid := false
  haz := false
  waiteng := false
  err := .none
  lastop := 0

/-- The state after reset (10_state.md R49). Data registers and the engine port's unspecified registers hold the values
of log 1 and log 2; the configuration is log 5's. -/
def State.reset : State where
  ctrl := 0
  status := Status.zero
  errinfo := 0
  npub := 0
  cinlen := 0
  coutlen := 0
  phase := .idle
  idx := 0
  a := ⟨0, 0⟩
  b := ⟨0, 0, 0, 0⟩
  c := ⟨0, 0⟩
  pub := Vector.replicate 64 0
  nega := ⟨0, 0⟩
  vkx := ⟨0, 0⟩
  term := ⟨0, 0⟩
  p := ⟨0, 0⟩
  q := ⟨0, 0, 0, 0⟩
  v := 0
  cin := []
  cout := []
  reqSel := 0
  reqPayload := []
  rspValid := false
  rsp := .err
  written := []
  cfg := Config.default
  hostProg := []
  hostResp := .none
  turns := []
  freeCount := 0

end Sys2Proof.Machine
end

