-- ==== Sys2Proof/Machine/Operands.lean ====
section
/-! DEFINITION. The codec functions of the source, the wire forms, and the register images they make. -/

namespace Sys2Proof.Machine

/-- `unbe(bs)`, big-endian decode (40_bytecodec.md R131). -/
def unbe (bs : List Byte) : Nat := bs.foldl (fun acc b => acc * 256 + b.toNat) 0

/-- The `w` low-order bytes of `v`, most significant first: `be(v, w)` where it does not fail (R90, R133). -/
def be (v : Nat) : Nat → List Byte
  | 0 => []
  | w + 1 => BitVec.ofNat 8 (v >>> (8 * w)) :: be v w

/-- `minlen(v)` (R132): 1 for 0, and otherwise the number of bytes down to the leading nonzero one. -/
def minlen (v : Nat) : Nat := Nat.log2 v / 8 + 1

/-- `be(v, w)` as `encode_fixed`, with its EncodingError as `none` (R133). -/
def encodeFixed (v w : Nat) : Option (List Byte) := if minlen v > w then none else some (be v w)

/-- `strip(bs)` for a nonempty sequence (R130). -/
def strip (bs : List Byte) : List Byte :=
  match bs.dropWhile (fun b => b == 0) with
  | [] => [0]
  | r => r

/-- A 256-bit field's wire form (30_encoding.md R91). -/
def enc256 (f : Field) : List Byte := be f.toNat 32

/-- `enc1(p)` (41_pointcodec.md R163). -/
def enc1 (p : G1) : List Byte := enc256 p.x ++ enc256 p.y

/-- `enc2(q)` (41_pointcodec.md R164). -/
def enc2 (q : G2) : List Byte := enc256 q.xIm ++ enc256 q.xRe ++ enc256 q.yIm ++ enc256 q.yRe

/-- The field that bytes spell. -/
def field256 (bs : List Byte) : Field := BitVec.ofNat 256 (unbe bs)

/-- `sdecode(bs)` (41_pointcodec.md R160), with its FormatError as `none`. -/
def sdecode (bs : List Byte) : Option Nat := if bs.length = 32 then some (unbe bs) else none

/-- `g1decode(bs)` (41_pointcodec.md R162), with its FormatError as `none`. -/
def g1decode (bs : List Byte) : Option G1 :=
  if bs.length = 64 then some ⟨field256 (bs.take 32), field256 (bs.drop 32)⟩ else none

/-- The G1 value a 64-byte register image spells (20_memory.md R80). -/
def g1OfImage (bs : List Byte) : G1 := ⟨field256 (bs.take 32), field256 (bs.drop 32)⟩

/-- The G2 value a 128-byte register image spells (20_memory.md R80, 30_encoding.md R93). -/
def g2OfImage (bs : List Byte) : G2 :=
  ⟨field256 (bs.take 32), field256 ((bs.drop 32).take 32), field256 ((bs.drop 64).take 32), field256 (bs.drop 96)⟩

/-- A register image with the bytes from `k` on replaced. -/
def patch (bs : List Byte) (k : Nat) (new : List Byte) : List Byte :=
  bs.take k ++ new ++ bs.drop (k + new.length)

/-- `negate(p)` in the base field (43_verifier.md R220). A second negation is log 15. -/
def negate (baseP : Nat) (p : G1) : G1 :=
  if p.x = 0 ∧ p.y = 0 then ⟨0, 0⟩ else ⟨p.x, BitVec.ofNat 256 (baseP - p.y.toNat % baseP)⟩

end Sys2Proof.Machine
end

