-- ==== Sys2Proof/Machine/Flags.lean ====
section
/-! DEFINITION. The codes of PHASE and ERR, the STATUS word, and ERRINFO. -/

namespace Sys2Proof.Machine

/-- PHASE codes (10_state.md R30). -/
def Phase.code : Phase → Byte
  | .idle => 0x00
  | .exec => 0x01
  | .vLen => 0x10
  | .vRange => 0x11
  | .vLcinit => 0x12
  | .vSmul => 0x13
  | .vAdd => 0x14
  | .vNeg => 0x15
  | .vPair => 0x16

/-- ERR codes (60_exceptions.md R271). -/
def ErrorClass.code : ErrorClass → Byte
  | .none => 0x00
  | .formatError => 0x01
  | .encodingError => 0x02
  | .inputLengthMismatch => 0x03
  | .scalarFieldOverflow => 0x04
  | .precheckError => 0x05
  | .providerError => 0x06
  | .illegalCommand => 0x10
  | .capacityError => 0x11
  | .emptyInput => 0x12

/-- The 32-bit STATUS word (10_state.md R24): LASTOP 23:16, ERR 15:8, WAITENG, HAZ, VALID, DONE, BUSY in bits 4 to 0. -/
def Status.word (st : Status) : Word :=
  (0 : BitVec 8) ++ st.lastop ++ st.err.code ++ (0 : BitVec 3) ++ BitVec.ofBool st.waiteng ++ BitVec.ofBool st.haz ++
    BitVec.ofBool st.valid ++ BitVec.ofBool st.done ++ BitVec.ofBool st.busy

/-- `errinfo = (PHASE << 8) | IDX` (60_exceptions.md R276, 10_state.md R25). -/
def errinfoOf (s : State) : Word := (0 : BitVec 16) ++ s.phase.code ++ s.idx

end Sys2Proof.Machine
end

