-- ==== Sys2Proof/Machine/AddressMap.lean ====
section
/-! DEFINITION. The window's address map (20_memory.md R65) and the byte image of every register in it. -/

namespace Sys2Proof.Machine

/-- What a host write to a register does (10_state.md section 3): stored, or ignored. -/
inductive Access where
  | rw
  | ro
deriving DecidableEq, Repr

/-- One row of the address map. -/
structure MapRow where
  reg : Reg
  base : Nat
  size : Nat
  access : Access
deriving DecidableEq, Repr

/-- First window offset of a register (20_memory.md R65). -/
def Reg.base : Reg → Nat
  | .ctrl => 0x0000
  | .status => 0x0004
  | .errinfo => 0x0008
  | .npub => 0x000C
  | .cinlen => 0x0010
  | .coutlen => 0x0014
  | .phase => 0x0018
  | .idx => 0x001C
  | .nic => 0x0020
  | .npubmax => 0x0024
  | .vkver => 0x0028
  | .a => 0x0040
  | .b => 0x0080
  | .c => 0x0100
  | .nega => 0x0140
  | .vkx => 0x0180
  | .term => 0x01C0
  | .p => 0x0200
  | .q => 0x0240
  | .v => 0x0300
  | .cin => 0x0380
  | .cout => 0x0400
  | .pub => 0x0800
  | .alfa1 => 0x1000
  | .beta2 => 0x1040
  | .gamma2 => 0x10C0
  | .delta2 => 0x1140
  | .ic => 0x11C0

/-- Size in bytes of a register in the window (20_memory.md R65); IC takes 64 · NIC. -/
def Reg.size (cfg : Config) : Reg → Nat
  | .ctrl => 4
  | .status => 4
  | .errinfo => 4
  | .npub => 4
  | .cinlen => 4
  | .coutlen => 4
  | .phase => 4
  | .idx => 4
  | .nic => 4
  | .npubmax => 4
  | .vkver => 4
  | .a => 64
  | .b => 128
  | .c => 64
  | .nega => 64
  | .vkx => 64
  | .term => 64
  | .p => 64
  | .q => 128
  | .v => 128
  | .cin => 128
  | .cout => 768
  | .pub => 32 * Config.npubMax
  | .alfa1 => 64
  | .beta2 => 128
  | .gamma2 => 128
  | .delta2 => 128
  | .ic => 64 * cfg.vk.ic.length

/-- Whether the host may write a register (20_memory.md R65, R67). -/
def Reg.access : Reg → Access
  | .ctrl => .rw
  | .status => .ro
  | .errinfo => .ro
  | .npub => .rw
  | .cinlen => .rw
  | .coutlen => .rw
  | .phase => .ro
  | .idx => .ro
  | .nic => .ro
  | .npubmax => .ro
  | .vkver => .ro
  | .a => .rw
  | .b => .rw
  | .c => .rw
  | .nega => .ro
  | .vkx => .ro
  | .term => .ro
  | .p => .rw
  | .q => .rw
  | .v => .rw
  | .cin => .rw
  | .cout => .ro
  | .pub => .rw
  | .alfa1 => .ro
  | .beta2 => .ro
  | .gamma2 => .ro
  | .delta2 => .ro
  | .ic => .ro

/-- The registers whose bytes have a written state (10_state.md R47). -/
def Reg.tracked : Reg → Bool
  | .a => true
  | .b => true
  | .c => true
  | .nega => true
  | .vkx => true
  | .term => true
  | .p => true
  | .q => true
  | .v => true
  | .cin => true
  | .cout => true
  | .pub => true
  | .ctrl => false
  | .status => false
  | .errinfo => false
  | .npub => false
  | .cinlen => false
  | .coutlen => false
  | .phase => false
  | .idx => false
  | .nic => false
  | .npubmax => false
  | .vkver => false
  | .alfa1 => false
  | .beta2 => false
  | .gamma2 => false
  | .delta2 => false
  | .ic => false

/-- The registers in the order of the address map. -/
def Reg.all : List Reg :=
  [.ctrl, .status, .errinfo, .npub, .cinlen, .coutlen, .phase, .idx, .nic, .npubmax, .vkver] ++
    [.a, .b, .c, .nega, .vkx, .term, .p, .q, .v, .cin, .cout, .pub] ++
    [.alfa1, .beta2, .gamma2, .delta2, .ic]

/-- The row of a register. -/
def mapRow (cfg : Config) (r : Reg) : MapRow := ⟨r, r.base, r.size cfg, r.access⟩

/-- The address map of 20_memory.md R65. Every offset in no row is reserved. -/
def addressMap (cfg : Config) : List MapRow := Reg.all.map (mapRow cfg)

/-- Whether a row covers an offset. -/
def MapRow.covers (row : MapRow) (off : Nat) : Bool :=
  decide (row.base ≤ off) && decide (off < row.base + row.size)

/-- The row that covers an offset, if it is not reserved. -/
def mapFind (cfg : Config) (off : Nat) : Option MapRow := (addressMap cfg).find? (fun row => row.covers off)

/-- Byte `k` of the window image of a register (10_state.md R35 to R45, 20_memory.md R80). -/
def regByte (s : State) : Reg → Nat → Byte
  | .ctrl, k => (wordBytes s.ctrl).getD k 0
  | .status, k => (wordBytes s.status.word).getD k 0
  | .errinfo, k => (wordBytes s.errinfo).getD k 0
  | .npub, k => (wordBytes s.npub).getD k 0
  | .cinlen, k => (wordBytes s.cinlen).getD k 0
  | .coutlen, k => (wordBytes s.coutlen).getD k 0
  | .phase, k => (wordBytes (s.phase.code.setWidth 32)).getD k 0
  | .idx, k => (wordBytes (s.idx.setWidth 32)).getD k 0
  | .nic, k => (wordBytes (BitVec.ofNat 32 s.cfg.vk.ic.length)).getD k 0
  | .npubmax, k => (wordBytes (BitVec.ofNat 32 Config.npubMax)).getD k 0
  | .vkver, k => (wordBytes s.cfg.vkVersion).getD k 0
  | .a, k => (enc1 s.a).getD k 0
  | .b, k => (enc2 s.b).getD k 0
  | .c, k => (enc1 s.c).getD k 0
  | .nega, k => (enc1 s.nega).getD k 0
  | .vkx, k => (enc1 s.vkx).getD k 0
  | .term, k => (enc1 s.term).getD k 0
  | .p, k => (enc1 s.p).getD k 0
  | .q, k => (enc2 s.q).getD k 0
  | .v, k => (be s.v.toNat 128).getD k 0
  | .cin, k => s.cin.read k
  | .cout, k => s.cout.read k
  | .pub, k => (enc256 (s.pub[k / 32]?.getD 0)).getD (k % 32) 0
  | .alfa1, k => (enc1 s.cfg.vk.alfa1).getD k 0
  | .beta2, k => (enc2 s.cfg.vk.beta2).getD k 0
  | .gamma2, k => (enc2 s.cfg.vk.gamma2).getD k 0
  | .delta2, k => (enc2 s.cfg.vk.delta2).getD k 0
  | .ic, k => (enc1 (s.cfg.vk.ic[k / 64]?.getD ⟨0, 0⟩)).getD (k % 64) 0

/-- The byte of the window at an offset: a register's, or 0 at a reserved offset (20_memory.md R66). -/
def windowByte (s : State) (off : Nat) : Byte :=
  match mapFind s.cfg off with
  | some row => regByte s row.reg (off - row.base)
  | none => 0

end Sys2Proof.Machine
end

