-- ==== Sys2Proof/Machine/Ops.lean ====
section
/-! DEFINITION. The operations the meanings share: written marks, operands and the fault UnwrittenOperand, completion,
taking an error, the start of a command, the codec output buffer, and reset. -/

namespace Sys2Proof.Machine

/-- Mark `n` window bytes from offset `off` on as written since reset (10_state.md R47). -/
def markWritten (off n : Nat) (s : State) : State :=
  { s with written := s.written.writeBytes off (List.replicate n 1) }

/-- Whether `n` window bytes from offset `off` on are all written. -/
def allWritten (s : State) (off n : Nat) : Bool := (s.written.readBytes off n).all (fun b => b == 1)

/-- Bytes of a register that a command reads as an operand: `len` of them from byte `first` on. -/
structure Operand where
  reg : Reg
  first : Nat
  len : Nat
deriving DecidableEq, Repr

/-- Whether every byte of an operand is written. -/
def Operand.isWritten (s : State) (o : Operand) : Bool := allWritten s (o.reg.base + o.first) o.len

/-- Read some operands and go on to a next state. The first of them with an unwritten byte is the fault UnwrittenOperand
instead (60_exceptions.md R282, 93_implementation_defined.md U5). -/
def readThen (ops : List Operand) (s t : State) : Host.Outcome State Fault Refusal :=
  match ops.find? (fun o => !o.isWritten s) with
  | some o => .fault (.unwrittenOperand o.reg)
  | none => .next t

/-- CIN[0..CINLEN) (10_state.md R43). -/
def cinContent (s : State) : List Byte := s.cin.readBytes 0 s.cinlen.toNat

/-- PUB[k] (10_state.md R36). -/
def pubEntry (s : State) (k : Nat) : Field := s.pub[k]?.getD 0

/-- What a command with the append flag reads besides its input: COUTLEN (70_reset_and_hazards.md R314). -/
def appendReads (append : Bool) : List Operand := if append then [⟨.coutlen, 0, 4⟩] else []

/-- What a command on the codec input reads: CINLEN and CIN[0..CINLEN) (70_reset_and_hazards.md R314). -/
def cinReads (append : Bool) (s : State) : List Operand :=
  ⟨.cinlen, 0, 4⟩ :: ⟨.cin, 0, s.cinlen.toNat⟩ :: appendReads append

/-- What ENCFIX and SENC read (70_reset_and_hazards.md R314). -/
def vReads (append : Bool) : List Operand := ⟨.v, 0, 128⟩ :: appendReads append

/-- What VERIFY reads: A, B, C, NPUB and PUB[0..NPUB) (43_verifier.md R223, 70_reset_and_hazards.md R314). -/
def verifyReads (s : State) : List Operand :=
  [⟨.npub, 0, 4⟩, ⟨.a, 0, 64⟩, ⟨.b, 0, 128⟩, ⟨.c, 0, 64⟩, ⟨.pub, 0, 32 * s.npub.toNat⟩]

/-- What the host must have written before it starts each command, by 70_reset_and_hazards.md R314. An engine request
reads no register of the window. -/
def commandReads (s : State) : Instr → List Operand
  | .strip append => cinReads append s
  | .encfix append _ => vReads append
  | .decuint => cinReads false s
  | .concat append => cinReads append s
  | .sdec => cinReads false s
  | .senc append => vReads append
  | .g1dec => cinReads false s
  | .g1enc append => ⟨.p, 0, 64⟩ :: appendReads append
  | .g2enc append => ⟨.q, 0, 128⟩ :: appendReads append
  | .neg => [⟨.p, 0, 64⟩]
  | .verify => verifyReads s
  | .engAdd => []
  | .engSmul => []
  | .engPair => []

/-- Mark some operands as written: the host has written into them what they hold. -/
def markOperands : List Operand → State → State
  | [], s => s
  | o :: ops, s => markOperands ops (markWritten (o.reg.base + o.first) o.len s)

/-- Normal completion (30_encoding.md R112), part of the last sequencer step. -/
def complete (s : State) : State :=
  { s with status := { s.status with busy := false, done := true, waiteng := false }, phase := .idle }

/-- `raise E(info)`: the block's error completion (60_exceptions.md R276). It saves the place of the error in ERRINFO and
the class in ERR, ends the command, and writes nothing else. The spec has no handler and no return (R286). -/
def raiseError (e : ErrorClass) (info : Word) (s : State) : State :=
  { s with
    status := { s.status with err := e, valid := false, waiteng := false, busy := false, done := true }
    errinfo := info
    rspValid := false
    phase := .idle }

/-- `raise E(errinfo)` with errinfo read before PHASE changes (60_exceptions.md R276). -/
def raiseHere (e : ErrorClass) (s : State) : State := raiseError e (errinfoOf s) s

/-- STATUS at a command start: everything clear but BUSY and LASTOP (30_encoding.md R111). -/
def startStatus (w : Word) : Status :=
  { Status.zero with busy := true, lastop := opcField w }

/-- CTRL, STATUS, ERRINFO and IDX at a command start (30_encoding.md R111). -/
def beginCommand (w : Word) (s : State) : State :=
  { s with ctrl := w, status := startStatus w, errinfo := 0, idx := 0 }

/-- Command start (30_encoding.md R111): the phase by the legality and the opcode of the word. An illegal word completes
at once with IllegalCommand and ERRINFO = 0 (60_exceptions.md R279). -/
def startCommand (w : Word) (s : State) : State :=
  match decode (wordBytes w) with
  | .reject _ => raiseError .illegalCommand 0 { beginCommand w s with phase := .idle }
  | .instr .verify => { beginCommand w s with phase := .vLen }
  | .instr _ => { beginCommand w s with phase := .exec }

/-- Write bytes of COUT from element `k` on and set COUTLEN to their end (40_bytecodec.md R135). -/
def storeCout (k : Nat) (r : List Byte) (s : State) : State :=
  markWritten (Reg.base .coutlen) 4
    (markWritten (Reg.base .cout + k) r.length
      { s with cout := s.cout.writeBytes k r, coutlen := BitVec.ofNat 32 (k + r.length) })

/-- `putCOUT(r)` and the completion after it (40_bytecodec.md R135): replace, or append, or CapacityError. -/
def putCout (append : Bool) (r : List Byte) (s : State) : State :=
  if append then
    if s.coutlen.toNat + r.length > Config.coutCap then raiseHere .capacityError s
    else complete (storeCout s.coutlen.toNat r s)
  else complete (storeCout 0 r s)

/-- Write V (10_state.md R42). -/
def setV (n : Nat) (s : State) : State :=
  markWritten (Reg.base .v) 128 { s with v := BitVec.ofNat 1024 n }

/-- Write P (10_state.md R40). -/
def setP (p : G1) (s : State) : State := markWritten (Reg.base .p) 64 { s with p := p }

/-- Write VKX (10_state.md R38). -/
def setVkx (p : G1) (s : State) : State := markWritten (Reg.base .vkx) 64 { s with vkx := p }

/-- Write TERM (10_state.md R39). -/
def setTerm (p : G1) (s : State) : State := markWritten (Reg.base .term) 64 { s with term := p }

/-- Write NEGA (10_state.md R37). -/
def setNega (p : G1) (s : State) : State := markWritten (Reg.base .nega) 64 { s with nega := p }

/-- Count one step of an agent other than the host (log 4). -/
def tick (s : State) : State := { s with freeCount := s.freeCount + 1 }

/-- Reset (70_reset_and_hazards.md R310, R311): every piece of the block's state takes its reset value. The
configuration stays (R312), and so do the model's own fields, which are the outside world's. -/
def resetBlock (s : State) : State :=
  { State.reset with
    cfg := s.cfg
    hostProg := s.hostProg
    hostResp := s.hostResp
    turns := s.turns
    freeCount := s.freeCount + 1 }

end Sys2Proof.Machine
end

