-- ==== Sys2Proof/Machine/ByteCodec.lean ====
section
/-! DEFINITION. The ByteCodec commands (40_bytecodec.md section 2), each the single EXEC step after the start. The reads
of 70_reset_and_hazards.md R314 come first (log 12). -/

namespace Sys2Proof.Machine

/-- STRIP (40_bytecodec.md R136). -/
def execStrip (append : Bool) (s : State) : Host.Outcome State Fault Refusal :=
  readThen (commandReads s (.strip append)) s
    (if s.cinlen = 0 then raiseHere .emptyInput s else putCout append (strip (cinContent s)) s)

/-- `putCOUT(be(V, w))`, with the EncodingError of R133 before the CapacityError (40_bytecodec.md R137). -/
def putEncodedV (append : Bool) (w : Nat) (s : State) : State :=
  match encodeFixed s.v.toNat w with
  | none => raiseHere .encodingError s
  | some r => putCout append r s

/-- ENCFIX (40_bytecodec.md R137). -/
def execEncfix (append : Bool) (width : Byte) (s : State) : Host.Outcome State Fault Refusal :=
  readThen (commandReads s (.encfix append width)) s (putEncodedV append width.toNat s)

/-- DECUINT (40_bytecodec.md R138). -/
def execDecuint (s : State) : Host.Outcome State Fault Refusal :=
  readThen (commandReads s .decuint) s (complete (setV (unbe (cinContent s)) s))

/-- CONCAT (40_bytecodec.md R139). -/
def execConcat (append : Bool) (s : State) : Host.Outcome State Fault Refusal :=
  readThen (commandReads s (.concat append)) s (putCout append (cinContent s) s)

end Sys2Proof.Machine
end

