-- ==== Sys2Proof/Machine/PointCodec.lean ====
section
/-! DEFINITION. The PointCodec commands (41_pointcodec.md section 2) and NEG (43_verifier.md R221), each the single EXEC
step after the start. The reads of 70_reset_and_hazards.md R314 come first (log 12). -/

namespace Sys2Proof.Machine

/-- SDEC (41_pointcodec.md R166). -/
def execSdec (s : State) : Host.Outcome State Fault Refusal :=
  readThen (commandReads s .sdec) s
    (match sdecode (cinContent s) with
    | none => raiseHere .formatError s
    | some n => complete (setV n s))

/-- SENC (41_pointcodec.md R167): EncodingError before CapacityError. -/
def execSenc (append : Bool) (s : State) : Host.Outcome State Fault Refusal :=
  readThen (commandReads s (.senc append)) s (putEncodedV append 32 s)

/-- G1DEC (41_pointcodec.md R168). -/
def execG1dec (s : State) : Host.Outcome State Fault Refusal :=
  readThen (commandReads s .g1dec) s
    (match g1decode (cinContent s) with
    | none => raiseHere .formatError s
    | some p => complete (setP p s))

/-- G1ENC (41_pointcodec.md R169). -/
def execG1enc (append : Bool) (s : State) : Host.Outcome State Fault Refusal :=
  readThen (commandReads s (.g1enc append)) s (putCout append (enc1 s.p) s)

/-- G2ENC (41_pointcodec.md R170). -/
def execG2enc (append : Bool) (s : State) : Host.Outcome State Fault Refusal :=
  readThen (commandReads s (.g2enc append)) s (putCout append (enc2 s.q) s)

/-- NEG (43_verifier.md R221). -/
def execNeg (s : State) : Host.Outcome State Fault Refusal :=
  readThen (commandReads s .neg) s (complete (setP (negate s.cfg.baseP s.p) s))

end Sys2Proof.Machine
end

