-- ==== Sys2Proof/Machine/Engine.lean ====
section
/-! DEFINITION. The engine port (42_engine_interface.md): issue, answer and consume, the payloads, the reading of
responses, and the three engine requests as the engine's answer step. -/

namespace Sys2Proof.Machine

/-- ENGINE (00_scope.md R9): the known answers first, and the uninterpreted oracle for every other call (log 7). -/
def engineOf (cfg : Config) (call : EngineCall) : EngineResponse :=
  match cfg.engineTable.find? (fun f => f.call == call) with
  | some f => f.answer
  | none => Config.engineOracle call

/-- The issue step's effect on the port (42_engine_interface.md R190). -/
def issueRequest (call : EngineCall) (s : State) : State :=
  { s with
    reqSel := call.sel
    reqPayload := call.payload
    rspValid := false
    status := { s.status with waiteng := true } }

/-- The engine has a step iff WAITENG = 1 and RSP_VALID = 0 (42_engine_interface.md R190). -/
def engineEnabled (s : State) : Bool := s.status.waiteng && !s.rspValid

/-- The answer step (42_engine_interface.md R190). Where it is not enabled a late response is discarded
(R204, log 16). -/
def answerRequest (sel : Byte) (s : State) : State :=
  if engineEnabled s then { s with rsp := engineOf s.cfg ⟨sel, s.reqPayload⟩, rspValid := true } else s

/-- The consume step's effect on the port (42_engine_interface.md R190). -/
def consumeResponse (s : State) : State :=
  { s with rspValid := false, status := { s.status with waiteng := false } }

/-- The `add` request (42_engine_interface.md R192). -/
def addCall (p1 p2 : G1) : EngineCall := ⟨Config.selAdd, enc1 p1 ++ enc1 p2⟩

/-- The `scalar_mul` request (42_engine_interface.md R193). -/
def smulCall (p : G1) (k : Field) : EngineCall := ⟨Config.selSmul, enc1 p ++ enc256 k⟩

/-- The pairing argument in either layout, for any number of pairs (42_engine_interface.md R194 to R196). -/
def pairPayload : PairLayout → List G1 → List G2 → List Byte
  | .interleaved, g1s, g2s => (List.zipWith (fun p q => enc1 p ++ enc2 q) g1s g2s).flatten
  | .split, g1s, g2s => (g1s.map enc1).flatten ++ (g2s.map enc2).flatten

/-- The `pairing_check` request (42_engine_interface.md R194). -/
def pairCall (layout : PairLayout) (g1s : List G1) (g2s : List G2) : EngineCall :=
  ⟨Config.selPair, pairPayload layout g1s g2s⟩

/-- The pairing precondition (42_engine_interface.md R197). -/
def precheck (g1s : List G1) (g2s : List G2) : Bool :=
  decide (g1s.length ≠ 0) && decide (g1s.length = g2s.length)

/-- What a response says, or the error it raises. -/
inductive Reading (α : Type) where
  | value (a : α)
  | error (e : ErrorClass)
deriving DecidableEq, Repr

/-- An add or scalar_mul response (42_engine_interface.md R198). -/
def readPoint : EngineResponse → Reading G1
  | .err => .error .providerError
  | .ok bs =>
    match g1decode bs with
    | none => .error .formatError
    | some p => .value p

/-- A pairing_check response (42_engine_interface.md R199). -/
def readBool : EngineResponse → Reading Bool
  | .err => .error .providerError
  | .ok bs =>
    if bs.length = 32 ∧ unbe bs = 1 then .value true
    else if bs.length = 32 ∧ unbe bs = 0 then .value false
    else .error .providerError

/-- ENG.ADD: the engine answers an `add` request (42_engine_interface.md R190, R192). -/
def execEngAdd (s : State) : Host.Outcome State Fault Refusal := .next (answerRequest Config.selAdd s)

/-- ENG.SMUL: the engine answers a `scalar_mul` request (42_engine_interface.md R190, R193). -/
def execEngSmul (s : State) : Host.Outcome State Fault Refusal := .next (answerRequest Config.selSmul s)

/-- ENG.PAIR: the engine answers a `pairing_check` request (42_engine_interface.md R190, R194). -/
def execEngPair (s : State) : Host.Outcome State Fault Refusal := .next (answerRequest Config.selPair s)

end Sys2Proof.Machine
end

