-- ==== Sys2Proof/Machine/Verifier.lean ====
section
/-! DEFINITION. VERIFY: the sequencer's phases (43_verifier.md R227 to R235). -/

namespace Sys2Proof.Machine

/-- V_LEN (43_verifier.md R227). -/
def phaseLen (s : State) : Host.Outcome State Fault Refusal :=
  readThen [⟨.npub, 0, 4⟩] s
    (if s.npub.toNat + 1 ≠ s.cfg.vk.ic.length then raiseHere .inputLengthMismatch s
    else { s with idx := 0, phase := .vRange })

/-- PUB[k], the operand of one input (43_verifier.md R223). -/
def pubReads (k : Nat) : List Operand := [⟨.pub, 32 * k, 32⟩]

/-- V_RANGE (43_verifier.md R228): one input a step, each by its own value. -/
def phaseRange (s : State) : Host.Outcome State Fault Refusal :=
  if s.idx.toNat = s.npub.toNat then .next { s with phase := .vLcinit }
  else if s.idx.toNat < Config.npubMax then
    readThen (pubReads s.idx.toNat) s
      (if (pubEntry s s.idx.toNat).toNat ≥ s.cfg.scalarR then raiseHere .scalarFieldOverflow s
      else { s with idx := s.idx + 1 })
  else .fault (.absentEntry .pub)

/-- V_LCINIT (43_verifier.md R230). -/
def phaseLcinit (s : State) : Host.Outcome State Fault Refusal :=
  match s.cfg.vk.ic[0]? with
  | none => .fault (.absentEntry .ic)
  | some p => .next { setVkx p s with idx := 0, phase := if s.npub.toNat > 0 then .vSmul else .vNeg }

/-- V_SMUL, issue (43_verifier.md R231). -/
def issueSmul (s : State) : Host.Outcome State Fault Refusal :=
  match s.cfg.vk.ic[s.idx.toNat + 1]? with
  | none => .fault (.absentEntry .ic)
  | some p =>
    if s.idx.toNat < Config.npubMax then
      readThen (pubReads s.idx.toNat) s (issueRequest (smulCall p (pubEntry s s.idx.toNat)) s)
    else .fault (.absentEntry .pub)

/-- V_SMUL, consume (43_verifier.md R231). -/
def consumeSmul (s : State) : Host.Outcome State Fault Refusal :=
  match readPoint s.rsp with
  | .error e => .next (raiseHere e s)
  | .value p => .next { setTerm p (consumeResponse s) with phase := .vAdd }

/-- The registers the issue step of V_ADD reads (43_verifier.md R232). -/
def addReads : List Operand := [⟨.vkx, 0, 64⟩, ⟨.term, 0, 64⟩]

/-- V_ADD, issue (43_verifier.md R232): the accumulator first, the term second. -/
def issueAdd (s : State) : Host.Outcome State Fault Refusal :=
  readThen addReads s (issueRequest (addCall s.vkx s.term) s)

/-- V_ADD, consume (43_verifier.md R232). -/
def consumeAdd (s : State) : Host.Outcome State Fault Refusal :=
  match readPoint s.rsp with
  | .error e => .next (raiseHere e s)
  | .value p =>
    if s.idx.toNat + 1 < s.npub.toNat then
      .next { setVkx p (consumeResponse s) with idx := s.idx + 1, phase := .vSmul }
    else .next { setVkx p (consumeResponse s) with phase := .vNeg }

/-- V_NEG (43_verifier.md R233). -/
def phaseNeg (s : State) : Host.Outcome State Fault Refusal :=
  readThen [⟨.a, 0, 64⟩] s { setNega (negate s.cfg.baseP s.a) s with phase := .vPair }

/-- The four G1 arguments of the pairing check, in order (43_verifier.md R234). -/
def g1Args (s : State) : List G1 := [s.nega, s.cfg.vk.alfa1, s.vkx, s.c]

/-- The four G2 arguments of the pairing check, in order (43_verifier.md R234). -/
def g2Args (s : State) : List G2 := [s.b, s.cfg.vk.beta2, s.cfg.vk.gamma2, s.cfg.vk.delta2]

/-- The registers the issue step of V_PAIR reads, in the order of its pairs (43_verifier.md R234, log 12). -/
def pairReads : List Operand := [⟨.nega, 0, 64⟩, ⟨.b, 0, 128⟩, ⟨.vkx, 0, 64⟩, ⟨.c, 0, 64⟩]

/-- V_PAIR, issue (43_verifier.md R234). -/
def issuePair (s : State) : Host.Outcome State Fault Refusal :=
  readThen pairReads s
    (if precheck (g1Args s) (g2Args s) then issueRequest (pairCall s.cfg.pairLayout (g1Args s) (g2Args s)) s
    else raiseHere .precheckError s)

/-- STATUS.VALID (43_verifier.md R235). -/
def setValid (ok : Bool) (s : State) : State := { s with status := { s.status with valid := ok } }

/-- V_PAIR, consume (43_verifier.md R235). -/
def consumePair (s : State) : Host.Outcome State Fault Refusal :=
  match readBool s.rsp with
  | .error e => .next (raiseHere e s)
  | .value ok => .next (complete (setValid ok (consumeResponse s)))

/-- A phase with an engine request: the issue step, no step while the engine has not answered, the consume step
(42_engine_interface.md R190). -/
def enginePhase (issue consume : State → Host.Outcome State Fault Refusal) (s : State) :
    Host.Outcome State Fault Refusal :=
  if s.status.waiteng then (if s.rspValid then consume s else .next s) else issue s

/-- VERIFY: the action of the current phase (43_verifier.md R223, R225, R226). -/
def execVerify (s : State) : Host.Outcome State Fault Refusal :=
  match s.phase with
  | .vLen => phaseLen s
  | .vRange => phaseRange s
  | .vLcinit => phaseLcinit s
  | .vSmul => enginePhase issueSmul consumeSmul s
  | .vAdd => enginePhase issueAdd consumeAdd s
  | .vNeg => phaseNeg s
  | .vPair => enginePhase issuePair consumePair s
  | .idle => .fault .noPhaseAction
  | .exec => .fault .noPhaseAction

end Sys2Proof.Machine
end

