-- ==== Sys2Proof/Machine/Dispatch.lean ====
section
/-! DEFINITION. One arm per instruction. A command's meaning is its sequencer step and an engine request's meaning is the
engine's answer step (log 11). -/

namespace Sys2Proof.Machine

def exec (i : Instr) (s : State) : Host.Outcome State Fault Refusal :=
  match i with
  | .strip append => Sys2Proof.Machine.execStrip append s
  | .encfix append width => Sys2Proof.Machine.execEncfix append width s
  | .decuint => Sys2Proof.Machine.execDecuint s
  | .concat append => Sys2Proof.Machine.execConcat append s
  | .sdec => Sys2Proof.Machine.execSdec s
  | .senc append => Sys2Proof.Machine.execSenc append s
  | .g1dec => Sys2Proof.Machine.execG1dec s
  | .g1enc append => Sys2Proof.Machine.execG1enc append s
  | .g2enc append => Sys2Proof.Machine.execG2enc append s
  | .neg => Sys2Proof.Machine.execNeg s
  | .verify => Sys2Proof.Machine.execVerify s
  | .engAdd => Sys2Proof.Machine.execEngAdd s
  | .engSmul => Sys2Proof.Machine.execEngSmul s
  | .engPair => Sys2Proof.Machine.execEngPair s

end Sys2Proof.Machine
end

