-- ==== Sys2Proof/Machine/HostAccess.lean ====
section
/-! DEFINITION. The host's accesses to the register window (20_memory.md sections 1 to 6) and its program lines
(30_encoding.md section 3). -/

namespace Sys2Proof.Machine

/-- An access that gets a bus error: misaligned, or at 0x4000 or above (20_memory.md R62, R63). -/
def badAccess (addr : Nat) : Bool := decide (addr % 4 ≠ 0) || decide (Config.windowBytes ≤ addr)

/-- The byte a host read returns at an offset: the current value, or any value for a byte of a data register not written
since reset (20_memory.md R70, 10_state.md R47, log 4). -/
def hostByte (s : State) (off : Nat) : Byte :=
  match mapFind s.cfg off with
  | none => 0
  | some row =>
    if row.reg.tracked && !allWritten s off 1 then Config.freeByte s.freeCount off
    else regByte s row.reg (off - row.base)

/-- The 32-bit value a host read returns, most significant byte at the lowest offset (20_memory.md R64). -/
def hostWord (s : State) (off : Nat) : Word :=
  wordOfBytes (hostByte s off) (hostByte s (off + 1)) (hostByte s (off + 2)) (hostByte s (off + 3))

/-- A host read (20_memory.md R61 to R63, R70). -/
def hostRead (addr : Nat) (s : State) : Host.Outcome State Fault Refusal :=
  if badAccess addr then .fault (.busError addr) else .next { s with hostResp := .data (hostWord s addr) }

/-- The image of a G1 register with one word replaced (20_memory.md R80). -/
def pokeG1 (p : G1) (k : Nat) (w : Word) : G1 := g1OfImage (patch (enc1 p) k (wordBytes w))

/-- The image of a G2 register with one word replaced (20_memory.md R80). -/
def pokeG2 (q : G2) (k : Nat) (w : Word) : G2 := g2OfImage (patch (enc2 q) k (wordBytes w))

/-- The image of an integer field with one word replaced (20_memory.md R80). -/
def pokeField (f : Field) (k : Nat) (w : Word) : Field := field256 (patch (enc256 f) k (wordBytes w))

/-- The image of V with one word replaced (20_memory.md R80, 10_state.md R42). -/
def pokeV (v : WideInt) (k : Nat) (w : Word) : WideInt :=
  BitVec.ofNat 1024 (unbe (patch (be v.toNat 128) k (wordBytes w)))

/-- A write of a bounded register: the state it leaves, or no effect where the value is above the bound
(20_memory.md R68). -/
def storeBounded (r : Reg) (bound : Nat) (w : Word) (stored s : State) : State :=
  if w.toNat ≤ bound then markWritten r.base 4 stored else s

/-- Store a word at byte `k` of a register, the block being idle (20_memory.md R67 to R69, R80). A write of CTRL starts a
command (30_encoding.md R111). A read-only register is unchanged. -/
def storeReg (r : Reg) (k : Nat) (w : Word) (s : State) : State :=
  match r with
  | .ctrl => startCommand w s
  | .npub => storeBounded .npub Config.npubMax w { s with npub := w } s
  | .cinlen => storeBounded .cinlen Config.cinCap w { s with cinlen := w } s
  | .coutlen => storeBounded .coutlen Config.coutCap w { s with coutlen := w } s
  | .a => markWritten (Reg.base .a + k) 4 { s with a := pokeG1 s.a k w }
  | .b => markWritten (Reg.base .b + k) 4 { s with b := pokeG2 s.b k w }
  | .c => markWritten (Reg.base .c + k) 4 { s with c := pokeG1 s.c k w }
  | .p => markWritten (Reg.base .p + k) 4 { s with p := pokeG1 s.p k w }
  | .q => markWritten (Reg.base .q + k) 4 { s with q := pokeG2 s.q k w }
  | .v => markWritten (Reg.base .v + k) 4 { s with v := pokeV s.v k w }
  | .cin => markWritten (Reg.base .cin + k) 4 { s with cin := s.cin.writeBytes k (wordBytes w) }
  | .pub =>
    markWritten (Reg.base .pub + k) 4
      { s with pub := s.pub.setIfInBounds (k / 32) (pokeField (s.pub[k / 32]?.getD 0) (k % 32) w) }
  | .status => s
  | .errinfo => s
  | .phase => s
  | .idx => s
  | .nic => s
  | .npubmax => s
  | .vkver => s
  | .nega => s
  | .vkx => s
  | .term => s
  | .cout => s
  | .alfa1 => s
  | .beta2 => s
  | .gamma2 => s
  | .delta2 => s
  | .ic => s

/-- Store a word at an offset of the window, the block being idle; a reserved offset ignores it (20_memory.md R66). -/
def storeAt (off : Nat) (w : Word) (s : State) : State :=
  match mapFind s.cfg off with
  | none => s
  | some row => storeReg row.reg (off - row.base) w s

/-- A host write (20_memory.md R61 to R63, R69). While BUSY = 1 it is ignored and sets HAZ
(70_reset_and_hazards.md R316). -/
def hostWrite (addr : Nat) (w : Word) (s : State) : Host.Outcome State Fault Refusal :=
  if badAccess addr then .fault (.busError addr)
  else if s.status.busy then
    .next { s with status := { s.status with haz := true }, hostResp := .written }
  else .next { storeAt addr w s with hostResp := .written }

/-- `WRB o, h`: one write for each four bytes, in order (30_encoding.md R109). -/
def wrb (off : Nat) : List Byte → List HostOp
  | b0 :: b1 :: b2 :: b3 :: rest => .wr off (wordOfBytes b0 b1 b2 b3) :: wrb (off + 4) rest
  | [] => []
  | [_] => []
  | [_, _] => []
  | [_, _, _] => []

/-- `CMD c`: a write of the command word to CTRL (30_encoding.md R106, R107). An engine request is no command. -/
def cmd (i : Instr) : List HostOp := wrb (Reg.base .ctrl) (encode i)

/-- The host's step: the access of the next line of its program. `WAIT` reads STATUS and stays until bit 0, BUSY, is 0
(30_encoding.md R108). -/
def hostStep (s : State) : Host.Outcome State Fault Refusal :=
  match s.hostProg with
  | [] => .next s
  | .rd addr :: rest => hostRead addr { s with hostProg := rest }
  | .wr addr w :: rest => hostWrite addr w { s with hostProg := rest }
  | .wait :: rest =>
    hostRead (Reg.base .status)
      (if (hostWord s (Reg.base .status)).getLsbD 0 then s else { s with hostProg := rest })

end Sys2Proof.Machine
end

