-- ==== Sys2Proof/Machine/Agents.lean ====
section
/-! DEFINITION. Who moves next and what each agent's step is (10_state.md R20), and how an instruction is put where the
next step runs it. -/

namespace Sys2Proof.Machine

/-- The sequencer has a step iff BUSY = 1, PHASE ≠ IDLE and not (WAITENG = 1 and RSP_VALID = 0) (43_verifier.md R226). -/
def sequencerEnabled (s : State) : Bool :=
  s.status.busy && !decide (s.phase = .idle) && !(s.status.waiteng && !s.rspValid)

/-- EXEC: the command rule of the word in CTRL (43_verifier.md R226). -/
def runCommand (s : State) : Host.Outcome State Fault Refusal :=
  match decode (wordBytes s.ctrl) with
  | .instr i => exec i s
  | .reject _ => .refused .undecodableCommand

/-- The action of the current phase (43_verifier.md R226). -/
def runPhase (s : State) : Host.Outcome State Fault Refusal :=
  match s.phase with
  | .exec => runCommand s
  | .idle => .next s
  | .vLen => exec .verify s
  | .vRange => exec .verify s
  | .vLcinit => exec .verify s
  | .vSmul => exec .verify s
  | .vAdd => exec .verify s
  | .vNeg => exec .verify s
  | .vPair => exec .verify s

/-- The engine's answer to the request in REQ_SEL and REQ_PAYLOAD (42_engine_interface.md R190). ENGINE answers any
selector, so a selector the block never sends is answered too. -/
def runEngine (s : State) : Host.Outcome State Fault Refusal :=
  match decode [s.reqSel] with
  | .instr i => exec i s
  | .reject _ => .next (answerRequest s.reqSel s)

/-- Whether the engine takes the step it has (70_reset_and_hazards.md R320, log 8). -/
def engineMoves (s : State) : Bool := engineEnabled s && s.cfg.engineAnswers

/-- One agent's step. A turn of an agent that has no step changes nothing (log 9). -/
def act (t : Turn) (s : State) : Host.Outcome State Fault Refusal :=
  match t with
  | .host => hostStep s
  | .sequencer => if sequencerEnabled s then runPhase (tick s) else .next s
  | .engine => if engineMoves s then runEngine (tick s) else .next s
  | .reset => .next (resetBlock s)

/-- The agent that moves when `turns` is empty: the sequencer, then the engine, then the host (log 9). -/
def idleTurn (s : State) : Turn :=
  if sequencerEnabled s then .sequencer else if engineMoves s then .engine else .host

/-- The next agent's step: the first of `turns`, and where there is none the order of `idleTurn`. -/
def agentStep (s : State) : Host.Outcome State Fault Refusal :=
  match s.turns with
  | t :: ts => act t { s with turns := ts }
  | [] => act (idleTurn s) s

/-- Put an instruction where the next step runs it (log 11). A command word is what the host has just written to CTRL
(30_encoding.md R111) after it has written the operands (70_reset_and_hazards.md R314), so the sequencer's next step runs
it on what the registers hold. A selector is the outstanding request, so
the engine's next step answers it. -/
def placeInstr (bytes : List Byte) (s : State) : State :=
  match bytes with
  | [sel] =>
    { s with
      turns := []
      reqSel := sel
      rspValid := false
      status := { s.status with waiteng := true }
      cfg := { s.cfg with engineAnswers := true } }
  | [b0, b1, b2, b3] =>
    match decode [b0, b1, b2, b3] with
    | .instr i => { startCommand (wordOfBytes b0 b1 b2 b3) (markOperands (commandReads s i) s) with turns := [] }
    | .reject _ => { startCommand (wordOfBytes b0 b1 b2 b3) s with turns := [] }
  | _ => s

end Sys2Proof.Machine
end

