-- ==== Sys2Proof/Machine/Step.lean ====
section
/-! DEFINITION. The step function of the machine. -/

namespace Sys2Proof.Machine

/-- One atomic step of one agent (10_state.md R20, 20_memory.md R71). -/
def step (s : State) : Host.Outcome State Fault Refusal := agentStep s

/-- `s` with the instruction whose bits are `w`, numbered as the opcode table numbers them, where the next step runs it. -/
def State.withFetchWord (s : State) (nbits w : Nat) : State := placeInstr (tableBytes nbits w) s

end Sys2Proof.Machine
end

