-- ==== Sys2Proof/Machine/VerifyFunction.lean ====
section
/-! DEFINITION. `verify` as the source states it, a pure function: the normative outcome of VERIFY (43_verifier.md R222). -/

namespace Sys2Proof.Machine

/-- The three outcome classes of VERIFY (43_verifier.md R237). -/
inductive Verdict where
  | valid
  | invalid
  | error (e : ErrorClass)
deriving DecidableEq, Repr

/-- An outcome with the engine calls made on the way, in order. -/
structure Verification where
  calls : List EngineCall
  verdict : Verdict
deriving DecidableEq, Repr

/-- Step 3 of R222 from an accumulator on: for each remaining pair of an IC point and its own input, scalar_mul and then
add. The first engine error ends it. -/
def linComb (cfg : Config) (acc : G1) : List (G1 × Field) → List EngineCall × Reading G1
  | [] => ([], .value acc)
  | (p, k) :: rest =>
    match readPoint (engineOf cfg (smulCall p k)) with
    | .error e => ([smulCall p k], .error e)
    | .value t =>
      match readPoint (engineOf cfg (addCall acc t)) with
      | .error e => ([smulCall p k, addCall acc t], .error e)
      | .value acc' =>
        (smulCall p k :: addCall acc t :: (linComb cfg acc' rest).1, (linComb cfg acc' rest).2)

/-- The pairing call of step 5 of R222, with step 4's negation. -/
def finalCall (cfg : Config) (a : G1) (b : G2) (c vkx : G1) : EngineCall :=
  pairCall cfg.pairLayout [negate cfg.baseP a, cfg.vk.alfa1, vkx, c]
    [b, cfg.vk.beta2, cfg.vk.gamma2, cfg.vk.delta2]

/-- Steps 5 and 6 of R222. -/
def finalVerdict (cfg : Config) (call : EngineCall) : Verdict :=
  match readBool (engineOf cfg call) with
  | .error e => .error e
  | .value true => .valid
  | .value false => .invalid

/-- `verify(public_inputs, proof, vk)` (43_verifier.md R222). -/
def verifyFunction (cfg : Config) (a : G1) (b : G2) (c : G1) (inputs : List Field) : Verification :=
  if inputs.length + 1 ≠ cfg.vk.ic.length then ⟨[], .error .inputLengthMismatch⟩
  else if inputs.any (fun f => decide (f.toNat ≥ cfg.scalarR)) then ⟨[], .error .scalarFieldOverflow⟩
  else
    match linComb cfg (cfg.vk.ic.headD ⟨0, 0⟩) (cfg.vk.ic.tail.zip inputs) with
    | (calls, .error e) => ⟨calls, .error e⟩
    | (calls, .value vkx) =>
      ⟨calls ++ [finalCall cfg a b c vkx], finalVerdict cfg (finalCall cfg a b c vkx)⟩

/-- The public inputs VERIFY reads: PUB[0..NPUB) (10_state.md R36). -/
def inputsOf (s : State) : List Field := (List.range s.npub.toNat).map (pubEntry s)

/-- The outcome R222 gives for a state's operands. -/
def verificationOf (s : State) : Verification := verifyFunction s.cfg s.a s.b s.c (inputsOf s)

/-- STATUS.ERR for an outcome (43_verifier.md R236). -/
def Verdict.err : Verdict → ErrorClass
  | .valid => .none
  | .invalid => .none
  | .error e => e

/-- STATUS.VALID for an outcome (43_verifier.md R236). -/
def Verdict.isValid : Verdict → Bool
  | .valid => true
  | .invalid => false
  | .error _ => false

end Sys2Proof.Machine
end

