-- ==== Sys2Proof/Safety.lean ====
section
/-! DEFINITION. The terms claims are stated in: the invariant of the machine, runs, and what a run asks of the engine. -/

namespace Sys2Proof.Machine

/-- NPUB, CINLEN and COUTLEN hold legal values (10_state.md R26 to R28). -/
abbrev lengthsLegal (s : State) : Prop :=
  s.npub.toNat ≤ Config.npubMax ∧ s.cinlen.toNat ≤ Config.cinCap ∧ s.coutlen.toNat ≤ Config.coutCap

/-- The byte arrays are in canonical form and stay within their capacities, and the written marks lie below the key
ROM (10_state.md R43, R44, R47). -/
abbrev memoriesWf (s : State) : Prop :=
  s.cin.wf = true ∧ s.cin.below Config.cinCap = true ∧ s.cout.wf = true ∧ s.cout.below Config.coutCap = true ∧
    s.written.wf = true ∧ s.written.below (Reg.base .alfa1) = true

/-- How STATUS, CTRL, ERRINFO and PHASE agree (10_state.md R23 to R25, R30). -/
abbrev statusLegal (s : State) : Prop :=
  (s.status.busy = true ↔ s.phase ≠ .idle) ∧
    (s.status.busy = true → s.status.done = false ∧ s.status.valid = false ∧ s.status.err = .none) ∧
    (s.status.valid = true → s.status.done = true ∧ s.status.err = .none ∧ s.status.lastop = 0x20) ∧
    (s.status.err = .none → s.errinfo = 0) ∧
    s.status.lastop = opcField s.ctrl

/-- A command that runs in one EXEC step (30_encoding.md R110). -/
def singleStep : Instr → Bool
  | .strip _ => true
  | .encfix _ _ => true
  | .decuint => true
  | .concat _ => true
  | .sdec => true
  | .senc _ => true
  | .g1dec => true
  | .g1enc _ => true
  | .g2enc _ => true
  | .neg => true
  | .verify => false
  | .engAdd => false
  | .engSmul => false
  | .engPair => false

/-- A phase of VERIFY (10_state.md R30). -/
def Phase.ofVerify : Phase → Bool
  | .idle => false
  | .exec => false
  | .vLen => true
  | .vRange => true
  | .vLcinit => true
  | .vSmul => true
  | .vAdd => true
  | .vNeg => true
  | .vPair => true

/-- The word in CTRL names a single-step command. -/
def ctrlSingleStep (s : State) : Bool :=
  match decode (wordBytes s.ctrl) with
  | .instr i => singleStep i
  | .reject _ => false

/-- The word in CTRL is the running command (10_state.md R23, 30_encoding.md R111). -/
abbrev commandLegal (s : State) : Prop :=
  (s.phase = .exec → ctrlSingleStep s = true) ∧
    (s.phase.ofVerify = true → decode (wordBytes s.ctrl) = .instr .verify)

/-- A phase after the length precondition (43_verifier.md R225). -/
def Phase.pastLength (ph : Phase) : Bool := ph.ofVerify && !decide (ph = .vLen)

/-- A phase after the range check (43_verifier.md R225). -/
def Phase.pastRange (ph : Phase) : Bool := ph.pastLength && !decide (ph = .vRange)

/-- What the phases of VERIFY have established: the length, IDX and its bound, and the range of the inputs
(43_verifier.md R227 to R232). -/
abbrev verifyLegal (s : State) : Prop :=
  (s.phase.pastLength = true → s.npub.toNat + 1 = s.cfg.vk.ic.length) ∧
    (s.phase = .vRange → s.idx.toNat ≤ s.npub.toNat ∧
      ((inputsOf s).take s.idx.toNat).all (fun f => decide (f.toNat < s.cfg.scalarR)) = true) ∧
    (s.phase = .vSmul ∨ s.phase = .vAdd → s.idx.toNat < s.npub.toNat) ∧
    (s.phase.pastRange = true → (inputsOf s).all (fun f => decide (f.toNat < s.cfg.scalarR)) = true) ∧
    (s.phase = .vLen → s.idx = 0)

/-- A phase in which VKX holds what the block wrote (43_verifier.md R230). -/
def Phase.pastInit (ph : Phase) : Bool := ph.pastRange && !decide (ph = .vLcinit)

/-- What the block writes itself and a phase reads: VKX, TERM and NEGA (10_state.md R48). -/
def Phase.blockReads (ph : Phase) : List Operand :=
  (if ph.pastInit then [⟨.vkx, 0, 64⟩] else []) ++ (if ph = .vAdd then [⟨.term, 0, 64⟩] else []) ++
    if ph = .vPair then [⟨.nega, 0, 64⟩] else []

/-- VERIFY writes VKX, TERM and NEGA before it reads them (10_state.md R48). -/
abbrev blockWritten (s : State) : Prop := s.phase.blockReads.all (fun o => o.isWritten s) = true

/-- The request a phase makes (43_verifier.md R231, R232, R234). -/
def phaseCall (s : State) : Option EngineCall :=
  match s.phase with
  | .vSmul =>
    match s.cfg.vk.ic[s.idx.toNat + 1]? with
    | some p => some (smulCall p (pubEntry s s.idx.toNat))
    | none => none
  | .vAdd => some (addCall s.vkx s.term)
  | .vPair => some (pairCall s.cfg.pairLayout (g1Args s) (g2Args s))
  | .idle => none
  | .exec => none
  | .vLen => none
  | .vRange => none
  | .vLcinit => none
  | .vNeg => none

/-- The engine port holds the current phase's request and nothing else (42_engine_interface.md R190, 20_memory.md R77). -/
abbrev portLegal (s : State) : Prop :=
  (s.status.waiteng = true → phaseCall s = some ⟨s.reqSel, s.reqPayload⟩) ∧
    (s.rspValid = true → s.status.waiteng = true ∧ s.rsp = engineOf s.cfg ⟨s.reqSel, s.reqPayload⟩)

/-- The machine's invariant. -/
abbrev Inv (s : State) : Prop :=
  Config.wf s.cfg ∧ lengthsLegal s ∧ memoriesWf s ∧ statusLegal s ∧ commandLegal s ∧ verifyLegal s ∧ blockWritten s ∧
    portLegal s

/-- `n` steps. -/
abbrev run (n : Nat) (s : State) : Host.Outcome State Fault Refusal := Sys2Proof.core.run n s

/-- The request a step issues: WAITENG is clear before it and set after it (42_engine_interface.md R190). -/
def issued (s t : State) : List EngineCall :=
  if !s.status.waiteng && t.status.waiteng then [⟨t.reqSel, t.reqPayload⟩] else []

/-- The requests issued in `n` steps, in order. -/
def requests : Nat → State → List EngineCall
  | 0, _ => []
  | n + 1, s =>
    match step s with
    | .next t => issued s t ++ requests n t
    | .fault _ => []
    | .refused _ => []

/-- A host line that starts no command: anything but a write of CTRL (30_encoding.md R111). -/
def startsNothing : HostOp → Bool
  | .rd _ => true
  | .wait => true
  | .wr addr _ => decide (addr ≠ Reg.base .ctrl)

/-- Bytes `k` to `k + n` of a register are all written (10_state.md R47). -/
def bytesWritten (s : State) (r : Reg) (k n : Nat) : Prop :=
  ∀ o, r.base + k ≤ o → o < r.base + k + n → s.written.read o = 1

/-- Every operand a list names is written. -/
def operandsWritten (s : State) (ops : List Operand) : Prop := ∀ o ∈ ops, bytesWritten s o.reg o.first o.len

/-- Between two states the written marks differ only by `n` bytes of a register from byte `k` on, which are now marked
(10_state.md R47). -/
def nowWritten (r : Reg) (k n : Nat) (s t : State) : Prop :=
  ∀ o, t.written.read o = if r.base + k ≤ o ∧ o < r.base + k + n then 1 else s.written.read o

/-- COUT[0..COUTLEN) (10_state.md R44). -/
def coutContent (s : State) : List Byte := s.cout.readBytes 0 s.coutlen.toNat

/-- STATUS after a normal completion (30_encoding.md R112). -/
def completedStatus (st : Status) : Status := { st with busy := false, done := true, waiteng := false }

/-- STATUS after an error completion (60_exceptions.md R276). -/
def erroredStatus (e : ErrorClass) (st : Status) : Status :=
  { st with err := e, valid := false, waiteng := false, busy := false, done := true }

/-- The state an error completion leaves, field by field as 60_exceptions.md R276 lists them. -/
def errorState (e : ErrorClass) (info : Word) (s : State) : State :=
  { s with status := erroredStatus e s.status, errinfo := info, rspValid := false, phase := .idle }

/-- Where a byte-producing command puts its result: at COUTLEN when it appends, at 0 when it replaces
(40_bytecodec.md R135). -/
def coutStart (append : Bool) (s : State) : Nat := if append then s.coutlen.toNat else 0

/-- An append of `n` bytes does not exceed COUT_CAP (40_bytecodec.md R135). -/
def fitsCout (append : Bool) (n : Nat) (s : State) : Prop := append = true → s.coutlen.toNat + n ≤ Config.coutCap

/-- `t` is `s` after `putCOUT(r)` and the normal completion (40_bytecodec.md R135, 30_encoding.md R112): the bytes stand
in COUT from the start on, COUTLEN is their end, every other byte of COUT is as before, these bytes and COUTLEN are now
written, and nothing else changes but STATUS and PHASE. -/
def producedBytes (append : Bool) (r : List Byte) (s t : State) : Prop :=
  t.coutlen.toNat = coutStart append s + r.length ∧
    t.cout.readBytes (coutStart append s) r.length = r ∧
    (∀ j, j < coutStart append s ∨ coutStart append s + r.length ≤ j → t.cout.read j = s.cout.read j) ∧
    (∀ o, t.written.read o =
      if (0x0014 ≤ o ∧ o < 0x0018) ∨ (0x0400 + coutStart append s ≤ o ∧ o < 0x0400 + coutStart append s + r.length) then 1
      else s.written.read o) ∧
    t.status = completedStatus s.status ∧ t.phase = .idle ∧
    t = { s with cout := t.cout, coutlen := t.coutlen, written := t.written, status := t.status, phase := t.phase }

/-- What a byte-producing command does with its result (40_bytecodec.md R135): CapacityError where an append does not
fit, and otherwise the bytes are produced. -/
def putsCout (append : Bool) (r : List Byte) (s : State) (out : Host.Outcome State Fault Refusal) : Prop :=
  (fitsCout append r.length s → ∃ t, out = .next t ∧ producedBytes append r s t) ∧
    (¬ fitsCout append r.length s → out = .next (errorState .capacityError (errinfoOf s) s))

/-- The opcodes that are not reserved (30_encoding.md R97, R100). -/
def opcodes : List Byte := [0x01, 0x02, 0x03, 0x04, 0x08, 0x09, 0x0A, 0x0B, 0x0C, 0x10, 0x20]

/-- The width clause of 30_encoding.md R101: 1 to 128 for ENCFIX, and 0 otherwise. -/
abbrev legalWidth (w : Word) : Prop :=
  if w.extractLsb' 0 8 = (0x02 : Byte) then 1 ≤ (w.extractLsb' 8 8).toNat ∧ (w.extractLsb' 8 8).toNat ≤ 128
  else w.extractLsb' 8 8 = (0 : Byte)

/-- The legality of a command word, in the words of 30_encoding.md R101. -/
abbrev legalWord (w : Word) : Prop :=
  w.extractLsb' 17 15 = 0 ∧ w.extractLsb' 0 8 ∈ opcodes ∧ legalWidth w ∧
    (w.extractLsb' 0 8 ∈ ([0x03, 0x08, 0x0A, 0x10, 0x20] : List Byte) → w.getLsbD 16 = false)

/-- A command word by its fields: `(A << 16) | (W << 8) | OPC` (30_encoding.md R107). -/
def commandWord (append width opc : Nat) : Word := BitVec.ofNat 32 (append * 2 ^ 16 + width * 2 ^ 8 + opc)

/-- A register the host writes as plain data (20_memory.md R65, R80). -/
def Reg.isData : Reg → Bool
  | .a => true
  | .b => true
  | .c => true
  | .p => true
  | .q => true
  | .v => true
  | .cin => true
  | .pub => true
  | .ctrl => false
  | .status => false
  | .errinfo => false
  | .npub => false
  | .cinlen => false
  | .coutlen => false
  | .phase => false
  | .idx => false
  | .nic => false
  | .npubmax => false
  | .vkver => false
  | .nega => false
  | .vkx => false
  | .term => false
  | .cout => false
  | .alfa1 => false
  | .beta2 => false
  | .gamma2 => false
  | .delta2 => false
  | .ic => false

/-- `s` with other contents in every register of the verifier that the codec commands have no business with
(43_verifier.md R238). -/
def withVerifierRegs (a : G1) (b : G2) (c : G1) (pub : Vector Field 64) (npub : Word) (vkx term nega : G1) (s : State) :
    State :=
  { s with a := a, b := b, c := c, pub := pub, npub := npub, vkx := vkx, term := term, nega := nega }

/-- `s` with other contents in every register of the codec that VERIFY has no business with (43_verifier.md R238). -/
def withCodecRegs (p : G1) (q : G2) (v : WideInt) (cin cout : Memory) (cinlen coutlen : Word) (s : State) : State :=
  { s with p := p, q := q, v := v, cin := cin, cout := cout, cinlen := cinlen, coutlen := coutlen }

/-- An outcome with its state changed. -/
def mapNext (f : State → State) : Host.Outcome State Fault Refusal → Host.Outcome State Fault Refusal
  | .next t => .next (f t)
  | .fault r => .fault r
  | .refused r => .refused r

end Sys2Proof.Machine
end

