-- ==== Sys2Proof/Certificates/Slice0/Obligations.lean ====
section
/-! DEFINITION. The statements for the provers. A clause that rests on a choice of the model, and on no rule of the spec,
names its log entry. -/

open Sys2Proof Sys2Proof.Machine

/-! ## Encodings -/

/-- Decoding an encoded well-formed instruction gives it back: no bit of an encoding is dropped (30_encoding.md R96, R97,
R105, R107). -/
def Obligations.DecodeOfEncode : Prop :=
  ∀ i : Instr, i.wellFormed = true → decode (encode i) = .instr i

/-- Bytes that decode are exactly the encoding of a well-formed instruction, so no two words mean one instruction and
nothing outside the opcode map decodes (30_encoding.md R97 to R104). -/
def Obligations.EncodeOfDecode : Prop :=
  ∀ (bs : List Byte) (i : Instr), decode bs = .instr i → i.wellFormed = true ∧ encode i = bs

/-- A word decodes iff it is legal in the words of R101, and the reason it does not is the first clause that fails
(30_encoding.md R101: "checked in this order"). -/
def Obligations.DecodesIffLegal : Prop :=
  ∀ w : Word,
    ((∃ i, decode (wordBytes w) = .instr i) ↔ legalWord w) ∧
    (w.extractLsb' 17 15 ≠ 0 → decode (wordBytes w) = .reject .reservedBits) ∧
    (w.extractLsb' 17 15 = 0 → w.extractLsb' 0 8 ∉ opcodes → decode (wordBytes w) = .reject .reservedOpcode) ∧
    (w.extractLsb' 17 15 = 0 → w.extractLsb' 0 8 ∈ opcodes → ¬ legalWidth w →
      decode (wordBytes w) = .reject .badWidth) ∧
    (w.extractLsb' 17 15 = 0 → w.extractLsb' 0 8 ∈ opcodes → legalWidth w → ¬ legalWord w →
      decode (wordBytes w) = .reject .badAppend)

/-- Sample words of 30_encoding.md R107, 95_test_vectors.md section 5 and the selectors of R105 decode as written there. -/
def Obligations.SampleWordsDecode : Prop :=
  decode [0x00, 0x00, 0x00, 0x01] = .instr (.strip false) ∧
    decode [0x00, 0x01, 0x00, 0x01] = .instr (.strip true) ∧
    decode [0x00, 0x00, 0x20, 0x02] = .instr (.encfix false 32) ∧
    decode [0x00, 0x01, 0x01, 0x02] = .instr (.encfix true 1) ∧
    decode [0x00, 0x00, 0x00, 0x0A] = .instr .g1dec ∧
    decode [0x00, 0x01, 0x00, 0x0C] = .instr (.g2enc true) ∧
    decode [0x00, 0x00, 0x00, 0x10] = .instr .neg ∧
    decode [0x00, 0x00, 0x00, 0x20] = .instr .verify ∧
    decode [0x00, 0x00, 0x81, 0x02] = .reject .badWidth ∧
    decode [0x00, 0x01, 0x00, 0x20] = .reject .badAppend ∧
    decode [0x00, 0x00, 0x00, 0x0D] = .reject .reservedOpcode ∧
    decode [0x80, 0x00, 0x00, 0x20] = .reject .reservedBits ∧
    decode [0x02] = .instr .engSmul

/-! ## Codec functions -/

/-- The codec laws (a) to (e) of 40_bytecodec.md R140. -/
def Obligations.CodecLaws : Prop :=
  (∀ v : Nat, v < 2 ^ 256 → ∃ r, encodeFixed v 32 = some r ∧ unbe r = v) ∧
    (∀ bs : List Byte, 1 ≤ bs.length → encodeFixed (unbe bs) bs.length = some bs) ∧
    (∀ (v w : Nat) (r : List Byte), 1 ≤ w → minlen v ≤ w → encodeFixed v w = some r →
      encodeFixed v (minlen v) = some (strip r)) ∧
    (∀ bs : List Byte, 1 ≤ bs.length → unbe (strip bs) = unbe bs) ∧
    (∀ (v w : Nat) (r : List Byte), 1 ≤ w → encodeFixed v w = some r → r.length = w)

/-- `encode_fixed` fails iff the value's minimal length exceeds the width, that is iff it is at least 256^w, and
otherwise gives the w bytes of R133. -/
def Obligations.EncodeFixedBytes : Prop :=
  ∀ v w : Nat, 1 ≤ w →
    (minlen v > w ↔ 256 ^ w ≤ v) ∧
    (minlen v > w → encodeFixed v w = none) ∧
    (minlen v ≤ w → ∃ r, encodeFixed v w = some r ∧ r.length = w ∧
      ∀ k, k < w → (r.getD k 0).toNat = (v >>> (8 * (w - 1 - k))) % 256)

/-- `minlen(0) = 1`, `minlen(v)` is the least n ≥ 1 with v < 256^n, and it is the length of the stripped encoding
(40_bytecodec.md R132). -/
def Obligations.MinimalLength : Prop :=
  minlen 0 = 1 ∧
    (∀ v : Nat, 0 < v → 1 ≤ minlen v ∧ v < 256 ^ minlen v ∧ ∀ n, 1 ≤ n → v < 256 ^ n → minlen v ≤ n) ∧
    (∀ v n : Nat, 1 ≤ n → v < 256 ^ n → minlen v = (strip (be v n)).length)

/-- `strip` drops the bytes before the first nonzero one, gives one zero byte where there is none, and STRIP refuses the
empty sequence (40_bytecodec.md R130), its operands being written (otherwise: UnwrittenOperandFault, log 12). -/
def Obligations.StripDropsLeadingZeros : Prop :=
  (∀ (bs : List Byte) (k : Nat), k < bs.length → bs.getD k 0 ≠ 0 → (∀ j, j < k → bs.getD j 0 = 0) →
      strip bs = bs.drop k) ∧
    (∀ bs : List Byte, 1 ≤ bs.length → (∀ j, j < bs.length → bs.getD j 0 = 0) → strip bs = [0]) ∧
    (∀ (append : Bool) (s : State), operandsWritten s (commandReads s (.strip append)) → s.cinlen = 0 →
      exec (.strip append) s = .next (errorState .emptyInput (errinfoOf s) s))

/-- `unbe` is the positional sum, to which a leading zero byte adds nothing, below 256^|bs|, and 0 for the empty sequence
(40_bytecodec.md R131). -/
def Obligations.BigEndianValue : Prop :=
  (∀ bs : List Byte, unbe bs = ∑ k ∈ Finset.range bs.length, (bs.getD k 0).toNat * 256 ^ (bs.length - 1 - k)) ∧
    (∀ bs : List Byte, unbe (0 :: bs) = unbe bs) ∧ (∀ bs : List Byte, unbe bs < 256 ^ bs.length) ∧ unbe [] = 0

/-- The point-codec laws (a) to (c) of 41_pointcodec.md R171. -/
def Obligations.PointCodecLaws : Prop :=
  (∀ p : G1, g1decode (enc1 p) = some p) ∧
    (∀ v : Nat, v < 2 ^ 256 → ∃ r, encodeFixed v 32 = some r ∧ sdecode r = some v) ∧
    (∀ bs : List Byte, bs.length ≠ 32 → sdecode bs = none) ∧
    (∀ bs : List Byte, bs.length ≠ 64 → g1decode bs = none)

/-! ## Commands: what each does in every state, when it completes, and what it leaves alone

Each is stated for written operands. That a command whose operands are not all written stops, whatever else it would do, is
UnwrittenOperandFault. -/

/-- STRIP (40_bytecodec.md R136), with its corner cases. -/
def Obligations.StripRule : Prop :=
  decode (wordBytes 0x00000001) = .instr (.strip false) ∧
  decode (wordBytes 0x00010001) = .instr (.strip true) ∧
  ∀ (append : Bool) (s : State), operandsWritten s (commandReads s (.strip append)) →
    (s.cinlen = 0 → exec (.strip append) s = .next (errorState .emptyInput (errinfoOf s) s)) ∧
    (s.cinlen ≠ 0 → putsCout append (strip (cinContent s)) s (exec (.strip append) s)) ∧
    ((cinContent s).getD 0 0 ≠ 0 → strip (cinContent s) = cinContent s) ∧
    (s.cinlen ≠ 0 → (∀ j, j < s.cinlen.toNat → (cinContent s).getD j 0 = 0) → strip (cinContent s) = [0])

/-- ENCFIX (40_bytecodec.md R137): EncodingError before CapacityError, and W = 0 or W > 128 is no ENCFIX. -/
def Obligations.EncfixRule : Prop :=
  (∀ w : Nat, 1 ≤ w → w ≤ 128 →
    decode (wordBytes (commandWord 0 w 2)) = .instr (.encfix false (BitVec.ofNat 8 w)) ∧
    decode (wordBytes (commandWord 1 w 2)) = .instr (.encfix true (BitVec.ofNat 8 w))) ∧
  (∀ a w : Nat, a ≤ 1 → (w = 0 ∨ 128 < w ∧ w ≤ 255) → decode (wordBytes (commandWord a w 2)) = .reject .badWidth) ∧
  ∀ (append : Bool) (width : Byte) (s : State), 1 ≤ width.toNat → width.toNat ≤ 128 →
    operandsWritten s (commandReads s (.encfix append width)) →
    (256 ^ width.toNat ≤ s.v.toNat →
      exec (.encfix append width) s = .next (errorState .encodingError (errinfoOf s) s)) ∧
    (s.v.toNat < 256 ^ width.toNat →
      putsCout append (be s.v.toNat width.toNat) s (exec (.encfix append width) s))

/-- DECUINT (40_bytecodec.md R138), for the legal values of CINLEN (10_state.md R27). -/
def Obligations.DecuintRule : Prop :=
  decode (wordBytes 0x00000003) = .instr .decuint ∧
  ∀ s : State, s.cinlen.toNat ≤ 128 → operandsWritten s (commandReads s .decuint) → ∃ t, exec .decuint s = .next t ∧
    t.v.toNat = unbe (cinContent s) ∧ nowWritten .v 0 128 s t ∧
    t.status = completedStatus s.status ∧ t.phase = .idle ∧
    t = { s with v := t.v, written := t.written, status := t.status, phase := t.phase }

/-- CONCAT (40_bytecodec.md R139). -/
def Obligations.ConcatRule : Prop :=
  decode (wordBytes 0x00000004) = .instr (.concat false) ∧
  decode (wordBytes 0x00010004) = .instr (.concat true) ∧
  ∀ (append : Bool) (s : State), operandsWritten s (commandReads s (.concat append)) →
    putsCout append (cinContent s) s (exec (.concat append) s)

/-- SDEC (41_pointcodec.md R166). -/
def Obligations.SdecRule : Prop :=
  decode (wordBytes 0x00000008) = .instr .sdec ∧
  ∀ s : State, operandsWritten s (commandReads s .sdec) →
    (s.cinlen ≠ 32 → exec .sdec s = .next (errorState .formatError (errinfoOf s) s)) ∧
    (s.cinlen = 32 → ∃ t, exec .sdec s = .next t ∧
      t.v.toNat = unbe (cinContent s) ∧ nowWritten .v 0 128 s t ∧
      t.status = completedStatus s.status ∧ t.phase = .idle ∧
      t = { s with v := t.v, written := t.written, status := t.status, phase := t.phase })

/-- SENC (41_pointcodec.md R167): EncodingError before CapacityError, and SENC is ENCFIX 32. -/
def Obligations.SencRule : Prop :=
  decode (wordBytes 0x00000009) = .instr (.senc false) ∧
  decode (wordBytes 0x00010009) = .instr (.senc true) ∧
  (∀ (append : Bool) (s : State), operandsWritten s (commandReads s (.senc append)) →
    (2 ^ 256 ≤ s.v.toNat → exec (.senc append) s = .next (errorState .encodingError (errinfoOf s) s)) ∧
    (s.v.toNat < 2 ^ 256 → putsCout append (be s.v.toNat 32) s (exec (.senc append) s))) ∧
  ∀ (append : Bool) (s : State), exec (.senc append) s = exec (.encfix append 32) s

/-- G1DEC (41_pointcodec.md R168). -/
def Obligations.G1decRule : Prop :=
  decode (wordBytes 0x0000000A) = .instr .g1dec ∧
  ∀ s : State, operandsWritten s (commandReads s .g1dec) →
    (s.cinlen ≠ 64 → exec .g1dec s = .next (errorState .formatError (errinfoOf s) s)) ∧
    (s.cinlen = 64 → ∃ t, exec .g1dec s = .next t ∧
      t.p.x.toNat = unbe ((cinContent s).take 32) ∧ t.p.y.toNat = unbe ((cinContent s).drop 32) ∧
      nowWritten .p 0 64 s t ∧ t.status = completedStatus s.status ∧ t.phase = .idle ∧
      t = { s with p := t.p, written := t.written, status := t.status, phase := t.phase })

/-- G1ENC (41_pointcodec.md R169), and its output is P's window image. -/
def Obligations.G1encRule : Prop :=
  decode (wordBytes 0x0000000B) = .instr (.g1enc false) ∧
  decode (wordBytes 0x0001000B) = .instr (.g1enc true) ∧
  (∀ (append : Bool) (s : State), operandsWritten s (commandReads s (.g1enc append)) →
    putsCout append (be s.p.x.toNat 32 ++ be s.p.y.toNat 32) s (exec (.g1enc append) s)) ∧
  ∀ (s : State) (k : Nat), k < 64 →
    (be s.p.x.toNat 32 ++ be s.p.y.toNat 32).getD k 0 = windowByte s (0x0200 + k)

/-- G2ENC (41_pointcodec.md R170): the imaginary coordinate of each component first. -/
def Obligations.G2encRule : Prop :=
  decode (wordBytes 0x0000000C) = .instr (.g2enc false) ∧
  decode (wordBytes 0x0001000C) = .instr (.g2enc true) ∧
  ∀ (append : Bool) (s : State), operandsWritten s (commandReads s (.g2enc append)) →
    putsCout append
      (be s.q.xIm.toNat 32 ++ be s.q.xRe.toNat 32 ++ be s.q.yIm.toNat 32 ++ be s.q.yRe.toNat 32)
      s (exec (.g2enc append) s)

/-- NEG (43_verifier.md R220, R221): (0, 0) is unchanged, every other P keeps x and takes y = BASE_P − (y mod BASE_P),
which lies in [1, BASE_P]. -/
def Obligations.NegRule : Prop :=
  decode (wordBytes 0x00000010) = .instr .neg ∧
  ∀ s : State, Config.wf s.cfg → operandsWritten s (commandReads s .neg) → ∃ t, exec .neg s = .next t ∧
    (s.p = ⟨0, 0⟩ → t.p = ⟨0, 0⟩) ∧
    (s.p ≠ ⟨0, 0⟩ → t.p.x = s.p.x ∧ t.p.y.toNat = s.cfg.baseP - s.p.y.toNat % s.cfg.baseP ∧
      1 ≤ t.p.y.toNat ∧ t.p.y.toNat ≤ s.cfg.baseP) ∧
    nowWritten .p 0 64 s t ∧ t.status = completedStatus s.status ∧ t.phase = .idle ∧
    t = { s with p := t.p, written := t.written, status := t.status, phase := t.phase }

/-- `negate` (43_verifier.md R220): (0, 0) is its own negation, every other point keeps x and takes
y = BASE_P − (y mod BASE_P), which lies in [1, BASE_P]. -/
def Obligations.NegateValue : Prop :=
  ∀ (baseP : Nat) (p : G1), 2 < baseP → baseP < 2 ^ 256 →
    (p = ⟨0, 0⟩ → negate baseP p = ⟨0, 0⟩) ∧
    (p ≠ ⟨0, 0⟩ → (negate baseP p).x = p.x ∧ (negate baseP p).y.toNat = baseP - p.y.toNat % baseP ∧
      1 ≤ (negate baseP p).y.toNat ∧ (negate baseP p).y.toNat ≤ baseP)

/-- Two negations restore P iff P = (0, 0) or 1 ≤ P.y ≤ BASE_P. R221 says "iff P = (0, 0) or 1 ≤ P.y ≤ BASE_P - 1", which
its own corner case P = (x, BASE_P) contradicts: the formula of R220 leaves that P as it is (log 15). -/
def Obligations.DoubleNegation : Prop :=
  ∀ (baseP : Nat) (p : G1), 2 < baseP → baseP < 2 ^ 256 →
    (negate baseP (negate baseP p) = p ↔ p = ⟨0, 0⟩ ∨ (1 ≤ p.y.toNat ∧ p.y.toNat ≤ baseP))

/-- Appending (40_bytecodec.md R134, R135, 70_reset_and_hazards.md R319): `putCOUT` replaces COUT's content or extends it,
so a replacing result and two appended ones, with anything in between that leaves COUT and COUTLEN alone, leave their
concatenation. A command start does leave them alone, and so CONCAT and then CONCAT.A of one input leave it twice. -/
def Obligations.AppendConcatenates : Prop :=
  (∀ (r : List Byte) (s : State), r.length ≤ 768 → coutContent (putCout false r s) = r) ∧
  (∀ (r : List Byte) (s : State), s.coutlen.toNat + r.length ≤ 768 →
    coutContent (putCout true r s) = coutContent s ++ r) ∧
  (∀ (x y z : List Byte) (s1 s2 s3 : State), x.length + y.length + z.length ≤ 768 →
    s2.cout = (putCout false x s1).cout → s2.coutlen = (putCout false x s1).coutlen →
    s3.cout = (putCout true y s2).cout → s3.coutlen = (putCout true y s2).coutlen →
    coutContent (putCout true z s3) = x ++ y ++ z) ∧
  (∀ (w : Word) (s : State), (startCommand w s).cout = s.cout ∧ (startCommand w s).coutlen = s.coutlen) ∧
  (∀ s : State, s.cinlen.toNat ≤ 128 → operandsWritten s (commandReads s (.concat false)) →
    ∃ t u, exec (.concat false) s = .next t ∧ exec (.concat true) (startCommand 0x00010004 t) = .next u ∧
    coutContent u = cinContent s ++ cinContent s ∧ u.coutlen.toNat = 2 * s.cinlen.toNat ∧ u.status.err = .none)

/-! ## VERIFY: the phases

Each is stated for written operands. Where a phase stops is StopsOfVerify. -/

/-- V_LEN (43_verifier.md R227), NPUB being written (70_reset_and_hazards.md R314; otherwise: StopsOfVerify, log 12). IDX is
0 there after a command start (30_encoding.md R111). -/
def Obligations.LengthPhase : Prop :=
  ∀ s : State, s.phase = .vLen → bytesWritten s .npub 0 4 →
    (s.npub.toNat + 1 ≠ s.cfg.vk.ic.length →
      exec .verify s = .next (errorState .inputLengthMismatch (0x1000 ||| s.idx.setWidth 32) s)) ∧
    (s.npub.toNat + 1 ≠ s.cfg.vk.ic.length → s.idx = 0 →
      exec .verify s = .next (errorState .inputLengthMismatch 0x1000 s)) ∧
    (s.npub.toNat + 1 = s.cfg.vk.ic.length → exec .verify s = .next { s with idx := 0, phase := .vRange })

/-- V_RANGE (43_verifier.md R228): each input by its own value, in ascending order, the least failing index in ERRINFO,
PUB[IDX] being written (otherwise: StopsOfVerify, log 12). -/
def Obligations.RangePhase : Prop :=
  ∀ s : State, s.phase = .vRange →
    (s.idx.toNat = s.npub.toNat → exec .verify s = .next { s with phase := .vLcinit }) ∧
    (s.idx.toNat ≠ s.npub.toNat → bytesWritten s .pub (32 * s.idx.toNat) 32 → ∀ f, s.pub[s.idx.toNat]? = some f →
      (s.cfg.scalarR ≤ f.toNat →
        exec .verify s = .next (errorState .scalarFieldOverflow (0x1100 ||| s.idx.setWidth 32) s)) ∧
      (f.toNat < s.cfg.scalarR → exec .verify s = .next { s with idx := s.idx + 1 }))

/-- V_LCINIT (43_verifier.md R230). -/
def Obligations.AccumulatorInitPhase : Prop :=
  ∀ s : State, s.phase = .vLcinit → ∀ p, s.cfg.vk.ic[0]? = some p → ∃ t, exec .verify s = .next t ∧
    t.vkx = p ∧ t.idx = 0 ∧ t.phase = (if 0 < s.npub.toNat then .vSmul else .vNeg) ∧ nowWritten .vkx 0 64 s t ∧
    t = { s with vkx := t.vkx, idx := t.idx, phase := t.phase, written := t.written }

/-- V_SMUL (43_verifier.md R231, 42_engine_interface.md R193, R198): the issue step requests the product of IC[IDX+1] by
its own input PUB[IDX], which is written (otherwise: StopsOfVerify, log 12), and the consume step reads the response.
While the engine has not answered, the sequencer has no step (R190, R226). -/
def Obligations.ScalarMulPhase : Prop :=
  ∀ s : State, s.phase = .vSmul →
    (s.status.waiteng = false → bytesWritten s .pub (32 * s.idx.toNat) 32 →
      ∀ p k, s.cfg.vk.ic[s.idx.toNat + 1]? = some p → s.pub[s.idx.toNat]? = some k → exec .verify s = .next { s with
        reqSel := 0x02
        reqPayload := be p.x.toNat 32 ++ be p.y.toNat 32 ++ be k.toNat 32
        rspValid := false
        status := { s.status with waiteng := true } }) ∧
    (s.status.waiteng = true → s.rspValid = false → exec .verify s = .next s) ∧
    (s.status.waiteng = true → s.rspValid = true →
      (s.rsp = .err →
        exec .verify s = .next (errorState .providerError (0x1300 ||| s.idx.setWidth 32) s)) ∧
      (∀ bs, s.rsp = .ok bs → bs.length ≠ 64 →
        exec .verify s = .next (errorState .formatError (0x1300 ||| s.idx.setWidth 32) s)) ∧
      (∀ bs, s.rsp = .ok bs → bs.length = 64 → ∃ t, exec .verify s = .next t ∧
        t.term.x.toNat = unbe (bs.take 32) ∧ t.term.y.toNat = unbe (bs.drop 32) ∧ t.phase = .vAdd ∧
        t.status = { s.status with waiteng := false } ∧ t.rspValid = false ∧ nowWritten .term 0 64 s t ∧
        t = { s with term := t.term, phase := t.phase, status := t.status, rspValid := t.rspValid,
                     written := t.written }))

/-- V_ADD (43_verifier.md R232, 42_engine_interface.md R192, R198): the accumulator first, the term second, VKX and TERM
being written (otherwise: StopsOfVerify, log 12; in a run they always are, 10_state.md R48). -/
def Obligations.AccumulatePhase : Prop :=
  ∀ s : State, s.phase = .vAdd →
    (s.status.waiteng = false → bytesWritten s .vkx 0 64 → bytesWritten s .term 0 64 →
      exec .verify s = .next { s with
        reqSel := 0x01
        reqPayload := be s.vkx.x.toNat 32 ++ be s.vkx.y.toNat 32 ++
          (be s.term.x.toNat 32 ++ be s.term.y.toNat 32)
        rspValid := false
        status := { s.status with waiteng := true } }) ∧
    (s.status.waiteng = true → s.rspValid = false → exec .verify s = .next s) ∧
    (s.status.waiteng = true → s.rspValid = true →
      (s.rsp = .err →
        exec .verify s = .next (errorState .providerError (0x1400 ||| s.idx.setWidth 32) s)) ∧
      (∀ bs, s.rsp = .ok bs → bs.length ≠ 64 →
        exec .verify s = .next (errorState .formatError (0x1400 ||| s.idx.setWidth 32) s)) ∧
      (∀ bs, s.rsp = .ok bs → bs.length = 64 → ∃ t, exec .verify s = .next t ∧
        t.vkx.x.toNat = unbe (bs.take 32) ∧ t.vkx.y.toNat = unbe (bs.drop 32) ∧
        (s.idx.toNat + 1 < s.npub.toNat → t.idx = s.idx + 1 ∧ t.phase = .vSmul) ∧
        (¬ s.idx.toNat + 1 < s.npub.toNat → t.idx = s.idx ∧ t.phase = .vNeg) ∧
        t.status = { s.status with waiteng := false } ∧ t.rspValid = false ∧ nowWritten .vkx 0 64 s t ∧
        t = { s with vkx := t.vkx, idx := t.idx, phase := t.phase, status := t.status, rspValid := t.rspValid,
                     written := t.written }))

/-- V_NEG (43_verifier.md R233, with the negation of R220), A being written (otherwise: StopsOfVerify, log 12). -/
def Obligations.NegatePhase : Prop :=
  ∀ s : State, s.phase = .vNeg → Config.wf s.cfg → bytesWritten s .a 0 64 → ∃ t, exec .verify s = .next t ∧
    (s.a = ⟨0, 0⟩ → t.nega = ⟨0, 0⟩) ∧
    (s.a ≠ ⟨0, 0⟩ → t.nega.x = s.a.x ∧
      t.nega.y.toNat = s.cfg.baseP - s.a.y.toNat % s.cfg.baseP) ∧
    t.phase = .vPair ∧ nowWritten .nega 0 64 s t ∧
    t = { s with nega := t.nega, phase := t.phase, written := t.written }

/-- V_PAIR, issue (43_verifier.md R234, 42_engine_interface.md R194, R195): the four pairs in order, in either layout,
and the precheck never fails (R197, R277), NEGA, B, VKX and C being written (otherwise: StopsOfVerify,
log 12). -/
def Obligations.PairingRequest : Prop :=
  ∀ s : State, s.phase = .vPair → s.status.waiteng = false → bytesWritten s .nega 0 64 → bytesWritten s .b 0 128 →
    bytesWritten s .vkx 0 64 → bytesWritten s .c 0 64 → ∃ t, exec .verify s = .next t ∧ t.reqSel = 0x03 ∧
    (s.cfg.pairLayout = .interleaved → t.reqPayload =
      enc1 (s.nega) ++ enc2 s.b ++ enc1 s.cfg.vk.alfa1 ++ enc2 s.cfg.vk.beta2 ++
        enc1 s.vkx ++ enc2 s.cfg.vk.gamma2 ++ enc1 s.c ++ enc2 s.cfg.vk.delta2) ∧
    (s.cfg.pairLayout = .split → t.reqPayload =
      enc1 (s.nega) ++ enc1 s.cfg.vk.alfa1 ++ enc1 s.vkx ++ enc1 s.c ++
        (enc2 s.b ++ enc2 s.cfg.vk.beta2 ++ enc2 s.cfg.vk.gamma2 ++ enc2 s.cfg.vk.delta2)) ∧
    t.reqPayload.length = 768 ∧ t.rspValid = false ∧ t.status = { s.status with waiteng := true } ∧
    t = { s with
          reqSel := t.reqSel, reqPayload := t.reqPayload, rspValid := t.rspValid, status := t.status }

/-- V_PAIR, consume (43_verifier.md R235, 42_engine_interface.md R199): 32 bytes of value 1 are Valid, 32 bytes of value
0 are Invalid, and every other response is ProviderError. -/
def Obligations.PairingVerdict : Prop :=
  ∀ s : State, s.phase = .vPair → s.status.waiteng = true →
    (s.rspValid = false → exec .verify s = .next s) ∧
    (s.rspValid = true →
      (∀ bs, s.rsp = .ok bs → bs.length = 32 → unbe bs = 1 → exec .verify s = .next { s with
        status := { s.status with valid := true, busy := false, done := true, waiteng := false }
        rspValid := false
        phase := .idle }) ∧
      (∀ bs, s.rsp = .ok bs → bs.length = 32 → unbe bs = 0 → exec .verify s = .next { s with
        status := { s.status with valid := false, busy := false, done := true, waiteng := false }
        rspValid := false
        phase := .idle }) ∧
      (∀ bs, s.rsp = .ok bs → ¬ (bs.length = 32 ∧ (unbe bs = 1 ∨ unbe bs = 0)) →
        exec .verify s = .next (errorState .providerError (0x1600 ||| s.idx.setWidth 32) s)) ∧
      (s.rsp = .err → exec .verify s = .next (errorState .providerError (0x1600 ||| s.idx.setWidth 32) s)))

/-- Where VERIFY stops, and that it does nowhere else. An unwritten operand is UnwrittenOperand, raised by the phase that
first reads it (43_verifier.md R223, 60_exceptions.md R282). The order in which one phase looks at several registers,
that V_LEN is the phase which looks at NPUB, and that V_SMUL looks at PUB[IDX] again, is log 12. The other stops are the model's own choice (log 13), in states no run reaches: a PUB
or IC entry the block does not have, and VERIFY outside its phases. -/
def Obligations.StopsOfVerify : Prop :=
  (∀ s : State, s.phase = .vLen → ¬ bytesWritten s .npub 0 4 → exec .verify s = .fault (.unwrittenOperand .npub)) ∧
  (∀ s : State, s.phase = .vRange → s.idx.toNat ≠ s.npub.toNat → s.idx.toNat < 64 →
    ¬ bytesWritten s .pub (32 * s.idx.toNat) 32 → exec .verify s = .fault (.unwrittenOperand .pub)) ∧
  (∀ s : State, s.phase = .vSmul → s.status.waiteng = false → s.idx.toNat + 1 < s.cfg.vk.ic.length → s.idx.toNat < 64 →
    ¬ bytesWritten s .pub (32 * s.idx.toNat) 32 → exec .verify s = .fault (.unwrittenOperand .pub)) ∧
  (∀ s : State, s.phase = .vAdd → s.status.waiteng = false →
    (¬ bytesWritten s .vkx 0 64 → exec .verify s = .fault (.unwrittenOperand .vkx)) ∧
    (bytesWritten s .vkx 0 64 → ¬ bytesWritten s .term 0 64 → exec .verify s = .fault (.unwrittenOperand .term))) ∧
  (∀ s : State, s.phase = .vNeg → ¬ bytesWritten s .a 0 64 → exec .verify s = .fault (.unwrittenOperand .a)) ∧
  (∀ s : State, s.phase = .vPair → s.status.waiteng = false →
    (¬ bytesWritten s .nega 0 64 → exec .verify s = .fault (.unwrittenOperand .nega)) ∧
    (bytesWritten s .nega 0 64 → ¬ bytesWritten s .b 0 128 → exec .verify s = .fault (.unwrittenOperand .b)) ∧
    (bytesWritten s .nega 0 64 → bytesWritten s .b 0 128 → ¬ bytesWritten s .vkx 0 64 →
      exec .verify s = .fault (.unwrittenOperand .vkx)) ∧
    (bytesWritten s .nega 0 64 → bytesWritten s .b 0 128 → bytesWritten s .vkx 0 64 → ¬ bytesWritten s .c 0 64 →
      exec .verify s = .fault (.unwrittenOperand .c))) ∧
  (∀ s : State, s.phase = .vRange → s.idx.toNat ≠ s.npub.toNat → 64 ≤ s.idx.toNat →
    exec .verify s = .fault (.absentEntry .pub)) ∧
  (∀ s : State, s.phase = .vLcinit → s.cfg.vk.ic = [] → exec .verify s = .fault (.absentEntry .ic)) ∧
  (∀ s : State, s.phase = .vSmul → s.status.waiteng = false → s.cfg.vk.ic.length ≤ s.idx.toNat + 1 →
    exec .verify s = .fault (.absentEntry .ic)) ∧
  (∀ s : State, s.phase = .vSmul → s.status.waiteng = false → s.idx.toNat + 1 < s.cfg.vk.ic.length →
    64 ≤ s.idx.toNat → exec .verify s = .fault (.absentEntry .pub)) ∧
  (∀ s : State, s.phase = .idle ∨ s.phase = .exec → exec .verify s = .fault .noPhaseAction) ∧
  (∀ (s : State) (r : Reg), exec .verify s = .fault (.unwrittenOperand r) →
    r ∈ [Reg.npub, .pub, .vkx, .term, .a, .nega, .b, .c]) ∧
  (∀ s : State, s.phase.ofVerify = true →
    (∀ r, exec .verify s ≠ .fault (.unwrittenOperand r)) →
    (s.phase = .vRange → s.idx.toNat = s.npub.toNat ∨ s.idx.toNat < 64) →
    (s.phase = .vLcinit → s.cfg.vk.ic ≠ []) →
    (s.phase = .vSmul → s.status.waiteng = false → s.idx.toNat + 1 < s.cfg.vk.ic.length ∧ s.idx.toNat < 64) →
    ∃ t, exec .verify s = .next t)

/-- The phase graph of VERIFY (43_verifier.md R225): from a state that meets the invariant, a step of VERIFY leads along
an edge of the table or completes with an error. Between an issue step and the step that consumes the response, PHASE and
IDX stay. -/
def Obligations.PhaseGraph : Prop :=
  ∀ s t : State, Inv s → s.phase.ofVerify = true → exec .verify s = .next t →
    (t.phase = .idle ∧ t.status.err ≠ .none) ∨
    (t.phase = s.phase ∧ t.idx = s.idx ∧ t.status.waiteng = true ∧ s.phase ∈ [Phase.vSmul, .vAdd, .vPair]) ∨
    (s.phase = .vLen ∧ t.phase = .vRange) ∨
    (s.phase = .vRange ∧ s.idx.toNat < s.npub.toNat ∧ t.phase = .vRange ∧ t.idx.toNat = s.idx.toNat + 1) ∨
    (s.phase = .vRange ∧ s.idx.toNat = s.npub.toNat ∧ t.phase = .vLcinit) ∨
    (s.phase = .vLcinit ∧ 0 < s.npub.toNat ∧ t.phase = .vSmul) ∨
    (s.phase = .vLcinit ∧ s.npub.toNat = 0 ∧ t.phase = .vNeg) ∨
    (s.phase = .vSmul ∧ t.phase = .vAdd ∧ t.idx = s.idx) ∨
    (s.phase = .vAdd ∧ s.idx.toNat + 1 < s.npub.toNat ∧ t.phase = .vSmul ∧ t.idx.toNat = s.idx.toNat + 1) ∨
    (s.phase = .vAdd ∧ s.idx.toNat + 1 = s.npub.toNat ∧ t.phase = .vNeg) ∨
    (s.phase = .vNeg ∧ t.phase = .vPair) ∨
    (s.phase = .vPair ∧ t.phase = .idle ∧ t.status.done = true)

/-! ## The engine -/

/-- The answer step (42_engine_interface.md R190): RSP is ENGINE's response to the request, and nothing else changes.
Where it is not enabled a late response is discarded (R204). -/
def Obligations.EngineAnswers : Prop :=
  ∀ (i : Instr) (sel : Byte) (s : State),
    (i, sel) ∈ ([(.engAdd, 0x01), (.engSmul, 0x02), (.engPair, 0x03)] : List (Instr × Byte)) →
    (s.status.waiteng = true → s.rspValid = false →
      exec i s = .next { s with rsp := engineOf s.cfg ⟨sel, s.reqPayload⟩, rspValid := true }) ∧
    (¬ (s.status.waiteng = true ∧ s.rspValid = false) → exec i s = .next s)

/-- The requests, their sizes and the places of their arguments (42_engine_interface.md R192 to R196): 128, 96 and 192 bytes
a pair, in either layout. -/
def Obligations.RequestFormats : Prop :=
  (∀ p1 p2 : G1, (addCall p1 p2).sel = 0x01 ∧ (addCall p1 p2).payload.length = 128 ∧
    g1decode ((addCall p1 p2).payload.take 64) = some p1 ∧ g1decode ((addCall p1 p2).payload.drop 64) = some p2) ∧
  (∀ (p : G1) (k : Field), (smulCall p k).sel = 0x02 ∧ (smulCall p k).payload.length = 96 ∧
    g1decode ((smulCall p k).payload.take 64) = some p ∧ sdecode ((smulCall p k).payload.drop 64) = some k.toNat) ∧
  (∀ (layout : PairLayout) (g1s : List G1) (g2s : List G2), g1s.length = g2s.length →
    (pairCall layout g1s g2s).sel = 0x03 ∧ (pairCall layout g1s g2s).payload.length = 192 * g1s.length) ∧
  (∀ (g1s : List G1) (g2s : List G2) (k : Nat) (p : G1) (q : G2), g1s[k]? = some p → g2s[k]? = some q →
    ((pairCall .interleaved g1s g2s).payload.drop (192 * k)).take 192 = enc1 p ++ enc2 q ∧
    ((pairCall .split g1s g2s).payload.drop (64 * k)).take 64 = enc1 p ∧
    ((pairCall .split g1s g2s).payload.drop (64 * g1s.length + 128 * k)).take 128 = enc2 q)

/-! ## The machine -/

/-- The step of the sequencer runs the command in CTRL, or VERIFY in one of its phases, and the step of the engine
answers the request in the port (43_verifier.md R226, 42_engine_interface.md R190). What the step adds is the count of
log 4 and, where `turns` names the agent, taking its turn off the list (log 9). -/
def Obligations.StepRunsDecoded : Prop :=
  (∀ (s : State) (i : Instr), s.status.busy = true → s.phase = .exec →
    ¬ (s.status.waiteng = true ∧ s.rspValid = false) → decode (wordBytes s.ctrl) = .instr i →
    (s.turns = [] → step s = exec i (tick s)) ∧
    (∀ ts, s.turns = .sequencer :: ts → step s = exec i (tick { s with turns := ts }))) ∧
  (∀ s : State, s.status.busy = true → s.phase.ofVerify = true →
    ¬ (s.status.waiteng = true ∧ s.rspValid = false) →
    (s.turns = [] → step s = exec .verify (tick s)) ∧
    (∀ ts, s.turns = .sequencer :: ts → step s = exec .verify (tick { s with turns := ts }))) ∧
  (∀ (s : State) (i : Instr), s.status.waiteng = true → s.rspValid = false → s.cfg.engineAnswers = true →
    decode [s.reqSel] = .instr i →
    (s.turns = [] → step s = exec i (tick s)) ∧
    (∀ ts, s.turns = .engine :: ts → step s = exec i (tick { s with turns := ts })))

/-- The host's placing of an instruction makes the next step run it, for every well-formed instruction, and on written
operands: no command so placed stops (log 11). -/
def Obligations.PlacedInstructionRuns : Prop :=
  ∀ (i : Instr) (s : State), i.wellFormed = true →
    (∀ w : Word, encode i = wordBytes w →
      step (s.withFetchWord 32 w.toNat) = exec i (tick (s.withFetchWord 32 w.toNat)) ∧
      operandsWritten (s.withFetchWord 32 w.toNat) (commandReads (s.withFetchWord 32 w.toNat) i) ∧
      ∃ t, step (s.withFetchWord 32 w.toNat) = .next t) ∧
    (∀ sel : Byte, encode i = [sel] →
      step (s.withFetchWord 8 sel.toNat) = exec i (tick (s.withFetchWord 8 sel.toNat)) ∧
      ∃ t, step (s.withFetchWord 8 sel.toNat) = .next t)

/-- Command start (30_encoding.md R111) and IllegalCommand (60_exceptions.md R279): a write of CTRL while idle starts a
legal command and completes an illegal one at once with ERRINFO = 0, and while busy it is no start. -/
def Obligations.CommandStart : Prop :=
  ∀ (w : Word) (s : State),
    (s.status.busy = false → legalWord w → hostWrite 0x0000 w s = .next { s with
      ctrl := w
      status := ⟨true, false, false, false, false, .none, w.extractLsb' 0 8⟩
      errinfo := 0
      idx := 0
      phase := if w.extractLsb' 0 8 = (0x20 : Byte) then .vLen else .exec
      hostResp := .written }) ∧
    (s.status.busy = false → ¬ legalWord w → hostWrite 0x0000 w s = .next { s with
      ctrl := w
      status := ⟨false, true, false, false, false, .illegalCommand, w.extractLsb' 0 8⟩
      errinfo := 0
      idx := 0
      rspValid := false
      phase := .idle
      hostResp := .written }) ∧
    (s.status.busy = true → hostWrite 0x0000 w s = .next { s with
      status := { s.status with haz := true }
      hostResp := .written })

/-- Error completion (60_exceptions.md R276) and the codes of R271: which fields `raise` writes, and what they read as. -/
def Obligations.ErrorCompletion : Prop :=
  ∀ (e : ErrorClass) (info : Word) (s : State),
    raiseError e info s = errorState e info s ∧
    raiseHere e s = errorState e ((s.phase.code.setWidth 32 <<< 8) ||| s.idx.setWidth 32) s ∧
    (raiseError e info s).status.word.extractLsb' 8 8 = e.code ∧
    (raiseError e info s).status.word.extractLsb' 0 3 = (0b010 : BitVec 3) ∧
    (raiseError e info s).status.word.getLsbD 4 = false ∧
    [ErrorClass.none, .formatError, .encodingError, .inputLengthMismatch, .scalarFieldOverflow, .precheckError,
      .providerError, .illegalCommand, .capacityError, .emptyInput].map ErrorClass.code =
      [0x00, 0x01, 0x02, 0x03, 0x04, 0x05, 0x06, 0x10, 0x11, 0x12]

/-- The layout of STATUS (10_state.md R24) and the codes of PHASE (R30). -/
def Obligations.StatusLayout : Prop :=
  (∀ st : Status,
    st.word.getLsbD 0 = st.busy ∧ st.word.getLsbD 1 = st.done ∧ st.word.getLsbD 2 = st.valid ∧
    st.word.getLsbD 3 = st.haz ∧ st.word.getLsbD 4 = st.waiteng ∧ st.word.extractLsb' 5 3 = 0 ∧
    st.word.extractLsb' 8 8 = st.err.code ∧ st.word.extractLsb' 16 8 = st.lastop ∧ st.word.extractLsb' 24 8 = 0) ∧
  [Phase.idle, .exec, .vLen, .vRange, .vLcinit, .vSmul, .vAdd, .vNeg, .vPair].map Phase.code =
    [0x00, 0x01, 0x10, 0x11, 0x12, 0x13, 0x14, 0x15, 0x16]

/-- Bus errors (20_memory.md R62, R63): a misaligned access, or one at 0x4000 or above, is the fault BusError, and every
other access is answered. -/
def Obligations.BusErrors : Prop :=
  ∀ (addr : Nat) (w : Word) (s : State),
    (addr % 4 ≠ 0 ∨ 0x4000 ≤ addr →
      hostRead addr s = .fault (.busError addr) ∧ hostWrite addr w s = .fault (.busError addr)) ∧
    (addr % 4 = 0 → addr < 0x4000 → (∃ t, hostRead addr s = .next t) ∧ ∃ t, hostWrite addr w s = .next t)

/-- A host read (20_memory.md R61, R64, R70): the four bytes of the window, most significant first, at any time and with
no effect on the block. A byte of a data register not written since reset reads as any value (10_state.md R47, log 4).
And the window's bytes are each register's, big-endian (10_state.md R23 to R28 and R30 to R45, 20_memory.md R80). -/
def Obligations.HostReadValue : Prop :=
  (∀ (addr : Nat) (s : State), addr % 4 = 0 → addr < 0x4000 →
    ∃ w : Word, hostRead addr s = .next { s with hostResp := .data w } ∧
      ∀ j, j < 4 →
        ((∃ row, mapFind s.cfg (addr + j) = some row ∧ row.reg ∈ [Reg.a, .b, .c, .nega, .vkx, .term, .p, .q, .v, .cin,
            .cout, .pub]) → s.written.read (addr + j) ≠ 1 →
          (wordBytes w).getD j 0 = Config.freeByte s.freeCount (addr + j)) ∧
        ((∀ row, mapFind s.cfg (addr + j) = some row → row.reg ∈ [Reg.a, .b, .c, .nega, .vkx, .term, .p, .q, .v, .cin,
            .cout, .pub] → s.written.read (addr + j) = 1) →
          (wordBytes w).getD j 0 = windowByte s (addr + j))) ∧
  (∀ (s : State) (k : Nat), k < 4 →
    windowByte s (0x0000 + k) = (wordBytes s.ctrl).getD k 0 ∧
    windowByte s (0x0004 + k) = (wordBytes s.status.word).getD k 0 ∧
    windowByte s (0x0008 + k) = (wordBytes s.errinfo).getD k 0 ∧
    windowByte s (0x000C + k) = (wordBytes s.npub).getD k 0 ∧
    windowByte s (0x0010 + k) = (wordBytes s.cinlen).getD k 0 ∧
    windowByte s (0x0014 + k) = (wordBytes s.coutlen).getD k 0 ∧
    windowByte s (0x0018 + k) = (wordBytes ((0 : BitVec 24) ++ s.phase.code)).getD k 0 ∧
    windowByte s (0x001C + k) = (wordBytes ((0 : BitVec 24) ++ s.idx)).getD k 0 ∧
    windowByte s (0x0020 + k) = (wordBytes (BitVec.ofNat 32 s.cfg.vk.ic.length)).getD k 0 ∧
    windowByte s (0x0024 + k) = (wordBytes 64).getD k 0 ∧
    windowByte s (0x0028 + k) = (wordBytes s.cfg.vkVersion).getD k 0) ∧
  (∀ (s : State) (k : Nat), k < 64 →
    windowByte s (0x0040 + k) = (be s.a.x.toNat 32 ++ be s.a.y.toNat 32).getD k 0 ∧
    windowByte s (0x0100 + k) = (be s.c.x.toNat 32 ++ be s.c.y.toNat 32).getD k 0 ∧
    windowByte s (0x0140 + k) = (be s.nega.x.toNat 32 ++ be s.nega.y.toNat 32).getD k 0 ∧
    windowByte s (0x0180 + k) = (be s.vkx.x.toNat 32 ++ be s.vkx.y.toNat 32).getD k 0 ∧
    windowByte s (0x01C0 + k) = (be s.term.x.toNat 32 ++ be s.term.y.toNat 32).getD k 0 ∧
    windowByte s (0x0200 + k) = (be s.p.x.toNat 32 ++ be s.p.y.toNat 32).getD k 0 ∧
    windowByte s (0x1000 + k) = (enc1 s.cfg.vk.alfa1).getD k 0 ∧
    (∀ i p, s.cfg.vk.ic[i]? = some p →
      windowByte s (0x11C0 + 64 * i + k) = (be p.x.toNat 32 ++ be p.y.toNat 32).getD k 0)) ∧
  (∀ (s : State) (k : Nat), k < 128 →
    windowByte s (0x0080 + k) =
      (be s.b.xIm.toNat 32 ++ be s.b.xRe.toNat 32 ++ be s.b.yIm.toNat 32 ++ be s.b.yRe.toNat 32).getD k 0 ∧
    windowByte s (0x0240 + k) =
      (be s.q.xIm.toNat 32 ++ be s.q.xRe.toNat 32 ++ be s.q.yIm.toNat 32 ++ be s.q.yRe.toNat 32).getD k 0 ∧
    windowByte s (0x0300 + k) = (be s.v.toNat 128).getD k 0 ∧
    windowByte s (0x0380 + k) = s.cin.read k ∧
    windowByte s (0x1040 + k) = (enc2 s.cfg.vk.beta2).getD k 0 ∧
    windowByte s (0x10C0 + k) = (enc2 s.cfg.vk.gamma2).getD k 0 ∧
    windowByte s (0x1140 + k) = (enc2 s.cfg.vk.delta2).getD k 0) ∧
  (∀ (s : State) (k : Nat), k < 768 → windowByte s (0x0400 + k) = s.cout.read k) ∧
  (∀ (s : State) (i k : Nat) (f : Field), s.pub[i]? = some f → k < 32 →
    windowByte s (0x0800 + 32 * i + k) = (be f.toNat 32).getD k 0)

/-- A host write to a read-only register or a reserved offset is ignored and no error, and a reserved offset reads 0
(20_memory.md R66, R67). -/
def Obligations.ReadOnlyAndReserved : Prop :=
  (∀ r : Reg, r.access = .ro ↔ r ∈ [Reg.status, .errinfo, .phase, .idx, .nic, .npubmax, .vkver, .nega, .vkx, .term, .cout,
    .alfa1, .beta2, .gamma2, .delta2, .ic]) ∧
  ∀ (addr : Nat) (w : Word) (s : State), addr % 4 = 0 → addr < 0x4000 →
    ((∀ row ∈ addressMap s.cfg, row.covers addr = true → row.access = .ro) →
      (s.status.busy = false → hostWrite addr w s = .next { s with hostResp := .written }) ∧
      (s.status.busy = true →
        hostWrite addr w s = .next { s with status := { s.status with haz := true }, hostResp := .written })) ∧
    ((∀ row ∈ addressMap s.cfg, row.covers addr = false) →
      hostRead addr s = .next { s with hostResp := .data 0 })

/-- The address map (20_memory.md R65): every register at its offset, with its size and access; each window offset is in
at most one row and below 0x4000; and an offset in no row, which the table calls reserved, has no register's byte. -/
def Obligations.MapIsUnambiguous : Prop :=
  (∀ cfg : Config, addressMap cfg =
    [⟨.ctrl, 0x0000, 4, .rw⟩, ⟨.status, 0x0004, 4, .ro⟩, ⟨.errinfo, 0x0008, 4, .ro⟩, ⟨.npub, 0x000C, 4, .rw⟩,
      ⟨.cinlen, 0x0010, 4, .rw⟩, ⟨.coutlen, 0x0014, 4, .rw⟩, ⟨.phase, 0x0018, 4, .ro⟩, ⟨.idx, 0x001C, 4, .ro⟩,
      ⟨.nic, 0x0020, 4, .ro⟩, ⟨.npubmax, 0x0024, 4, .ro⟩, ⟨.vkver, 0x0028, 4, .ro⟩,
      ⟨.a, 0x0040, 64, .rw⟩, ⟨.b, 0x0080, 128, .rw⟩, ⟨.c, 0x0100, 64, .rw⟩, ⟨.nega, 0x0140, 64, .ro⟩,
      ⟨.vkx, 0x0180, 64, .ro⟩, ⟨.term, 0x01C0, 64, .ro⟩, ⟨.p, 0x0200, 64, .rw⟩, ⟨.q, 0x0240, 128, .rw⟩,
      ⟨.v, 0x0300, 128, .rw⟩, ⟨.cin, 0x0380, 128, .rw⟩, ⟨.cout, 0x0400, 768, .ro⟩, ⟨.pub, 0x0800, 32 * 64, .rw⟩,
      ⟨.alfa1, 0x1000, 64, .ro⟩, ⟨.beta2, 0x1040, 128, .ro⟩, ⟨.gamma2, 0x10C0, 128, .ro⟩, ⟨.delta2, 0x1140, 128, .ro⟩,
      ⟨.ic, 0x11C0, 64 * cfg.vk.ic.length, .ro⟩]) ∧
  (∀ (cfg : Config) (off : Nat) (r1 r2 : MapRow), cfg.vk.ic.length ≤ 65 →
    r1 ∈ addressMap cfg → r2 ∈ addressMap cfg → r1.covers off = true → r2.covers off = true →
    r1 = r2 ∧ off < 0x4000) ∧
  (∀ (s : State) (off : Nat), (0x002C ≤ off ∧ off < 0x0040) ∨ (0x02C0 ≤ off ∧ off < 0x0300) ∨
    (0x0700 ≤ off ∧ off < 0x0800) ∨ 0x11C0 + 64 * s.cfg.vk.ic.length ≤ off →
    mapFind s.cfg off = none ∧ windowByte s off = 0)

/-- NPUB, CINLEN and COUTLEN store a value up to their bound and ignore a larger one (20_memory.md R68). That a stored one is
now written, and an ignored one marks nothing, is log 12. -/
def Obligations.BoundedRegisters : Prop :=
  ∀ (w : Word) (s : State), s.status.busy = false →
    (∃ t, hostWrite 0x000C w s = .next t ∧ t.npub = (if w.toNat ≤ 64 then w else s.npub) ∧
      (if w.toNat ≤ 64 then nowWritten .npub 0 4 s t else t.written = s.written) ∧
      t = { s with npub := t.npub, written := t.written, hostResp := .written }) ∧
    (∃ t, hostWrite 0x0010 w s = .next t ∧ t.cinlen = (if w.toNat ≤ 128 then w else s.cinlen) ∧
      (if w.toNat ≤ 128 then nowWritten .cinlen 0 4 s t else t.written = s.written) ∧
      t = { s with cinlen := t.cinlen, written := t.written, hostResp := .written }) ∧
    (∃ t, hostWrite 0x0014 w s = .next t ∧ t.coutlen = (if w.toNat ≤ 768 then w else s.coutlen) ∧
      (if w.toNat ≤ 768 then nowWritten .coutlen 0 4 s t else t.written = s.written) ∧
      t = { s with coutlen := t.coutlen, written := t.written, hostResp := .written })

/-- A host write to a data register (20_memory.md R69, R80): its four bytes of the window become the word's, most
significant first, every other byte of the window is as before, and the bytes are now written. -/
def Obligations.DataRegisterWrite : Prop :=
  ∀ (r : Reg) (addr : Nat) (w : Word) (s : State), s.status.busy = false → Reg.isData r = true → addr % 4 = 0 →
    r.base ≤ addr → addr < r.base + r.size s.cfg →
    ∃ t, hostWrite addr w s = .next t ∧
      (∀ off, windowByte t off =
        if addr ≤ off ∧ off < addr + 4 then (wordBytes w).getD (off - addr) 0 else windowByte s off) ∧
      (∀ off, t.written.read off = if addr ≤ off ∧ off < addr + 4 then 1 else s.written.read off) ∧
      t = { s with a := t.a, b := t.b, c := t.c, pub := t.pub, p := t.p, q := t.q, v := t.v, cin := t.cin,
                   written := t.written, hostResp := .written }

/-- A host write while a command runs (70_reset_and_hazards.md R316): ignored, and HAZ is set. HAZ then stays until the
next command start or a reset. -/
def Obligations.WriteWhileBusy : Prop :=
  (∀ (addr : Nat) (w : Word) (s : State), s.status.busy = true → addr % 4 = 0 → addr < 0x4000 →
    hostWrite addr w s = .next { s with status := { s.status with haz := true }, hostResp := .written }) ∧
  (∀ s t : State, step s = .next t → s.status.haz = true →
    t.status.haz = true ∨ s.turns.head? = some .reset ∨
      (s.status.busy = false ∧ ∃ w rest, s.hostProg = .wr 0x0000 w :: rest ∧ t.ctrl = w))

/-- WAIT (30_encoding.md R108): it reads STATUS and stays while BUSY is 1. WRB (R109) writes a point's wire form into a
G1 register, one word a step. -/
def Obligations.HostNotation : Prop :=
  (∀ (s : State) (rest : List HostOp), s.hostProg = .wait :: rest →
    hostStep s = .next { s with
      hostProg := if s.status.busy then .wait :: rest else rest
      hostResp := .data s.status.word }) ∧
  (∀ (off : Nat) (b0 b1 b2 b3 : Byte) (bs : List Byte),
    wrb off (b0 :: b1 :: b2 :: b3 :: bs) = .wr off (b0 ++ b1 ++ b2 ++ b3) :: wrb (off + 4) bs) ∧
  (∀ (p : G1) (rest : List HostOp) (s : State), s.status.busy = false → s.turns = [] → s.status.waiteng = false →
    s.hostProg = wrb 0x0040 (enc1 p) ++ rest →
    ∃ t, run 16 s = .next t ∧ t.a = p ∧ t.hostProg = rest ∧
      t = { s with a := t.a, written := t.written, hostProg := t.hostProg, hostResp := t.hostResp })

/-- Reset (70_reset_and_hazards.md R310 to R312, 10_state.md R49): from any state, the control registers are 0, PHASE is
IDLE, no byte is written, no request is outstanding, and the parameters stay. -/
def Obligations.ResetState : Prop :=
  (∀ (s : State) (ts : List Turn), s.turns = .reset :: ts → ∃ t, step s = .next t ∧
    t.ctrl = 0 ∧ t.status.word = 0 ∧ t.errinfo = 0 ∧ t.npub = 0 ∧ t.cinlen = 0 ∧ t.coutlen = 0 ∧ t.phase = .idle ∧
    t.idx = 0 ∧ t.rspValid = false ∧ (∀ o, t.written.read o = 0) ∧ t.cfg = s.cfg) ∧
  (State.reset.ctrl = 0 ∧ State.reset.status.word = 0 ∧ State.reset.errinfo = 0 ∧ State.reset.npub = 0 ∧
    State.reset.cinlen = 0 ∧ State.reset.coutlen = 0 ∧ State.reset.phase = .idle ∧ State.reset.idx = 0 ∧
    State.reset.rspValid = false ∧ ∀ o, State.reset.written.read o = 0)

/-- No step of any agent changes the verification key or any other parameter (60_exceptions.md R291,
70_reset_and_hazards.md R312, 10_state.md R45). -/
def Obligations.ParametersNeverChange : Prop :=
  ∀ s t : State, step s = .next t → t.cfg = s.cfg

/-- What a codec command or NEG leaves of the window (40_bytecodec.md R135, 43_verifier.md R238): nothing changes below
0x0200 but STATUS, ERRINFO, COUTLEN and PHASE, and above it only P, V and COUT can change. -/
def Obligations.CommandWindowFrame : Prop :=
  ∀ (i : Instr) (s t : State) (off : Nat), singleStep i = true → exec i s = .next t →
    windowByte t off = windowByte s off ∨
      (0x0004 ≤ off ∧ off < 0x000C) ∨ (0x0014 ≤ off ∧ off < 0x001C) ∨ (0x0200 ≤ off ∧ off < 0x0240) ∨
      (0x0300 ≤ off ∧ off < 0x0380) ∨ (0x0400 ≤ off ∧ off < 0x0700)

/-- VERIFY neither reads nor writes P, Q, V, CIN, CINLEN, COUT or COUTLEN, and the codec commands and NEG neither read nor
write A, B, C, PUB, NPUB, VKX, TERM or NEGA (43_verifier.md R238): other contents there change nothing else. -/
def Obligations.UnitsAreSeparate : Prop :=
  (∀ (s : State) (p : G1) (q : G2) (v : WideInt) (cin cout : Memory) (cinlen coutlen : Word),
    exec .verify (withCodecRegs p q v cin cout cinlen coutlen s) =
      mapNext (withCodecRegs p q v cin cout cinlen coutlen) (exec .verify s)) ∧
  (∀ (i : Instr) (s : State) (a : G1) (b : G2) (c : G1) (pub : Vector Field 64) (npub : Word) (vkx term nega : G1),
    singleStep i = true →
    exec i (withVerifierRegs a b c pub npub vkx term nega s) =
      mapNext (withVerifierRegs a b c pub npub vkx term nega) (exec i s))

/-! ## Invariants and runs -/

/-- The invariant holds at reset, with the reset values of log 1, log 2 and log 5. -/
def Obligations.InvariantAtReset : Prop := Inv State.reset

/-- Every step of every agent keeps the invariant, from every state that meets it. -/
def Obligations.InvariantKept : Prop :=
  ∀ s t : State, Inv s → step s = .next t → Inv t

/-- From a state that meets the invariant no step stops but by a bus error (20_memory.md R62, R63, log 17), or by an operand
of the running command that 70_reset_and_hazards.md R314 asks the host to have written and that is not. So the stops of
log 13 are unreachable, and so is the refusal, and the block writes VKX, TERM and NEGA before it reads them (10_state.md
R48). -/
def Obligations.OnlyDeclaredStops : Prop :=
  ∀ s : State, Inv s → (∃ t, step s = .next t) ∨ (∃ addr, step s = .fault (.busError addr)) ∨
    ∃ i o, decode (wordBytes s.ctrl) = .instr i ∧ s.status.busy = true ∧ o ∈ commandReads s i ∧
      ¬ bytesWritten s o.reg o.first o.len ∧ step s = .fault (.unwrittenOperand o.reg)

/-- Agreement of the sequencer with the function R222 (43_verifier.md R236) and the step counts of 70_reset_and_hazards.md
R322: with written operands and an engine that answers, every VERIFY ends within 7·NPUB + 7 steps in the outcome of R222,
it makes exactly the engine calls of R222 in order, and one without an error takes exactly that many steps. One that would
end without an error, and for which an operand is not written, ends in UnwrittenOperand instead (60_exceptions.md R282).
The agents move in the order of log 9. -/
def Obligations.VerifyAgreesWithFunction : Prop :=
  ∀ s : State, Inv s → s.phase = .vLen → s.turns = [] → s.hostProg = [] → s.cfg.engineAnswers = true →
    (operandsWritten s (verifyReads s) →
      (∃ t, run (7 * s.npub.toNat + 7) s = .next t ∧ t.status.busy = false ∧ t.status.done = true ∧
        t.status.err = (verificationOf s).verdict.err ∧ t.status.valid = (verificationOf s).verdict.isValid ∧
        requests (7 * s.npub.toNat + 7) s = (verificationOf s).calls) ∧
      ((verificationOf s).verdict.err = .none → ∀ m, m < 7 * s.npub.toNat + 7 →
        ∃ u, run m s = .next u ∧ u.status.busy = true)) ∧
    (¬ operandsWritten s (verifyReads s) → (verificationOf s).verdict.err = .none →
      ∃ o ∈ verifyReads s, ¬ bytesWritten s o.reg o.first o.len ∧
        run (7 * s.npub.toNat + 7) s = .fault (.unwrittenOperand o.reg))

/-- The outcome is the same under every interleaving (43_verifier.md R236): whatever the order of the agents' steps and
whatever the host reads and writes meanwhile, a VERIFY that has ended without a reset or another start shows the outcome
of R222 and has made exactly its calls. -/
def Obligations.VerifyUnderAnyInterleaving : Prop :=
  ∀ (s t : State) (n : Nat), Inv s → s.phase = .vLen → Turn.reset ∉ s.turns → s.hostProg.all startsNothing = true →
    run n s = .next t → t.status.busy = false →
    t.status.done = true ∧ t.status.err = (verificationOf s).verdict.err ∧
      t.status.valid = (verificationOf s).verdict.isValid ∧ requests n s = (verificationOf s).calls

/-- The outcome depends only on the key, A, B, C and PUB[0..NPUB) (10_state.md R48, 43_verifier.md R239): two runs that
agree on these show the same ERR, ERRINFO and VALID and make the same calls, and hold the same value in each of VKX, TERM
and NEGA that the phases reached wrote, whatever else differs and however they interleave. -/
def Obligations.OutcomeDependsOnOperandsOnly : Prop :=
  ∀ (s s' t t' : State) (n n' : Nat), Inv s → Inv s' → s.phase = .vLen → s'.phase = .vLen →
    s.cfg = s'.cfg → s.a = s'.a → s.b = s'.b → s.c = s'.c → inputsOf s = inputsOf s' →
    Turn.reset ∉ s.turns → Turn.reset ∉ s'.turns →
    s.hostProg.all startsNothing = true → s'.hostProg.all startsNothing = true →
    run n s = .next t → run n' s' = .next t' → t.status.busy = false → t'.status.busy = false →
    t.status.err = t'.status.err ∧ t.errinfo = t'.errinfo ∧ t.status.valid = t'.status.valid ∧
      requests n s = requests n' s' ∧
      (t.status.err ≠ .inputLengthMismatch → t.status.err ≠ .scalarFieldOverflow → t.vkx = t'.vkx) ∧
      (t.status.err ≠ .inputLengthMismatch → t.status.err ≠ .scalarFieldOverflow → 0 < s.npub.toNat →
        t.errinfo ≠ 0x1300 → t.term = t'.term) ∧
      (t.status.err = .none ∨ t.errinfo.extractLsb' 8 8 = (0x16 : Byte) → t.nega = t'.nega)

/-- An engine that never answers is a hang, not an error (70_reset_and_hazards.md R320): without a reset the command stays
busy with no error and a WAIT of the host never returns. -/
def Obligations.SilentEngineHangs : Prop :=
  ∀ (s t : State) (n : Nat), Inv s → s.cfg.engineAnswers = false → s.status.waiteng = true → s.rspValid = false →
    Turn.reset ∉ s.turns → run n s = .next t →
    t.status.busy = true ∧ t.status.waiteng = true ∧ t.status.err = .none ∧ t.phase = s.phase ∧
      (∀ rest, s.hostProg = .wait :: rest → t.hostProg = .wait :: rest)

/-- UnwrittenOperand (10_state.md R47, 60_exceptions.md R282, 70_reset_and_hazards.md R314, 93_implementation_defined.md U5).
A codec command or NEG all of whose operands are written gives a next state, and otherwise it is the fault, with no state
after it. Its operands are those R314 lists. That the fault comes before an error of the command's own, and names the first
register of that list with an unwritten byte, is log 12. -/
def Obligations.UnwrittenOperandFault : Prop :=
  (∀ (i : Instr) (s : State), singleStep i = true →
    (operandsWritten s (commandReads s i) → ∃ t, exec i s = .next t) ∧
    (∀ before o after, commandReads s i = before ++ o :: after → operandsWritten s before →
      ¬ bytesWritten s o.reg o.first o.len → exec i s = .fault (.unwrittenOperand o.reg))) ∧
  (∀ (i : Instr) (s : State),
    (i ∈ [Instr.strip false, .decuint, .concat false, .sdec, .g1dec] → ((∃ t, exec i s = .next t) ↔
      bytesWritten s .cinlen 0 4 ∧ bytesWritten s .cin 0 s.cinlen.toNat)) ∧
    (i ∈ [Instr.strip true, .concat true] → ((∃ t, exec i s = .next t) ↔
      bytesWritten s .cinlen 0 4 ∧ bytesWritten s .cin 0 s.cinlen.toNat ∧ bytesWritten s .coutlen 0 4)) ∧
    ((∃ w, i = .encfix false w) ∨ i = .senc false → ((∃ t, exec i s = .next t) ↔ bytesWritten s .v 0 128)) ∧
    ((∃ w, i = .encfix true w) ∨ i = .senc true →
      ((∃ t, exec i s = .next t) ↔ bytesWritten s .v 0 128 ∧ bytesWritten s .coutlen 0 4)) ∧
    (i ∈ [Instr.g1enc false, .neg] → ((∃ t, exec i s = .next t) ↔ bytesWritten s .p 0 64)) ∧
    (i = .g1enc true → ((∃ t, exec i s = .next t) ↔ bytesWritten s .p 0 64 ∧ bytesWritten s .coutlen 0 4)) ∧
    (i = .g2enc false → ((∃ t, exec i s = .next t) ↔ bytesWritten s .q 0 128)) ∧
    (i = .g2enc true → ((∃ t, exec i s = .next t) ↔ bytesWritten s .q 0 128 ∧ bytesWritten s .coutlen 0 4))) ∧
  (∀ (s : State) (i : Instr) (r : Reg), s.status.busy = true → s.phase = .exec →
    ¬ (s.status.waiteng = true ∧ s.rspValid = false) → s.turns = [] → decode (wordBytes s.ctrl) = .instr i →
    exec i (tick s) = .fault (.unwrittenOperand r) → ∀ n, run (n + 1) s = .fault (.unwrittenOperand r)) ∧
  (∀ (s t : State) (ts : List Turn), step s = .next t → s.turns = .reset :: ts → ∀ r k n, 0 < n → ¬ bytesWritten t r k n)
end

