-- ==== Sys2Proof/Laws/Codec.lean ====
section
/-! SUPPORT. Laws of the codec functions: lengths, positional values, and the two directions of big-endian coding. -/

namespace Sys2Proof.Machine

@[simp] theorem length_be (v w : Nat) : (be v w).length = w := by
  induction w with
  | zero => rfl
  | succ w ih => simp [be, ih]

@[simp] theorem length_enc256 (f : Field) : (enc256 f).length = 32 := length_be _ _

@[simp] theorem length_enc1 (p : G1) : (enc1 p).length = 64 := by simp [enc1]

@[simp] theorem length_enc2 (q : G2) : (enc2 q).length = 128 := by simp [enc2]

@[simp] theorem length_wordBytes (w : Word) : (wordBytes w).length = 4 := rfl

theorem unbe_foldl (bs : List Byte) (acc : Nat) :
    bs.foldl (fun acc b => acc * 256 + b.toNat) acc = acc * 256 ^ bs.length + unbe bs := by
  induction bs generalizing acc with
  | nil => simp [unbe]
  | cons b bs ih =>
    have h1 := ih (acc * 256 + b.toNat)
    have h2 := ih (0 * 256 + b.toNat)
    simp only [unbe, List.foldl_cons, List.length_cons] at h1 h2 ⊢
    rw [h1, h2, pow_succ]
    ring

@[simp] theorem unbe_nil : unbe [] = 0 := rfl

theorem unbe_cons (b : Byte) (bs : List Byte) : unbe (b :: bs) = b.toNat * 256 ^ bs.length + unbe bs := by
  have h := unbe_foldl bs (0 * 256 + b.toNat)
  simp only [unbe, List.foldl_cons] at h ⊢
  rw [h]
  simp

theorem unbe_append (xs ys : List Byte) : unbe (xs ++ ys) = unbe xs * 256 ^ ys.length + unbe ys := by
  have h := unbe_foldl ys (unbe xs)
  unfold unbe at h ⊢
  rw [List.foldl_append, h]

theorem unbe_lt (bs : List Byte) : unbe bs < 256 ^ bs.length := by
  induction bs with
  | nil => simp
  | cons b bs ih =>
    rw [unbe_cons, List.length_cons, pow_succ]
    have := b.isLt
    nlinarith

/-- Decoding what was encoded gives the value's low-order bytes. -/
theorem unbe_be (v w : Nat) : unbe (be v w) = v % 256 ^ w := by
  induction w with
  | zero => simp [be, Nat.mod_one]
  | succ w ih =>
    rw [be, unbe_cons, ih, length_be, BitVec.toNat_ofNat, Nat.shiftRight_eq_div_pow, pow_mul]
    norm_num only [pow_succ]
    rw [Nat.mod_mul]
    ring

theorem unbe_be_of_lt {v w : Nat} (h : v < 256 ^ w) : unbe (be v w) = v := by
  rw [unbe_be, Nat.mod_eq_of_lt h]

theorem be_add_mul (v x w : Nat) : be (x * 256 ^ w + v) w = be v w := by
  induction w generalizing x v with
  | zero => rfl
  | succ w ih =>
    have h1 : x * 256 ^ (w + 1) + v = (x * 256) * 256 ^ w + v := by ring
    simp only [be]
    rw [show be (x * 256 ^ (w + 1) + v) w = be v w by rw [h1, ih]]
    congr 1
    apply BitVec.eq_of_toNat_eq
    simp only [BitVec.toNat_ofNat, Nat.shiftRight_eq_div_pow, pow_mul]
    norm_num only
    rw [h1, show x * 256 * 256 ^ w + v = v + x * 256 * 256 ^ w by ring, Nat.add_mul_div_right _ _ (by positivity)]
    rw [Nat.add_mul_mod_self_right]

/-- Encoding what was decoded gives the bytes back. -/
theorem be_unbe (bs : List Byte) : be (unbe bs) bs.length = bs := by
  induction bs with
  | nil => rfl
  | cons b bs ih =>
    rw [List.length_cons, be, unbe_cons, be_add_mul, ih]
    congr 1
    apply BitVec.eq_of_toNat_eq
    rw [BitVec.toNat_ofNat, Nat.shiftRight_eq_div_pow, pow_mul]
    norm_num only
    rw [show b.toNat * 256 ^ bs.length + unbe bs = unbe bs + b.toNat * 256 ^ bs.length by ring,
      Nat.add_mul_div_right _ _ (by positivity), Nat.div_eq_of_lt (unbe_lt bs), Nat.zero_add,
      Nat.mod_eq_of_lt b.isLt]

theorem be_unbe_of_length {bs : List Byte} {w : Nat} (h : bs.length = w) : be (unbe bs) w = bs := h ▸ be_unbe bs

/-- `v` fits `n` bytes, for `n ≥ 1`, iff its minimal length is at most `n`. -/
theorem minlen_le_iff (v n : Nat) (hn : 1 ≤ n) : minlen v ≤ n ↔ v < 256 ^ n := by
  unfold minlen
  rcases Nat.eq_zero_or_pos v with rfl | hv
  · simp only [Nat.log2_zero, Nat.zero_div]
    exact ⟨fun _ => by positivity, fun _ => hn⟩
  · have h := Nat.log2_lt (n := v) (k := 8 * n) hv.ne'
    rw [pow_mul, show (2 : Nat) ^ 8 = 256 from rfl] at h
    rw [← h]
    omega

theorem minlen_pos (v : Nat) : 1 ≤ minlen v := by
  unfold minlen
  omega

/-- When `encode_fixed` succeeds, and with what. -/
theorem encodeFixed_eq_some (v w : Nat) (r : List Byte) (hw : 1 ≤ w) :
    encodeFixed v w = some r ↔ v < 256 ^ w ∧ r = be v w := by
  unfold encodeFixed
  have := minlen_le_iff v w hw
  split_ifs with h
  · simp only [false_iff, not_and]
    intro h2
    omega
  · simp only [Option.some.injEq]
    exact ⟨fun h2 => ⟨this.mp (by omega), h2.symm⟩, fun h2 => h2.2.symm⟩

/-- When `encode_fixed` fails. -/
theorem encodeFixed_eq_none (v w : Nat) (hw : 1 ≤ w) : encodeFixed v w = none ↔ 256 ^ w ≤ v := by
  unfold encodeFixed
  have := minlen_le_iff v w hw
  split_ifs with h
  · simp only [true_iff]
    omega
  · simp only [false_iff, not_le]
    exact this.mp (by omega)

theorem field256_enc256 (f : Field) : field256 (enc256 f) = f := by
  unfold field256 enc256
  rw [unbe_be_of_lt (by have := f.isLt; norm_num only [pow_succ] at this ⊢; omega)]
  exact BitVec.ofNat_toNat _ _ |>.trans (BitVec.setWidth_eq f)

/-- A field's wire form spells what the bytes spelled. -/
theorem enc256_field256 (bs : List Byte) (h : bs.length = 32) : enc256 (field256 bs) = bs := by
  unfold field256 enc256
  have hlt := unbe_lt bs
  rw [h] at hlt
  rw [BitVec.toNat_ofNat, Nat.mod_eq_of_lt (by norm_num only [pow_succ] at hlt ⊢; omega)]
  exact be_unbe_of_length h

theorem g1OfImage_enc1 (p : G1) : g1OfImage (enc1 p) = p := by
  unfold g1OfImage enc1
  rw [List.take_left' (length_enc256 _), List.drop_left' (length_enc256 _), field256_enc256, field256_enc256]

theorem enc1_g1OfImage (bs : List Byte) (h : bs.length = 64) : enc1 (g1OfImage bs) = bs := by
  unfold g1OfImage enc1
  rw [enc256_field256 _ (by simp [h]), enc256_field256 _ (by simp [h]), List.take_append_drop]

theorem enc2_g2OfImage (bs : List Byte) (h : bs.length = 128) : enc2 (g2OfImage bs) = bs := by
  unfold g2OfImage enc2
  rw [enc256_field256 _ (by simp [h]), enc256_field256 _ (by simp [h]), enc256_field256 _ (by simp [h]),
    enc256_field256 _ (by simp [h])]
  have h1 : bs.drop 64 = (bs.drop 32).drop 32 := by rw [List.drop_drop]
  have h2 : bs.drop 96 = (bs.drop 64).drop 32 := by rw [List.drop_drop]
  rw [h2, List.append_assoc, List.append_assoc, List.take_append_drop, h1, List.take_append_drop, List.take_append_drop]

theorem length_patch (bs : List Byte) (k : Nat) (new : List Byte) (h : k + new.length ≤ bs.length) :
    (patch bs k new).length = bs.length := by
  simp only [patch, List.length_append, List.length_take, List.length_drop]
  omega

/-- A byte of a patched image: a new one inside, the old one outside. -/
theorem getD_patch (bs : List Byte) (k : Nat) (new : List Byte) (i : Nat) (h : k + new.length ≤ bs.length) :
    (patch bs k new).getD i 0 = if k ≤ i ∧ i < k + new.length then new.getD (i - k) 0 else bs.getD i 0 := by
  unfold patch
  have hk : (bs.take k).length = k := by rw [List.length_take]; omega
  by_cases h1 : i < k
  · have h2 : ¬ (k ≤ i ∧ i < k + new.length) := by omega
    simp only [h2, if_false, List.getD_eq_getElem?_getD]
    rw [List.append_assoc, List.getElem?_append_left (by omega), List.getElem?_take_of_lt h1]
  · by_cases h3 : i < k + new.length
    · have h2 : k ≤ i ∧ i < k + new.length := by omega
      simp only [h2, and_self, if_true, List.getD_eq_getElem?_getD]
      rw [List.append_assoc, List.getElem?_append_right (by omega), hk, List.getElem?_append_left (by omega)]
    · have h2 : ¬ (k ≤ i ∧ i < k + new.length) := by omega
      simp only [h2, if_false, List.getD_eq_getElem?_getD]
      rw [List.append_assoc, List.getElem?_append_right (by omega), hk, List.getElem?_append_right (by omega),
        List.getElem?_drop]
      congr 2
      omega

theorem wordOfBytes_wordBytes (w : Word) :
    wordOfBytes (w.extractLsb' 24 8) (w.extractLsb' 16 8) (w.extractLsb' 8 8) (w.extractLsb' 0 8) = w := by
  unfold wordOfBytes
  ext i hi
  simp only [BitVec.getElem_append, BitVec.getElem_extractLsb']
  rw [← BitVec.getLsbD_eq_getElem]
  split_ifs <;> (congr 1; omega)

theorem wordBytes_wordOfBytes (b0 b1 b2 b3 : Byte) : wordBytes (wordOfBytes b0 b1 b2 b3) = [b0, b1, b2, b3] := by
  unfold wordBytes wordOfBytes
  refine List.cons_eq_cons.mpr ⟨?_, List.cons_eq_cons.mpr ⟨?_, List.cons_eq_cons.mpr ⟨?_, List.cons_eq_cons.mpr ⟨?_, rfl⟩⟩⟩⟩
  all_goals
    ext i hi
    simp only [BitVec.getElem_extractLsb', BitVec.getLsbD_append]
    have h8 : i < 8 := hi
    rw [← BitVec.getLsbD_eq_getElem]
    split_ifs <;> first | omega | (congr 1; omega)

/-- The field that 32 bytes spell is their value. -/
theorem toNat_field256 (bs : List Byte) (h : bs.length = 32) : (field256 bs).toNat = unbe bs := by
  have hlt := unbe_lt bs
  rw [h, show 256 ^ 32 = 2 ^ 256 by norm_num] at hlt
  rw [field256, BitVec.toNat_ofNat, Nat.mod_eq_of_lt hlt]

/-- `negate` of a point other than (0, 0). -/
theorem negate_of_ne (baseP : Nat) (p : G1) (hp : p ≠ ⟨0, 0⟩) :
    negate baseP p = ⟨p.x, BitVec.ofNat 256 (baseP - p.y.toNat % baseP)⟩ := by
  unfold negate
  rw [if_neg]
  rintro ⟨h1, h2⟩
  obtain ⟨x, y⟩ := p
  exact hp (by rw [show x = 0 from h1, show y = 0 from h2])

/-- The y of `negate` as a number. -/
theorem toNat_negate_y (baseP : Nat) (p : G1) (hp : p ≠ ⟨0, 0⟩) (h : baseP < 2 ^ 256) :
    (negate baseP p).y.toNat = baseP - p.y.toNat % baseP := by
  rw [negate_of_ne _ _ hp, BitVec.toNat_ofNat, Nat.mod_eq_of_lt (by omega)]

end Sys2Proof.Machine
end

