-- ==== Sys2Proof/Laws/Memory.lean ====
section
/-! SUPPORT. Laws of the sparse byte arrays: read after write, and that every write keeps the canonical form. -/

namespace Sys2Proof.Machine

@[simp] theorem Memory.read_nil (a : Nat) : Memory.read [] a = Memory.unlisted := rfl

theorem Memory.read_insert (m : Memory) (a : Nat) (b : Byte) (j : Nat) :
    Memory.read (Memory.insert m a b) j = if a = j then b else Memory.read m j := by
  induction m with
  | nil => simp [Memory.insert, Memory.read]
  | cons cell m ih =>
    obtain ⟨k, c⟩ := cell
    simp only [Memory.insert]
    by_cases h1 : a < k
    · simp only [h1, if_true, Memory.read]
    · by_cases h2 : a = k
      · subst h2
        simp only [h1, if_false, if_true, Memory.read]
        by_cases h3 : a = j <;> simp only [h3, if_true, if_false]
      · simp only [h1, h2, if_false, Memory.read, ih]
        by_cases h3 : k = j
        · have h4 : ¬ a = j := fun h => h2 (h.trans h3.symm)
          simp only [h3, h4, if_true, if_false]
        · simp only [h3, if_false]

theorem Memory.read_erase (m : Memory) (a j : Nat) :
    Memory.read (m.filter (fun cell => decide (cell.1 ≠ a))) j = if a = j then Memory.unlisted else Memory.read m j := by
  induction m with
  | nil => simp
  | cons cell m ih =>
    obtain ⟨k, c⟩ := cell
    by_cases hk : k = a
    · subst hk
      simp only [ne_eq, List.filter_cons, not_true_eq_false, decide_false] at ih ⊢
      simp only [Bool.false_eq_true, if_false, ih, Memory.read]
      split_ifs <;> rfl
    · simp only [ne_eq, List.filter_cons, hk, not_false_eq_true, decide_true, if_true, Memory.read] at ih ⊢
      split_ifs with h1 h2 <;> simp_all

/-- A read after a write of one byte. -/
theorem Memory.read_write (m : Memory) (a : Nat) (b : Byte) (j : Nat) :
    Memory.read (Memory.write m a b) j = if a = j then b else Memory.read m j := by
  unfold Memory.write
  split_ifs with h h' h'
  · simp only [Memory.read_erase, h', if_true, h]
  · simp only [Memory.read_erase, h', if_false]
  · simp only [Memory.read_insert, h', if_true]
  · simp only [Memory.read_insert, h', if_false]

theorem Memory.wfFrom_mono {lo lo' : Nat} (h : lo ≤ lo') (m : Memory) (hm : Memory.wfFrom lo' m = true) :
    Memory.wfFrom lo m = true := by
  cases m with
  | nil => rfl
  | cons cell m =>
    obtain ⟨k, c⟩ := cell
    simp only [Memory.wfFrom, Bool.and_eq_true, decide_eq_true_eq] at hm ⊢
    exact ⟨⟨by omega, hm.1.2⟩, hm.2⟩

theorem Memory.wfFrom_insert (m : Memory) (lo a : Nat) (b : Byte) (hb : b ≠ Memory.unlisted) (ha : lo ≤ a)
    (hm : Memory.wfFrom lo m = true) : Memory.wfFrom lo (Memory.insert m a b) = true := by
  induction m generalizing lo with
  | nil => simp [Memory.insert, Memory.wfFrom, ha, hb]
  | cons cell m ih =>
    obtain ⟨k, c⟩ := cell
    simp only [Memory.wfFrom, Bool.and_eq_true, decide_eq_true_eq] at hm
    simp only [Memory.insert]
    split_ifs with h1 h2
    · simp only [Memory.wfFrom, Bool.and_eq_true, decide_eq_true_eq]
      exact ⟨⟨ha, hb⟩, ⟨by omega, hm.1.2⟩, hm.2⟩
    · simp only [Memory.wfFrom, Bool.and_eq_true, decide_eq_true_eq]
      exact ⟨⟨ha, hb⟩, h2 ▸ hm.2⟩
    · simp only [Memory.wfFrom, Bool.and_eq_true, decide_eq_true_eq]
      exact ⟨hm.1, ih (k + 1) (by omega) hm.2⟩

theorem Memory.wfFrom_filter (m : Memory) (lo : Nat) (keep : Host.Cell → Bool) (hm : Memory.wfFrom lo m = true) :
    Memory.wfFrom lo (m.filter keep) = true := by
  induction m generalizing lo with
  | nil => simp [Memory.wfFrom]
  | cons cell m ih =>
    obtain ⟨k, c⟩ := cell
    simp only [Memory.wfFrom, Bool.and_eq_true, decide_eq_true_eq] at hm
    rw [List.filter_cons]
    split_ifs
    · simp only [Memory.wfFrom, Bool.and_eq_true, decide_eq_true_eq]
      exact ⟨hm.1, ih (k + 1) hm.2⟩
    · exact ih lo (Memory.wfFrom_mono (by omega) m hm.2)

/-- Writing one byte keeps the canonical form. -/
theorem Memory.wf_write (m : Memory) (a : Nat) (b : Byte) (hm : m.wf = true) : (Memory.write m a b).wf = true := by
  unfold Memory.write Memory.wf at *
  split_ifs with h
  · exact Memory.wfFrom_filter m 0 _ hm
  · exact Memory.wfFrom_insert m 0 a b h (Nat.zero_le a) hm

@[simp] theorem Memory.writeBytes_nil (m : Memory) (a : Nat) : Memory.writeBytes m a [] = m := by
  unfold Memory.writeBytes
  rfl

theorem Memory.writeBytes_cons (m : Memory) (a : Nat) (b : Byte) (bs : List Byte) :
    Memory.writeBytes m a (b :: bs) = Memory.writeBytes (Memory.write m a b) (a + 1) bs := by
  conv_lhs => unfold Memory.writeBytes

/-- Writing bytes keeps the canonical form. -/
theorem Memory.wf_writeBytes (bs : List Byte) (m : Memory) (a : Nat) (hm : m.wf = true) :
    (Memory.writeBytes m a bs).wf = true := by
  induction bs generalizing m a with
  | nil => rwa [Memory.writeBytes_nil]
  | cons b bs ih =>
    rw [Memory.writeBytes_cons]
    exact ih _ _ (Memory.wf_write m a b hm)

theorem Memory.below_insert (m : Memory) (n a : Nat) (b : Byte) (ha : a < n) (hm : Memory.below n m = true) :
    Memory.below n (Memory.insert m a b) = true := by
  induction m with
  | nil => simp [Memory.insert, Memory.below, ha]
  | cons cell m ih =>
    obtain ⟨k, c⟩ := cell
    simp only [Memory.below, List.all_cons, Bool.and_eq_true, decide_eq_true_eq] at hm ih
    simp only [Memory.insert]
    split_ifs <;> simp only [Memory.below, List.all_cons, Bool.and_eq_true, decide_eq_true_eq]
    · exact ⟨ha, hm⟩
    · exact ⟨ha, hm.2⟩
    · exact ⟨hm.1, ih hm.2⟩

/-- Writing one byte below a bound keeps every listed address below it. -/
theorem Memory.below_write (m : Memory) (n a : Nat) (b : Byte) (ha : a < n) (hm : Memory.below n m = true) :
    Memory.below n (Memory.write m a b) = true := by
  unfold Memory.write
  split_ifs
  · simp only [Memory.below, List.all_eq_true] at hm ⊢
    intro cell hc
    exact hm cell (List.mem_filter.mp hc).1
  · exact Memory.below_insert m n a b ha hm

/-- Writing bytes below a bound keeps every listed address below it. -/
theorem Memory.below_writeBytes (bs : List Byte) (m : Memory) (n a : Nat) (ha : a + bs.length ≤ n)
    (hm : Memory.below n m = true) : Memory.below n (Memory.writeBytes m a bs) = true := by
  induction bs generalizing m a with
  | nil => rwa [Memory.writeBytes_nil]
  | cons b bs ih =>
    simp only [List.length_cons] at ha
    rw [Memory.writeBytes_cons]
    exact ih _ _ (by omega) (Memory.below_write m n a b (by omega) hm)

@[simp] theorem Memory.length_readBytes (m : Memory) (a n : Nat) : (Memory.readBytes m a n).length = n := by
  induction n generalizing a with
  | zero => rfl
  | succ n ih => simp [Memory.readBytes, ih]

/-- Byte `i` of the bytes read. -/
theorem Memory.getD_readBytes (m : Memory) (a n i : Nat) (hi : i < n) :
    (Memory.readBytes m a n).getD i 0 = Memory.read m (a + i) := by
  induction n generalizing a i with
  | zero => omega
  | succ n ih =>
    cases i with
    | zero => simp [Memory.readBytes]
    | succ i =>
      have := ih (a + 1) i (by omega)
      simp only [Memory.readBytes, List.getD_cons_succ, this]
      congr 1
      omega

/-- A read after a write of bytes. -/
theorem Memory.read_writeBytes (bs : List Byte) (m : Memory) (a j : Nat) :
    Memory.read (Memory.writeBytes m a bs) j =
      if a ≤ j ∧ j < a + bs.length then bs.getD (j - a) 0 else Memory.read m j := by
  induction bs generalizing m a with
  | nil =>
    have h : ¬ (a ≤ j ∧ j < a + ([] : List Byte).length) := by simp
    simp only [h, if_false, Memory.writeBytes_nil]
  | cons b bs ih =>
    simp only [Memory.writeBytes_cons, ih, Memory.read_write, List.length_cons]
    by_cases h : a = j
    · subst h; simp
    · by_cases h2 : a + 1 ≤ j ∧ j < a + 1 + bs.length
      · have h3 : a ≤ j ∧ j < a + (bs.length + 1) := by omega
        obtain ⟨d, hd⟩ : ∃ d, j - a = d + 1 := ⟨j - a - 1, by omega⟩
        have hd' : j - (a + 1) = d := by omega
        simp only [h2, h3, hd, hd', and_self, if_true, List.getD_cons_succ]
      · have h3 : ¬ (a ≤ j ∧ j < a + (bs.length + 1)) := by omega
        simp only [h2, h3, h, if_false]

theorem Memory.readBytes_congr (m m' : Memory) (a n : Nat)
    (h : ∀ j, a ≤ j → j < a + n → Memory.read m j = Memory.read m' j) :
    Memory.readBytes m a n = Memory.readBytes m' a n := by
  induction n generalizing a with
  | zero => rfl
  | succ n ih =>
    simp only [Memory.readBytes]
    rw [h a (by omega) (by omega), ih (a + 1) (fun j h1 h2 => h j (by omega) (by omega))]

/-- Reading back the bytes just written. -/
theorem Memory.readBytes_writeBytes (bs : List Byte) (m : Memory) (a : Nat) :
    Memory.readBytes (Memory.writeBytes m a bs) a bs.length = bs := by
  induction bs generalizing m a with
  | nil => rfl
  | cons b bs ih =>
    simp only [List.length_cons, Memory.readBytes]
    have h0 : Memory.read (Memory.writeBytes m a (b :: bs)) a = b := by
      rw [Memory.read_writeBytes]; simp
    rw [h0]
    rw [Memory.writeBytes_cons]
    exact congrArg _ (ih (Memory.write m a b) (a + 1))

/-- Bytes read in two parts. -/
theorem Memory.readBytes_add (m : Memory) (a i j : Nat) :
    Memory.readBytes m a (i + j) = Memory.readBytes m a i ++ Memory.readBytes m (a + i) j := by
  induction i generalizing a with
  | zero => simp [Memory.readBytes]
  | succ i ih =>
    rw [show i + 1 + j = (i + j) + 1 by omega]
    simp only [Memory.readBytes, ih, List.cons_append]
    rw [show a + 1 + i = a + (i + 1) by omega]

end Sys2Proof.Machine
end

