-- ==== Sys2Proof/Laws/State.lean ====
section
/-! SUPPORT. What each shared update of the state leaves in each field, by rfl, so that no later proof unfolds a record
update. -/

namespace Sys2Proof.Machine

variable (s : State)

@[simp] theorem markWritten_ctrl (off n : Nat) : (markWritten off n s).ctrl = s.ctrl := rfl
@[simp] theorem markWritten_status (off n : Nat) : (markWritten off n s).status = s.status := rfl
@[simp] theorem markWritten_errinfo (off n : Nat) : (markWritten off n s).errinfo = s.errinfo := rfl
@[simp] theorem markWritten_npub (off n : Nat) : (markWritten off n s).npub = s.npub := rfl
@[simp] theorem markWritten_cinlen (off n : Nat) : (markWritten off n s).cinlen = s.cinlen := rfl
@[simp] theorem markWritten_coutlen (off n : Nat) : (markWritten off n s).coutlen = s.coutlen := rfl
@[simp] theorem markWritten_phase (off n : Nat) : (markWritten off n s).phase = s.phase := rfl
@[simp] theorem markWritten_idx (off n : Nat) : (markWritten off n s).idx = s.idx := rfl
@[simp] theorem markWritten_a (off n : Nat) : (markWritten off n s).a = s.a := rfl
@[simp] theorem markWritten_b (off n : Nat) : (markWritten off n s).b = s.b := rfl
@[simp] theorem markWritten_c (off n : Nat) : (markWritten off n s).c = s.c := rfl
@[simp] theorem markWritten_pub (off n : Nat) : (markWritten off n s).pub = s.pub := rfl
@[simp] theorem markWritten_nega (off n : Nat) : (markWritten off n s).nega = s.nega := rfl
@[simp] theorem markWritten_vkx (off n : Nat) : (markWritten off n s).vkx = s.vkx := rfl
@[simp] theorem markWritten_term (off n : Nat) : (markWritten off n s).term = s.term := rfl
@[simp] theorem markWritten_p (off n : Nat) : (markWritten off n s).p = s.p := rfl
@[simp] theorem markWritten_q (off n : Nat) : (markWritten off n s).q = s.q := rfl
@[simp] theorem markWritten_v (off n : Nat) : (markWritten off n s).v = s.v := rfl
@[simp] theorem markWritten_cin (off n : Nat) : (markWritten off n s).cin = s.cin := rfl
@[simp] theorem markWritten_cout (off n : Nat) : (markWritten off n s).cout = s.cout := rfl
@[simp] theorem markWritten_reqSel (off n : Nat) : (markWritten off n s).reqSel = s.reqSel := rfl
@[simp] theorem markWritten_reqPayload (off n : Nat) : (markWritten off n s).reqPayload = s.reqPayload := rfl
@[simp] theorem markWritten_rspValid (off n : Nat) : (markWritten off n s).rspValid = s.rspValid := rfl
@[simp] theorem markWritten_rsp (off n : Nat) : (markWritten off n s).rsp = s.rsp := rfl
@[simp] theorem markWritten_written (off n : Nat) : (markWritten off n s).written = s.written.writeBytes off (List.replicate n 1) := rfl
@[simp] theorem markWritten_cfg (off n : Nat) : (markWritten off n s).cfg = s.cfg := rfl
@[simp] theorem markWritten_hostProg (off n : Nat) : (markWritten off n s).hostProg = s.hostProg := rfl
@[simp] theorem markWritten_hostResp (off n : Nat) : (markWritten off n s).hostResp = s.hostResp := rfl
@[simp] theorem markWritten_turns (off n : Nat) : (markWritten off n s).turns = s.turns := rfl
@[simp] theorem markWritten_freeCount (off n : Nat) : (markWritten off n s).freeCount = s.freeCount := rfl

@[simp] theorem complete_ctrl : (complete s).ctrl = s.ctrl := rfl
@[simp] theorem complete_status : (complete s).status = { s.status with busy := false, done := true, waiteng := false } := rfl
@[simp] theorem complete_errinfo : (complete s).errinfo = s.errinfo := rfl
@[simp] theorem complete_npub : (complete s).npub = s.npub := rfl
@[simp] theorem complete_cinlen : (complete s).cinlen = s.cinlen := rfl
@[simp] theorem complete_coutlen : (complete s).coutlen = s.coutlen := rfl
@[simp] theorem complete_phase : (complete s).phase = .idle := rfl
@[simp] theorem complete_idx : (complete s).idx = s.idx := rfl
@[simp] theorem complete_a : (complete s).a = s.a := rfl
@[simp] theorem complete_b : (complete s).b = s.b := rfl
@[simp] theorem complete_c : (complete s).c = s.c := rfl
@[simp] theorem complete_pub : (complete s).pub = s.pub := rfl
@[simp] theorem complete_nega : (complete s).nega = s.nega := rfl
@[simp] theorem complete_vkx : (complete s).vkx = s.vkx := rfl
@[simp] theorem complete_term : (complete s).term = s.term := rfl
@[simp] theorem complete_p : (complete s).p = s.p := rfl
@[simp] theorem complete_q : (complete s).q = s.q := rfl
@[simp] theorem complete_v : (complete s).v = s.v := rfl
@[simp] theorem complete_cin : (complete s).cin = s.cin := rfl
@[simp] theorem complete_cout : (complete s).cout = s.cout := rfl
@[simp] theorem complete_reqSel : (complete s).reqSel = s.reqSel := rfl
@[simp] theorem complete_reqPayload : (complete s).reqPayload = s.reqPayload := rfl
@[simp] theorem complete_rspValid : (complete s).rspValid = s.rspValid := rfl
@[simp] theorem complete_rsp : (complete s).rsp = s.rsp := rfl
@[simp] theorem complete_written : (complete s).written = s.written := rfl
@[simp] theorem complete_cfg : (complete s).cfg = s.cfg := rfl
@[simp] theorem complete_hostProg : (complete s).hostProg = s.hostProg := rfl
@[simp] theorem complete_hostResp : (complete s).hostResp = s.hostResp := rfl
@[simp] theorem complete_turns : (complete s).turns = s.turns := rfl
@[simp] theorem complete_freeCount : (complete s).freeCount = s.freeCount := rfl

@[simp] theorem raiseError_ctrl (e : ErrorClass) (w : Word) : (raiseError e w s).ctrl = s.ctrl := rfl
@[simp] theorem raiseError_status (e : ErrorClass) (w : Word) : (raiseError e w s).status = { s.status with err := e, valid := false, waiteng := false, busy := false, done := true } := rfl
@[simp] theorem raiseError_errinfo (e : ErrorClass) (w : Word) : (raiseError e w s).errinfo = w := rfl
@[simp] theorem raiseError_npub (e : ErrorClass) (w : Word) : (raiseError e w s).npub = s.npub := rfl
@[simp] theorem raiseError_cinlen (e : ErrorClass) (w : Word) : (raiseError e w s).cinlen = s.cinlen := rfl
@[simp] theorem raiseError_coutlen (e : ErrorClass) (w : Word) : (raiseError e w s).coutlen = s.coutlen := rfl
@[simp] theorem raiseError_phase (e : ErrorClass) (w : Word) : (raiseError e w s).phase = .idle := rfl
@[simp] theorem raiseError_idx (e : ErrorClass) (w : Word) : (raiseError e w s).idx = s.idx := rfl
@[simp] theorem raiseError_a (e : ErrorClass) (w : Word) : (raiseError e w s).a = s.a := rfl
@[simp] theorem raiseError_b (e : ErrorClass) (w : Word) : (raiseError e w s).b = s.b := rfl
@[simp] theorem raiseError_c (e : ErrorClass) (w : Word) : (raiseError e w s).c = s.c := rfl
@[simp] theorem raiseError_pub (e : ErrorClass) (w : Word) : (raiseError e w s).pub = s.pub := rfl
@[simp] theorem raiseError_nega (e : ErrorClass) (w : Word) : (raiseError e w s).nega = s.nega := rfl
@[simp] theorem raiseError_vkx (e : ErrorClass) (w : Word) : (raiseError e w s).vkx = s.vkx := rfl
@[simp] theorem raiseError_term (e : ErrorClass) (w : Word) : (raiseError e w s).term = s.term := rfl
@[simp] theorem raiseError_p (e : ErrorClass) (w : Word) : (raiseError e w s).p = s.p := rfl
@[simp] theorem raiseError_q (e : ErrorClass) (w : Word) : (raiseError e w s).q = s.q := rfl
@[simp] theorem raiseError_v (e : ErrorClass) (w : Word) : (raiseError e w s).v = s.v := rfl
@[simp] theorem raiseError_cin (e : ErrorClass) (w : Word) : (raiseError e w s).cin = s.cin := rfl
@[simp] theorem raiseError_cout (e : ErrorClass) (w : Word) : (raiseError e w s).cout = s.cout := rfl
@[simp] theorem raiseError_reqSel (e : ErrorClass) (w : Word) : (raiseError e w s).reqSel = s.reqSel := rfl
@[simp] theorem raiseError_reqPayload (e : ErrorClass) (w : Word) : (raiseError e w s).reqPayload = s.reqPayload := rfl
@[simp] theorem raiseError_rspValid (e : ErrorClass) (w : Word) : (raiseError e w s).rspValid = false := rfl
@[simp] theorem raiseError_rsp (e : ErrorClass) (w : Word) : (raiseError e w s).rsp = s.rsp := rfl
@[simp] theorem raiseError_written (e : ErrorClass) (w : Word) : (raiseError e w s).written = s.written := rfl
@[simp] theorem raiseError_cfg (e : ErrorClass) (w : Word) : (raiseError e w s).cfg = s.cfg := rfl
@[simp] theorem raiseError_hostProg (e : ErrorClass) (w : Word) : (raiseError e w s).hostProg = s.hostProg := rfl
@[simp] theorem raiseError_hostResp (e : ErrorClass) (w : Word) : (raiseError e w s).hostResp = s.hostResp := rfl
@[simp] theorem raiseError_turns (e : ErrorClass) (w : Word) : (raiseError e w s).turns = s.turns := rfl
@[simp] theorem raiseError_freeCount (e : ErrorClass) (w : Word) : (raiseError e w s).freeCount = s.freeCount := rfl

@[simp] theorem raiseHere_ctrl (e : ErrorClass) : (raiseHere e s).ctrl = s.ctrl := rfl
@[simp] theorem raiseHere_status (e : ErrorClass) : (raiseHere e s).status = { s.status with err := e, valid := false, waiteng := false, busy := false, done := true } := rfl
@[simp] theorem raiseHere_errinfo (e : ErrorClass) : (raiseHere e s).errinfo = errinfoOf s := rfl
@[simp] theorem raiseHere_npub (e : ErrorClass) : (raiseHere e s).npub = s.npub := rfl
@[simp] theorem raiseHere_cinlen (e : ErrorClass) : (raiseHere e s).cinlen = s.cinlen := rfl
@[simp] theorem raiseHere_coutlen (e : ErrorClass) : (raiseHere e s).coutlen = s.coutlen := rfl
@[simp] theorem raiseHere_phase (e : ErrorClass) : (raiseHere e s).phase = .idle := rfl
@[simp] theorem raiseHere_idx (e : ErrorClass) : (raiseHere e s).idx = s.idx := rfl
@[simp] theorem raiseHere_a (e : ErrorClass) : (raiseHere e s).a = s.a := rfl
@[simp] theorem raiseHere_b (e : ErrorClass) : (raiseHere e s).b = s.b := rfl
@[simp] theorem raiseHere_c (e : ErrorClass) : (raiseHere e s).c = s.c := rfl
@[simp] theorem raiseHere_pub (e : ErrorClass) : (raiseHere e s).pub = s.pub := rfl
@[simp] theorem raiseHere_nega (e : ErrorClass) : (raiseHere e s).nega = s.nega := rfl
@[simp] theorem raiseHere_vkx (e : ErrorClass) : (raiseHere e s).vkx = s.vkx := rfl
@[simp] theorem raiseHere_term (e : ErrorClass) : (raiseHere e s).term = s.term := rfl
@[simp] theorem raiseHere_p (e : ErrorClass) : (raiseHere e s).p = s.p := rfl
@[simp] theorem raiseHere_q (e : ErrorClass) : (raiseHere e s).q = s.q := rfl
@[simp] theorem raiseHere_v (e : ErrorClass) : (raiseHere e s).v = s.v := rfl
@[simp] theorem raiseHere_cin (e : ErrorClass) : (raiseHere e s).cin = s.cin := rfl
@[simp] theorem raiseHere_cout (e : ErrorClass) : (raiseHere e s).cout = s.cout := rfl
@[simp] theorem raiseHere_reqSel (e : ErrorClass) : (raiseHere e s).reqSel = s.reqSel := rfl
@[simp] theorem raiseHere_reqPayload (e : ErrorClass) : (raiseHere e s).reqPayload = s.reqPayload := rfl
@[simp] theorem raiseHere_rspValid (e : ErrorClass) : (raiseHere e s).rspValid = false := rfl
@[simp] theorem raiseHere_rsp (e : ErrorClass) : (raiseHere e s).rsp = s.rsp := rfl
@[simp] theorem raiseHere_written (e : ErrorClass) : (raiseHere e s).written = s.written := rfl
@[simp] theorem raiseHere_cfg (e : ErrorClass) : (raiseHere e s).cfg = s.cfg := rfl
@[simp] theorem raiseHere_hostProg (e : ErrorClass) : (raiseHere e s).hostProg = s.hostProg := rfl
@[simp] theorem raiseHere_hostResp (e : ErrorClass) : (raiseHere e s).hostResp = s.hostResp := rfl
@[simp] theorem raiseHere_turns (e : ErrorClass) : (raiseHere e s).turns = s.turns := rfl
@[simp] theorem raiseHere_freeCount (e : ErrorClass) : (raiseHere e s).freeCount = s.freeCount := rfl

@[simp] theorem beginCommand_ctrl (w : Word) : (beginCommand w s).ctrl = w := rfl
@[simp] theorem beginCommand_status (w : Word) : (beginCommand w s).status = startStatus w := rfl
@[simp] theorem beginCommand_errinfo (w : Word) : (beginCommand w s).errinfo = 0 := rfl
@[simp] theorem beginCommand_npub (w : Word) : (beginCommand w s).npub = s.npub := rfl
@[simp] theorem beginCommand_cinlen (w : Word) : (beginCommand w s).cinlen = s.cinlen := rfl
@[simp] theorem beginCommand_coutlen (w : Word) : (beginCommand w s).coutlen = s.coutlen := rfl
@[simp] theorem beginCommand_phase (w : Word) : (beginCommand w s).phase = s.phase := rfl
@[simp] theorem beginCommand_idx (w : Word) : (beginCommand w s).idx = 0 := rfl
@[simp] theorem beginCommand_a (w : Word) : (beginCommand w s).a = s.a := rfl
@[simp] theorem beginCommand_b (w : Word) : (beginCommand w s).b = s.b := rfl
@[simp] theorem beginCommand_c (w : Word) : (beginCommand w s).c = s.c := rfl
@[simp] theorem beginCommand_pub (w : Word) : (beginCommand w s).pub = s.pub := rfl
@[simp] theorem beginCommand_nega (w : Word) : (beginCommand w s).nega = s.nega := rfl
@[simp] theorem beginCommand_vkx (w : Word) : (beginCommand w s).vkx = s.vkx := rfl
@[simp] theorem beginCommand_term (w : Word) : (beginCommand w s).term = s.term := rfl
@[simp] theorem beginCommand_p (w : Word) : (beginCommand w s).p = s.p := rfl
@[simp] theorem beginCommand_q (w : Word) : (beginCommand w s).q = s.q := rfl
@[simp] theorem beginCommand_v (w : Word) : (beginCommand w s).v = s.v := rfl
@[simp] theorem beginCommand_cin (w : Word) : (beginCommand w s).cin = s.cin := rfl
@[simp] theorem beginCommand_cout (w : Word) : (beginCommand w s).cout = s.cout := rfl
@[simp] theorem beginCommand_reqSel (w : Word) : (beginCommand w s).reqSel = s.reqSel := rfl
@[simp] theorem beginCommand_reqPayload (w : Word) : (beginCommand w s).reqPayload = s.reqPayload := rfl
@[simp] theorem beginCommand_rspValid (w : Word) : (beginCommand w s).rspValid = s.rspValid := rfl
@[simp] theorem beginCommand_rsp (w : Word) : (beginCommand w s).rsp = s.rsp := rfl
@[simp] theorem beginCommand_written (w : Word) : (beginCommand w s).written = s.written := rfl
@[simp] theorem beginCommand_cfg (w : Word) : (beginCommand w s).cfg = s.cfg := rfl
@[simp] theorem beginCommand_hostProg (w : Word) : (beginCommand w s).hostProg = s.hostProg := rfl
@[simp] theorem beginCommand_hostResp (w : Word) : (beginCommand w s).hostResp = s.hostResp := rfl
@[simp] theorem beginCommand_turns (w : Word) : (beginCommand w s).turns = s.turns := rfl
@[simp] theorem beginCommand_freeCount (w : Word) : (beginCommand w s).freeCount = s.freeCount := rfl

@[simp] theorem storeCout_ctrl (k : Nat) (r : List Byte) : (storeCout k r s).ctrl = s.ctrl := rfl
@[simp] theorem storeCout_status (k : Nat) (r : List Byte) : (storeCout k r s).status = s.status := rfl
@[simp] theorem storeCout_errinfo (k : Nat) (r : List Byte) : (storeCout k r s).errinfo = s.errinfo := rfl
@[simp] theorem storeCout_npub (k : Nat) (r : List Byte) : (storeCout k r s).npub = s.npub := rfl
@[simp] theorem storeCout_cinlen (k : Nat) (r : List Byte) : (storeCout k r s).cinlen = s.cinlen := rfl
@[simp] theorem storeCout_coutlen (k : Nat) (r : List Byte) : (storeCout k r s).coutlen = BitVec.ofNat 32 (k + r.length) := rfl
@[simp] theorem storeCout_phase (k : Nat) (r : List Byte) : (storeCout k r s).phase = s.phase := rfl
@[simp] theorem storeCout_idx (k : Nat) (r : List Byte) : (storeCout k r s).idx = s.idx := rfl
@[simp] theorem storeCout_a (k : Nat) (r : List Byte) : (storeCout k r s).a = s.a := rfl
@[simp] theorem storeCout_b (k : Nat) (r : List Byte) : (storeCout k r s).b = s.b := rfl
@[simp] theorem storeCout_c (k : Nat) (r : List Byte) : (storeCout k r s).c = s.c := rfl
@[simp] theorem storeCout_pub (k : Nat) (r : List Byte) : (storeCout k r s).pub = s.pub := rfl
@[simp] theorem storeCout_nega (k : Nat) (r : List Byte) : (storeCout k r s).nega = s.nega := rfl
@[simp] theorem storeCout_vkx (k : Nat) (r : List Byte) : (storeCout k r s).vkx = s.vkx := rfl
@[simp] theorem storeCout_term (k : Nat) (r : List Byte) : (storeCout k r s).term = s.term := rfl
@[simp] theorem storeCout_p (k : Nat) (r : List Byte) : (storeCout k r s).p = s.p := rfl
@[simp] theorem storeCout_q (k : Nat) (r : List Byte) : (storeCout k r s).q = s.q := rfl
@[simp] theorem storeCout_v (k : Nat) (r : List Byte) : (storeCout k r s).v = s.v := rfl
@[simp] theorem storeCout_cin (k : Nat) (r : List Byte) : (storeCout k r s).cin = s.cin := rfl
@[simp] theorem storeCout_cout (k : Nat) (r : List Byte) : (storeCout k r s).cout = s.cout.writeBytes k r := rfl
@[simp] theorem storeCout_reqSel (k : Nat) (r : List Byte) : (storeCout k r s).reqSel = s.reqSel := rfl
@[simp] theorem storeCout_reqPayload (k : Nat) (r : List Byte) : (storeCout k r s).reqPayload = s.reqPayload := rfl
@[simp] theorem storeCout_rspValid (k : Nat) (r : List Byte) : (storeCout k r s).rspValid = s.rspValid := rfl
@[simp] theorem storeCout_rsp (k : Nat) (r : List Byte) : (storeCout k r s).rsp = s.rsp := rfl
@[simp] theorem storeCout_written (k : Nat) (r : List Byte) : (storeCout k r s).written = (s.written.writeBytes (Reg.base .cout + k) (List.replicate r.length 1)).writeBytes (Reg.base .coutlen) (List.replicate 4 1) := by
  unfold storeCout
  rw [markWritten_written, markWritten_written]
@[simp] theorem storeCout_cfg (k : Nat) (r : List Byte) : (storeCout k r s).cfg = s.cfg := rfl
@[simp] theorem storeCout_hostProg (k : Nat) (r : List Byte) : (storeCout k r s).hostProg = s.hostProg := rfl
@[simp] theorem storeCout_hostResp (k : Nat) (r : List Byte) : (storeCout k r s).hostResp = s.hostResp := rfl
@[simp] theorem storeCout_turns (k : Nat) (r : List Byte) : (storeCout k r s).turns = s.turns := rfl
@[simp] theorem storeCout_freeCount (k : Nat) (r : List Byte) : (storeCout k r s).freeCount = s.freeCount := rfl

@[simp] theorem setV_ctrl (n : Nat) : (setV n s).ctrl = s.ctrl := rfl
@[simp] theorem setV_status (n : Nat) : (setV n s).status = s.status := rfl
@[simp] theorem setV_errinfo (n : Nat) : (setV n s).errinfo = s.errinfo := rfl
@[simp] theorem setV_npub (n : Nat) : (setV n s).npub = s.npub := rfl
@[simp] theorem setV_cinlen (n : Nat) : (setV n s).cinlen = s.cinlen := rfl
@[simp] theorem setV_coutlen (n : Nat) : (setV n s).coutlen = s.coutlen := rfl
@[simp] theorem setV_phase (n : Nat) : (setV n s).phase = s.phase := rfl
@[simp] theorem setV_idx (n : Nat) : (setV n s).idx = s.idx := rfl
@[simp] theorem setV_a (n : Nat) : (setV n s).a = s.a := rfl
@[simp] theorem setV_b (n : Nat) : (setV n s).b = s.b := rfl
@[simp] theorem setV_c (n : Nat) : (setV n s).c = s.c := rfl
@[simp] theorem setV_pub (n : Nat) : (setV n s).pub = s.pub := rfl
@[simp] theorem setV_nega (n : Nat) : (setV n s).nega = s.nega := rfl
@[simp] theorem setV_vkx (n : Nat) : (setV n s).vkx = s.vkx := rfl
@[simp] theorem setV_term (n : Nat) : (setV n s).term = s.term := rfl
@[simp] theorem setV_p (n : Nat) : (setV n s).p = s.p := rfl
@[simp] theorem setV_q (n : Nat) : (setV n s).q = s.q := rfl
@[simp] theorem setV_v (n : Nat) : (setV n s).v = BitVec.ofNat 1024 n := rfl
@[simp] theorem setV_cin (n : Nat) : (setV n s).cin = s.cin := rfl
@[simp] theorem setV_cout (n : Nat) : (setV n s).cout = s.cout := rfl
@[simp] theorem setV_reqSel (n : Nat) : (setV n s).reqSel = s.reqSel := rfl
@[simp] theorem setV_reqPayload (n : Nat) : (setV n s).reqPayload = s.reqPayload := rfl
@[simp] theorem setV_rspValid (n : Nat) : (setV n s).rspValid = s.rspValid := rfl
@[simp] theorem setV_rsp (n : Nat) : (setV n s).rsp = s.rsp := rfl
@[simp] theorem setV_written (n : Nat) : (setV n s).written = s.written.writeBytes (Reg.base .v) (List.replicate 128 1) := by
  unfold setV
  rw [markWritten_written]
@[simp] theorem setV_cfg (n : Nat) : (setV n s).cfg = s.cfg := rfl
@[simp] theorem setV_hostProg (n : Nat) : (setV n s).hostProg = s.hostProg := rfl
@[simp] theorem setV_hostResp (n : Nat) : (setV n s).hostResp = s.hostResp := rfl
@[simp] theorem setV_turns (n : Nat) : (setV n s).turns = s.turns := rfl
@[simp] theorem setV_freeCount (n : Nat) : (setV n s).freeCount = s.freeCount := rfl

@[simp] theorem setP_ctrl (pt : G1) : (setP pt s).ctrl = s.ctrl := rfl
@[simp] theorem setP_status (pt : G1) : (setP pt s).status = s.status := rfl
@[simp] theorem setP_errinfo (pt : G1) : (setP pt s).errinfo = s.errinfo := rfl
@[simp] theorem setP_npub (pt : G1) : (setP pt s).npub = s.npub := rfl
@[simp] theorem setP_cinlen (pt : G1) : (setP pt s).cinlen = s.cinlen := rfl
@[simp] theorem setP_coutlen (pt : G1) : (setP pt s).coutlen = s.coutlen := rfl
@[simp] theorem setP_phase (pt : G1) : (setP pt s).phase = s.phase := rfl
@[simp] theorem setP_idx (pt : G1) : (setP pt s).idx = s.idx := rfl
@[simp] theorem setP_a (pt : G1) : (setP pt s).a = s.a := rfl
@[simp] theorem setP_b (pt : G1) : (setP pt s).b = s.b := rfl
@[simp] theorem setP_c (pt : G1) : (setP pt s).c = s.c := rfl
@[simp] theorem setP_pub (pt : G1) : (setP pt s).pub = s.pub := rfl
@[simp] theorem setP_nega (pt : G1) : (setP pt s).nega = s.nega := rfl
@[simp] theorem setP_vkx (pt : G1) : (setP pt s).vkx = s.vkx := rfl
@[simp] theorem setP_term (pt : G1) : (setP pt s).term = s.term := rfl
@[simp] theorem setP_p (pt : G1) : (setP pt s).p = pt := rfl
@[simp] theorem setP_q (pt : G1) : (setP pt s).q = s.q := rfl
@[simp] theorem setP_v (pt : G1) : (setP pt s).v = s.v := rfl
@[simp] theorem setP_cin (pt : G1) : (setP pt s).cin = s.cin := rfl
@[simp] theorem setP_cout (pt : G1) : (setP pt s).cout = s.cout := rfl
@[simp] theorem setP_reqSel (pt : G1) : (setP pt s).reqSel = s.reqSel := rfl
@[simp] theorem setP_reqPayload (pt : G1) : (setP pt s).reqPayload = s.reqPayload := rfl
@[simp] theorem setP_rspValid (pt : G1) : (setP pt s).rspValid = s.rspValid := rfl
@[simp] theorem setP_rsp (pt : G1) : (setP pt s).rsp = s.rsp := rfl
@[simp] theorem setP_written (pt : G1) : (setP pt s).written = s.written.writeBytes (Reg.base .p) (List.replicate 64 1) := by
  unfold setP
  rw [markWritten_written]
@[simp] theorem setP_cfg (pt : G1) : (setP pt s).cfg = s.cfg := rfl
@[simp] theorem setP_hostProg (pt : G1) : (setP pt s).hostProg = s.hostProg := rfl
@[simp] theorem setP_hostResp (pt : G1) : (setP pt s).hostResp = s.hostResp := rfl
@[simp] theorem setP_turns (pt : G1) : (setP pt s).turns = s.turns := rfl
@[simp] theorem setP_freeCount (pt : G1) : (setP pt s).freeCount = s.freeCount := rfl

@[simp] theorem setVkx_ctrl (pt : G1) : (setVkx pt s).ctrl = s.ctrl := rfl
@[simp] theorem setVkx_status (pt : G1) : (setVkx pt s).status = s.status := rfl
@[simp] theorem setVkx_errinfo (pt : G1) : (setVkx pt s).errinfo = s.errinfo := rfl
@[simp] theorem setVkx_npub (pt : G1) : (setVkx pt s).npub = s.npub := rfl
@[simp] theorem setVkx_cinlen (pt : G1) : (setVkx pt s).cinlen = s.cinlen := rfl
@[simp] theorem setVkx_coutlen (pt : G1) : (setVkx pt s).coutlen = s.coutlen := rfl
@[simp] theorem setVkx_phase (pt : G1) : (setVkx pt s).phase = s.phase := rfl
@[simp] theorem setVkx_idx (pt : G1) : (setVkx pt s).idx = s.idx := rfl
@[simp] theorem setVkx_a (pt : G1) : (setVkx pt s).a = s.a := rfl
@[simp] theorem setVkx_b (pt : G1) : (setVkx pt s).b = s.b := rfl
@[simp] theorem setVkx_c (pt : G1) : (setVkx pt s).c = s.c := rfl
@[simp] theorem setVkx_pub (pt : G1) : (setVkx pt s).pub = s.pub := rfl
@[simp] theorem setVkx_nega (pt : G1) : (setVkx pt s).nega = s.nega := rfl
@[simp] theorem setVkx_vkx (pt : G1) : (setVkx pt s).vkx = pt := rfl
@[simp] theorem setVkx_term (pt : G1) : (setVkx pt s).term = s.term := rfl
@[simp] theorem setVkx_p (pt : G1) : (setVkx pt s).p = s.p := rfl
@[simp] theorem setVkx_q (pt : G1) : (setVkx pt s).q = s.q := rfl
@[simp] theorem setVkx_v (pt : G1) : (setVkx pt s).v = s.v := rfl
@[simp] theorem setVkx_cin (pt : G1) : (setVkx pt s).cin = s.cin := rfl
@[simp] theorem setVkx_cout (pt : G1) : (setVkx pt s).cout = s.cout := rfl
@[simp] theorem setVkx_reqSel (pt : G1) : (setVkx pt s).reqSel = s.reqSel := rfl
@[simp] theorem setVkx_reqPayload (pt : G1) : (setVkx pt s).reqPayload = s.reqPayload := rfl
@[simp] theorem setVkx_rspValid (pt : G1) : (setVkx pt s).rspValid = s.rspValid := rfl
@[simp] theorem setVkx_rsp (pt : G1) : (setVkx pt s).rsp = s.rsp := rfl
@[simp] theorem setVkx_written (pt : G1) : (setVkx pt s).written = s.written.writeBytes (Reg.base .vkx) (List.replicate 64 1) := by
  unfold setVkx
  rw [markWritten_written]
@[simp] theorem setVkx_cfg (pt : G1) : (setVkx pt s).cfg = s.cfg := rfl
@[simp] theorem setVkx_hostProg (pt : G1) : (setVkx pt s).hostProg = s.hostProg := rfl
@[simp] theorem setVkx_hostResp (pt : G1) : (setVkx pt s).hostResp = s.hostResp := rfl
@[simp] theorem setVkx_turns (pt : G1) : (setVkx pt s).turns = s.turns := rfl
@[simp] theorem setVkx_freeCount (pt : G1) : (setVkx pt s).freeCount = s.freeCount := rfl

@[simp] theorem setTerm_ctrl (pt : G1) : (setTerm pt s).ctrl = s.ctrl := rfl
@[simp] theorem setTerm_status (pt : G1) : (setTerm pt s).status = s.status := rfl
@[simp] theorem setTerm_errinfo (pt : G1) : (setTerm pt s).errinfo = s.errinfo := rfl
@[simp] theorem setTerm_npub (pt : G1) : (setTerm pt s).npub = s.npub := rfl
@[simp] theorem setTerm_cinlen (pt : G1) : (setTerm pt s).cinlen = s.cinlen := rfl
@[simp] theorem setTerm_coutlen (pt : G1) : (setTerm pt s).coutlen = s.coutlen := rfl
@[simp] theorem setTerm_phase (pt : G1) : (setTerm pt s).phase = s.phase := rfl
@[simp] theorem setTerm_idx (pt : G1) : (setTerm pt s).idx = s.idx := rfl
@[simp] theorem setTerm_a (pt : G1) : (setTerm pt s).a = s.a := rfl
@[simp] theorem setTerm_b (pt : G1) : (setTerm pt s).b = s.b := rfl
@[simp] theorem setTerm_c (pt : G1) : (setTerm pt s).c = s.c := rfl
@[simp] theorem setTerm_pub (pt : G1) : (setTerm pt s).pub = s.pub := rfl
@[simp] theorem setTerm_nega (pt : G1) : (setTerm pt s).nega = s.nega := rfl
@[simp] theorem setTerm_vkx (pt : G1) : (setTerm pt s).vkx = s.vkx := rfl
@[simp] theorem setTerm_term (pt : G1) : (setTerm pt s).term = pt := rfl
@[simp] theorem setTerm_p (pt : G1) : (setTerm pt s).p = s.p := rfl
@[simp] theorem setTerm_q (pt : G1) : (setTerm pt s).q = s.q := rfl
@[simp] theorem setTerm_v (pt : G1) : (setTerm pt s).v = s.v := rfl
@[simp] theorem setTerm_cin (pt : G1) : (setTerm pt s).cin = s.cin := rfl
@[simp] theorem setTerm_cout (pt : G1) : (setTerm pt s).cout = s.cout := rfl
@[simp] theorem setTerm_reqSel (pt : G1) : (setTerm pt s).reqSel = s.reqSel := rfl
@[simp] theorem setTerm_reqPayload (pt : G1) : (setTerm pt s).reqPayload = s.reqPayload := rfl
@[simp] theorem setTerm_rspValid (pt : G1) : (setTerm pt s).rspValid = s.rspValid := rfl
@[simp] theorem setTerm_rsp (pt : G1) : (setTerm pt s).rsp = s.rsp := rfl
@[simp] theorem setTerm_written (pt : G1) : (setTerm pt s).written = s.written.writeBytes (Reg.base .term) (List.replicate 64 1) := by
  unfold setTerm
  rw [markWritten_written]
@[simp] theorem setTerm_cfg (pt : G1) : (setTerm pt s).cfg = s.cfg := rfl
@[simp] theorem setTerm_hostProg (pt : G1) : (setTerm pt s).hostProg = s.hostProg := rfl
@[simp] theorem setTerm_hostResp (pt : G1) : (setTerm pt s).hostResp = s.hostResp := rfl
@[simp] theorem setTerm_turns (pt : G1) : (setTerm pt s).turns = s.turns := rfl
@[simp] theorem setTerm_freeCount (pt : G1) : (setTerm pt s).freeCount = s.freeCount := rfl

@[simp] theorem setNega_ctrl (pt : G1) : (setNega pt s).ctrl = s.ctrl := rfl
@[simp] theorem setNega_status (pt : G1) : (setNega pt s).status = s.status := rfl
@[simp] theorem setNega_errinfo (pt : G1) : (setNega pt s).errinfo = s.errinfo := rfl
@[simp] theorem setNega_npub (pt : G1) : (setNega pt s).npub = s.npub := rfl
@[simp] theorem setNega_cinlen (pt : G1) : (setNega pt s).cinlen = s.cinlen := rfl
@[simp] theorem setNega_coutlen (pt : G1) : (setNega pt s).coutlen = s.coutlen := rfl
@[simp] theorem setNega_phase (pt : G1) : (setNega pt s).phase = s.phase := rfl
@[simp] theorem setNega_idx (pt : G1) : (setNega pt s).idx = s.idx := rfl
@[simp] theorem setNega_a (pt : G1) : (setNega pt s).a = s.a := rfl
@[simp] theorem setNega_b (pt : G1) : (setNega pt s).b = s.b := rfl
@[simp] theorem setNega_c (pt : G1) : (setNega pt s).c = s.c := rfl
@[simp] theorem setNega_pub (pt : G1) : (setNega pt s).pub = s.pub := rfl
@[simp] theorem setNega_nega (pt : G1) : (setNega pt s).nega = pt := rfl
@[simp] theorem setNega_vkx (pt : G1) : (setNega pt s).vkx = s.vkx := rfl
@[simp] theorem setNega_term (pt : G1) : (setNega pt s).term = s.term := rfl
@[simp] theorem setNega_p (pt : G1) : (setNega pt s).p = s.p := rfl
@[simp] theorem setNega_q (pt : G1) : (setNega pt s).q = s.q := rfl
@[simp] theorem setNega_v (pt : G1) : (setNega pt s).v = s.v := rfl
@[simp] theorem setNega_cin (pt : G1) : (setNega pt s).cin = s.cin := rfl
@[simp] theorem setNega_cout (pt : G1) : (setNega pt s).cout = s.cout := rfl
@[simp] theorem setNega_reqSel (pt : G1) : (setNega pt s).reqSel = s.reqSel := rfl
@[simp] theorem setNega_reqPayload (pt : G1) : (setNega pt s).reqPayload = s.reqPayload := rfl
@[simp] theorem setNega_rspValid (pt : G1) : (setNega pt s).rspValid = s.rspValid := rfl
@[simp] theorem setNega_rsp (pt : G1) : (setNega pt s).rsp = s.rsp := rfl
@[simp] theorem setNega_written (pt : G1) : (setNega pt s).written = s.written.writeBytes (Reg.base .nega) (List.replicate 64 1) := by
  unfold setNega
  rw [markWritten_written]
@[simp] theorem setNega_cfg (pt : G1) : (setNega pt s).cfg = s.cfg := rfl
@[simp] theorem setNega_hostProg (pt : G1) : (setNega pt s).hostProg = s.hostProg := rfl
@[simp] theorem setNega_hostResp (pt : G1) : (setNega pt s).hostResp = s.hostResp := rfl
@[simp] theorem setNega_turns (pt : G1) : (setNega pt s).turns = s.turns := rfl
@[simp] theorem setNega_freeCount (pt : G1) : (setNega pt s).freeCount = s.freeCount := rfl

@[simp] theorem setValid_ctrl (ok : Bool) : (setValid ok s).ctrl = s.ctrl := rfl
@[simp] theorem setValid_status (ok : Bool) : (setValid ok s).status = { s.status with valid := ok } := rfl
@[simp] theorem setValid_errinfo (ok : Bool) : (setValid ok s).errinfo = s.errinfo := rfl
@[simp] theorem setValid_npub (ok : Bool) : (setValid ok s).npub = s.npub := rfl
@[simp] theorem setValid_cinlen (ok : Bool) : (setValid ok s).cinlen = s.cinlen := rfl
@[simp] theorem setValid_coutlen (ok : Bool) : (setValid ok s).coutlen = s.coutlen := rfl
@[simp] theorem setValid_phase (ok : Bool) : (setValid ok s).phase = s.phase := rfl
@[simp] theorem setValid_idx (ok : Bool) : (setValid ok s).idx = s.idx := rfl
@[simp] theorem setValid_a (ok : Bool) : (setValid ok s).a = s.a := rfl
@[simp] theorem setValid_b (ok : Bool) : (setValid ok s).b = s.b := rfl
@[simp] theorem setValid_c (ok : Bool) : (setValid ok s).c = s.c := rfl
@[simp] theorem setValid_pub (ok : Bool) : (setValid ok s).pub = s.pub := rfl
@[simp] theorem setValid_nega (ok : Bool) : (setValid ok s).nega = s.nega := rfl
@[simp] theorem setValid_vkx (ok : Bool) : (setValid ok s).vkx = s.vkx := rfl
@[simp] theorem setValid_term (ok : Bool) : (setValid ok s).term = s.term := rfl
@[simp] theorem setValid_p (ok : Bool) : (setValid ok s).p = s.p := rfl
@[simp] theorem setValid_q (ok : Bool) : (setValid ok s).q = s.q := rfl
@[simp] theorem setValid_v (ok : Bool) : (setValid ok s).v = s.v := rfl
@[simp] theorem setValid_cin (ok : Bool) : (setValid ok s).cin = s.cin := rfl
@[simp] theorem setValid_cout (ok : Bool) : (setValid ok s).cout = s.cout := rfl
@[simp] theorem setValid_reqSel (ok : Bool) : (setValid ok s).reqSel = s.reqSel := rfl
@[simp] theorem setValid_reqPayload (ok : Bool) : (setValid ok s).reqPayload = s.reqPayload := rfl
@[simp] theorem setValid_rspValid (ok : Bool) : (setValid ok s).rspValid = s.rspValid := rfl
@[simp] theorem setValid_rsp (ok : Bool) : (setValid ok s).rsp = s.rsp := rfl
@[simp] theorem setValid_written (ok : Bool) : (setValid ok s).written = s.written := rfl
@[simp] theorem setValid_cfg (ok : Bool) : (setValid ok s).cfg = s.cfg := rfl
@[simp] theorem setValid_hostProg (ok : Bool) : (setValid ok s).hostProg = s.hostProg := rfl
@[simp] theorem setValid_hostResp (ok : Bool) : (setValid ok s).hostResp = s.hostResp := rfl
@[simp] theorem setValid_turns (ok : Bool) : (setValid ok s).turns = s.turns := rfl
@[simp] theorem setValid_freeCount (ok : Bool) : (setValid ok s).freeCount = s.freeCount := rfl

@[simp] theorem issueRequest_ctrl (call : EngineCall) : (issueRequest call s).ctrl = s.ctrl := rfl
@[simp] theorem issueRequest_status (call : EngineCall) : (issueRequest call s).status = { s.status with waiteng := true } := rfl
@[simp] theorem issueRequest_errinfo (call : EngineCall) : (issueRequest call s).errinfo = s.errinfo := rfl
@[simp] theorem issueRequest_npub (call : EngineCall) : (issueRequest call s).npub = s.npub := rfl
@[simp] theorem issueRequest_cinlen (call : EngineCall) : (issueRequest call s).cinlen = s.cinlen := rfl
@[simp] theorem issueRequest_coutlen (call : EngineCall) : (issueRequest call s).coutlen = s.coutlen := rfl
@[simp] theorem issueRequest_phase (call : EngineCall) : (issueRequest call s).phase = s.phase := rfl
@[simp] theorem issueRequest_idx (call : EngineCall) : (issueRequest call s).idx = s.idx := rfl
@[simp] theorem issueRequest_a (call : EngineCall) : (issueRequest call s).a = s.a := rfl
@[simp] theorem issueRequest_b (call : EngineCall) : (issueRequest call s).b = s.b := rfl
@[simp] theorem issueRequest_c (call : EngineCall) : (issueRequest call s).c = s.c := rfl
@[simp] theorem issueRequest_pub (call : EngineCall) : (issueRequest call s).pub = s.pub := rfl
@[simp] theorem issueRequest_nega (call : EngineCall) : (issueRequest call s).nega = s.nega := rfl
@[simp] theorem issueRequest_vkx (call : EngineCall) : (issueRequest call s).vkx = s.vkx := rfl
@[simp] theorem issueRequest_term (call : EngineCall) : (issueRequest call s).term = s.term := rfl
@[simp] theorem issueRequest_p (call : EngineCall) : (issueRequest call s).p = s.p := rfl
@[simp] theorem issueRequest_q (call : EngineCall) : (issueRequest call s).q = s.q := rfl
@[simp] theorem issueRequest_v (call : EngineCall) : (issueRequest call s).v = s.v := rfl
@[simp] theorem issueRequest_cin (call : EngineCall) : (issueRequest call s).cin = s.cin := rfl
@[simp] theorem issueRequest_cout (call : EngineCall) : (issueRequest call s).cout = s.cout := rfl
@[simp] theorem issueRequest_reqSel (call : EngineCall) : (issueRequest call s).reqSel = call.sel := rfl
@[simp] theorem issueRequest_reqPayload (call : EngineCall) : (issueRequest call s).reqPayload = call.payload := rfl
@[simp] theorem issueRequest_rspValid (call : EngineCall) : (issueRequest call s).rspValid = false := rfl
@[simp] theorem issueRequest_rsp (call : EngineCall) : (issueRequest call s).rsp = s.rsp := rfl
@[simp] theorem issueRequest_written (call : EngineCall) : (issueRequest call s).written = s.written := rfl
@[simp] theorem issueRequest_cfg (call : EngineCall) : (issueRequest call s).cfg = s.cfg := rfl
@[simp] theorem issueRequest_hostProg (call : EngineCall) : (issueRequest call s).hostProg = s.hostProg := rfl
@[simp] theorem issueRequest_hostResp (call : EngineCall) : (issueRequest call s).hostResp = s.hostResp := rfl
@[simp] theorem issueRequest_turns (call : EngineCall) : (issueRequest call s).turns = s.turns := rfl
@[simp] theorem issueRequest_freeCount (call : EngineCall) : (issueRequest call s).freeCount = s.freeCount := rfl

@[simp] theorem consumeResponse_ctrl : (consumeResponse s).ctrl = s.ctrl := rfl
@[simp] theorem consumeResponse_status : (consumeResponse s).status = { s.status with waiteng := false } := rfl
@[simp] theorem consumeResponse_errinfo : (consumeResponse s).errinfo = s.errinfo := rfl
@[simp] theorem consumeResponse_npub : (consumeResponse s).npub = s.npub := rfl
@[simp] theorem consumeResponse_cinlen : (consumeResponse s).cinlen = s.cinlen := rfl
@[simp] theorem consumeResponse_coutlen : (consumeResponse s).coutlen = s.coutlen := rfl
@[simp] theorem consumeResponse_phase : (consumeResponse s).phase = s.phase := rfl
@[simp] theorem consumeResponse_idx : (consumeResponse s).idx = s.idx := rfl
@[simp] theorem consumeResponse_a : (consumeResponse s).a = s.a := rfl
@[simp] theorem consumeResponse_b : (consumeResponse s).b = s.b := rfl
@[simp] theorem consumeResponse_c : (consumeResponse s).c = s.c := rfl
@[simp] theorem consumeResponse_pub : (consumeResponse s).pub = s.pub := rfl
@[simp] theorem consumeResponse_nega : (consumeResponse s).nega = s.nega := rfl
@[simp] theorem consumeResponse_vkx : (consumeResponse s).vkx = s.vkx := rfl
@[simp] theorem consumeResponse_term : (consumeResponse s).term = s.term := rfl
@[simp] theorem consumeResponse_p : (consumeResponse s).p = s.p := rfl
@[simp] theorem consumeResponse_q : (consumeResponse s).q = s.q := rfl
@[simp] theorem consumeResponse_v : (consumeResponse s).v = s.v := rfl
@[simp] theorem consumeResponse_cin : (consumeResponse s).cin = s.cin := rfl
@[simp] theorem consumeResponse_cout : (consumeResponse s).cout = s.cout := rfl
@[simp] theorem consumeResponse_reqSel : (consumeResponse s).reqSel = s.reqSel := rfl
@[simp] theorem consumeResponse_reqPayload : (consumeResponse s).reqPayload = s.reqPayload := rfl
@[simp] theorem consumeResponse_rspValid : (consumeResponse s).rspValid = false := rfl
@[simp] theorem consumeResponse_rsp : (consumeResponse s).rsp = s.rsp := rfl
@[simp] theorem consumeResponse_written : (consumeResponse s).written = s.written := rfl
@[simp] theorem consumeResponse_cfg : (consumeResponse s).cfg = s.cfg := rfl
@[simp] theorem consumeResponse_hostProg : (consumeResponse s).hostProg = s.hostProg := rfl
@[simp] theorem consumeResponse_hostResp : (consumeResponse s).hostResp = s.hostResp := rfl
@[simp] theorem consumeResponse_turns : (consumeResponse s).turns = s.turns := rfl
@[simp] theorem consumeResponse_freeCount : (consumeResponse s).freeCount = s.freeCount := rfl

@[simp] theorem tick_ctrl : (tick s).ctrl = s.ctrl := rfl
@[simp] theorem tick_status : (tick s).status = s.status := rfl
@[simp] theorem tick_errinfo : (tick s).errinfo = s.errinfo := rfl
@[simp] theorem tick_npub : (tick s).npub = s.npub := rfl
@[simp] theorem tick_cinlen : (tick s).cinlen = s.cinlen := rfl
@[simp] theorem tick_coutlen : (tick s).coutlen = s.coutlen := rfl
@[simp] theorem tick_phase : (tick s).phase = s.phase := rfl
@[simp] theorem tick_idx : (tick s).idx = s.idx := rfl
@[simp] theorem tick_a : (tick s).a = s.a := rfl
@[simp] theorem tick_b : (tick s).b = s.b := rfl
@[simp] theorem tick_c : (tick s).c = s.c := rfl
@[simp] theorem tick_pub : (tick s).pub = s.pub := rfl
@[simp] theorem tick_nega : (tick s).nega = s.nega := rfl
@[simp] theorem tick_vkx : (tick s).vkx = s.vkx := rfl
@[simp] theorem tick_term : (tick s).term = s.term := rfl
@[simp] theorem tick_p : (tick s).p = s.p := rfl
@[simp] theorem tick_q : (tick s).q = s.q := rfl
@[simp] theorem tick_v : (tick s).v = s.v := rfl
@[simp] theorem tick_cin : (tick s).cin = s.cin := rfl
@[simp] theorem tick_cout : (tick s).cout = s.cout := rfl
@[simp] theorem tick_reqSel : (tick s).reqSel = s.reqSel := rfl
@[simp] theorem tick_reqPayload : (tick s).reqPayload = s.reqPayload := rfl
@[simp] theorem tick_rspValid : (tick s).rspValid = s.rspValid := rfl
@[simp] theorem tick_rsp : (tick s).rsp = s.rsp := rfl
@[simp] theorem tick_written : (tick s).written = s.written := rfl
@[simp] theorem tick_cfg : (tick s).cfg = s.cfg := rfl
@[simp] theorem tick_hostProg : (tick s).hostProg = s.hostProg := rfl
@[simp] theorem tick_hostResp : (tick s).hostResp = s.hostResp := rfl
@[simp] theorem tick_turns : (tick s).turns = s.turns := rfl
@[simp] theorem tick_freeCount : (tick s).freeCount = s.freeCount + 1 := rfl

end Sys2Proof.Machine
end

