-- ==== Sys2Proof/Laws/Ops.lean ====
section
/-! SUPPORT. One lemma for each shared operation that says what it can do. -/

namespace Sys2Proof.Machine

theorem allWritten_iff (s : State) (off n : Nat) :
    allWritten s off n = true ↔ ∀ o, off ≤ o → o < off + n → s.written.read o = 1 := by
  unfold allWritten
  induction n generalizing off with
  | zero => simp [Memory.readBytes]; omega
  | succ n ih =>
    rw [Memory.readBytes, List.all_cons, Bool.and_eq_true, ih (off + 1), beq_iff_eq]
    constructor
    · rintro ⟨h1, h2⟩ o ho1 ho2
      rcases Nat.eq_or_lt_of_le ho1 with rfl | h
      · exact h1
      · exact h2 o h (by omega)
    · intro h
      exact ⟨h off (Nat.le_refl _) (by omega), fun o h1 h2 => h o (by omega) (by omega)⟩

theorem isWritten_iff (s : State) (o : Operand) : o.isWritten s = true ↔ bytesWritten s o.reg o.first o.len :=
  allWritten_iff s _ _

@[simp] theorem length_cinContent (s : State) : (cinContent s).length = s.cinlen.toNat := Memory.length_readBytes _ _ _

/-- Reading operands that are all written goes on. -/
theorem readThen_written {s : State} {ops : List Operand} (h : operandsWritten s ops) (t : State) :
    readThen ops s t = .next t := by
  have hf : ops.find? (fun o => !o.isWritten s) = none := by
    rw [List.find?_eq_none]
    intro o ho
    rw [(isWritten_iff s o).mpr (h o ho)]
    decide
  rw [readThen, hf]

/-- Reading operands, the first with an unwritten byte being `o`, is UnwrittenOperand. -/
theorem readThen_unwritten {s : State} {before after : List Operand} {o : Operand} (hb : operandsWritten s before)
    (ho : ¬ bytesWritten s o.reg o.first o.len) (t : State) :
    readThen (before ++ o :: after) s t = .fault (.unwrittenOperand o.reg) := by
  have hf : (before ++ o :: after).find? (fun o => !o.isWritten s) = some o := by
    rw [List.find?_append, List.find?_eq_none.mpr, Option.none_or, List.find?_cons_of_pos]
    · rw [Bool.not_eq_true', ← Bool.not_eq_true, isWritten_iff]
      exact ho
    · intro o' ho'
      rw [(isWritten_iff s o').mpr (hb o' ho')]
      decide
  rw [readThen, hf]

/-- What reading operands can do: go on, all being written, or fault at the first with an unwritten byte. -/
theorem readThen_cases (ops : List Operand) (s t : State) :
    (operandsWritten s ops ∧ readThen ops s t = .next t) ∨
    ∃ before o after, ops = before ++ o :: after ∧ operandsWritten s before ∧ ¬ bytesWritten s o.reg o.first o.len ∧
      readThen ops s t = .fault (.unwrittenOperand o.reg) := by
  by_cases h : operandsWritten s ops
  · exact .inl ⟨h, readThen_written h t⟩
  · have main : ∀ before rest, ops = before ++ rest → operandsWritten s before → ∃ before o after,
        ops = before ++ o :: after ∧ operandsWritten s before ∧ ¬ bytesWritten s o.reg o.first o.len := by
      intro before rest
      induction rest generalizing before with
      | nil => exact fun he hb => absurd (by rwa [he, List.append_nil]) h
      | cons o rest ih =>
        intro he hb
        by_cases ho : bytesWritten s o.reg o.first o.len
        · refine ih (before ++ [o]) (by rw [he, List.append_assoc]; rfl) fun o' ho' => ?_
          rcases List.mem_append.mp ho' with ho' | ho'
          · exact hb o' ho'
          · rwa [List.mem_singleton.mp ho']
        · exact ⟨before, o, rest, he, hb, ho⟩
    obtain ⟨before, o, after, he, hb, ho⟩ := main [] ops rfl fun _ ho => by cases ho
    exact .inr ⟨before, o, after, he, hb, ho, by rw [he]; exact readThen_unwritten hb ho t⟩

/-- Where reading operands gives a next state, they are all written and it is the one to go on to. -/
theorem readThen_eq_next {ops : List Operand} {s t u : State} (h : readThen ops s t = .next u) :
    operandsWritten s ops ∧ u = t := by
  rcases readThen_cases ops s t with ⟨hw, he⟩ | ⟨_, _, _, _, _, _, he⟩
  · rw [he] at h
    cases h
    exact ⟨hw, rfl⟩
  · rw [he] at h
    cases h

/-- The marks `markWritten` leaves. -/
theorem read_markWritten (off n : Nat) (s : State) (o : Nat) :
    (markWritten off n s).written.read o = if off ≤ o ∧ o < off + n then 1 else s.written.read o := by
  rw [markWritten_written, Memory.read_writeBytes, List.length_replicate]
  split_ifs with h
  · rw [List.getD_eq_getElem?_getD, List.getElem?_replicate, if_pos (by omega)]
    rfl
  · rfl

theorem nowWritten_markWritten (r : Reg) (k n : Nat) (s : State) :
    nowWritten r k n s (markWritten (r.base + k) n s) := fun o => read_markWritten _ _ s o

/-- Marks are never taken away by marking. -/
theorem bytesWritten_mono {s t : State} {r : Reg} {k n : Nat}
    (hw : ∀ o, s.written.read o = 1 → t.written.read o = 1) (h : bytesWritten s r k n) : bytesWritten t r k n :=
  fun o h1 h2 => hw o (h o h1 h2)

/-- Marking operands leaves marks where they are, and every operand written. -/
theorem markOperands_spec (ops : List Operand) (s : State) :
    (∀ o, s.written.read o = 1 → (markOperands ops s).written.read o = 1) ∧
    (∀ o ∈ ops, bytesWritten (markOperands ops s) o.reg o.first o.len) ∧
    markOperands ops s = { s with written := (markOperands ops s).written } := by
  induction ops generalizing s with
  | nil => exact ⟨fun _ h => h, fun _ h => (by cases h), rfl⟩
  | cons p ops ih =>
    obtain ⟨h1, h2, h3⟩ := ih (markWritten (p.reg.base + p.first) p.len s)
    refine ⟨fun o h => h1 o ?_, fun o ho => ?_, h3⟩
    · rw [read_markWritten]
      split_ifs
      · rfl
      · exact h
    · rcases List.mem_cons.mp ho with rfl | ho
      · intro a ha ha'
        refine h1 a ?_
        rw [read_markWritten, if_pos ⟨ha, ha'⟩]
      · exact h2 o ho

theorem complete_eq (s : State) : complete s = { s with status := completedStatus s.status, phase := .idle } := rfl

theorem raiseError_eq (e : ErrorClass) (info : Word) (s : State) : raiseError e info s = errorState e info s := rfl

theorem raiseHere_eq (e : ErrorClass) (s : State) : raiseHere e s = errorState e (errinfoOf s) s := rfl

/-- `putCOUT(r)` in full: what it does where the result fits and where it does not. -/
theorem putCout_spec (append : Bool) (r : List Byte) (s : State) (hr : r.length < 2 ^ 32) :
    putsCout append r s (.next (putCout append r s)) := by
  have main : ∀ k, k = coutStart append s → k + r.length < 2 ^ 32 →
      producedBytes append r s (complete (storeCout k r s)) := by
    intro k hk hlt
    refine ⟨?_, ?_, ?_, ?_, rfl, rfl, rfl⟩
    · rw [← hk, complete_coutlen, storeCout_coutlen, BitVec.toNat_ofNat, Nat.mod_eq_of_lt hlt]
    · rw [← hk, complete_cout, storeCout_cout, Memory.readBytes_writeBytes]
    · intro j hj
      rw [← hk] at hj
      rw [complete_cout, storeCout_cout, Memory.read_writeBytes, if_neg (by omega)]
    · intro o
      rw [← hk, complete_written, storeCout, read_markWritten, read_markWritten]
      by_cases h1 : 0x0014 ≤ o ∧ o < 0x0018
      · rw [if_pos (show Reg.base .coutlen ≤ o ∧ o < Reg.base .coutlen + 4 from h1), if_pos (.inl h1)]
      · rw [if_neg (show ¬ (Reg.base .coutlen ≤ o ∧ o < Reg.base .coutlen + 4) from h1)]
        exact if_congr (or_iff_right h1).symm rfl rfl
  unfold putsCout putCout
  cases append with
  | false =>
    refine ⟨fun _ => ⟨_, rfl, main 0 rfl (by omega)⟩, fun h => absurd (fun h' => by cases h') h⟩
  | true =>
    simp only [fitsCout, forall_const, if_true]
    by_cases h : s.coutlen.toNat + r.length > Config.coutCap
    · rw [if_pos h]
      exact ⟨fun h' => absurd h (by omega), fun _ => rfl⟩
    · rw [if_neg h]
      exact ⟨fun _ => ⟨_, rfl, main _ rfl (by have : Config.coutCap = 768 := rfl; omega)⟩, fun h' => absurd h' (by omega)⟩

/-- ERRINFO as R276 writes it: `(PHASE << 8) | IDX`. -/
theorem errinfoOf_eq (s : State) : errinfoOf s = (s.phase.code.setWidth 32 <<< 8) ||| s.idx.setWidth 32 := by
  unfold errinfoOf
  ext i hi
  simp only [BitVec.getElem_append, BitVec.getElem_or, BitVec.getElem_setWidth, BitVec.getElem_shiftLeft]
  by_cases h8 : i < 8
  · simp [h8, ← BitVec.getLsbD_eq_getElem]
  · have hidx : s.idx.getLsbD i = false := BitVec.getLsbD_of_ge _ _ (by omega)
    by_cases h16 : i - 8 < 8
    · simp [h8, h16, hidx, ← BitVec.getLsbD_eq_getElem]
    · have hphase : s.phase.code.getLsbD (i - 8) = false := BitVec.getLsbD_of_ge _ _ (by omega)
      simp [h8, h16, hidx, hphase]

theorem length_inputsOf (s : State) : (inputsOf s).length = s.npub.toNat := by
  simp [inputsOf]

theorem getElem?_inputsOf (s : State) (k : Nat) (h : k < s.npub.toNat) : (inputsOf s)[k]? = some (pubEntry s k) := by
  simp [inputsOf, h]

/-- IDX does not wrap below the capacity of PUB. -/
theorem toNat_idx_succ (idx : Byte) (n : Nat) (h : idx.toNat < n) (hn : n ≤ 64) : (idx + 1).toNat = idx.toNat + 1 := by
  rw [BitVec.toNat_add, show (1 : Byte).toNat = 1 from rfl, Nat.mod_eq_of_lt (by omega)]

end Sys2Proof.Machine
end

