-- ==== Sys2Proof/Laws/AddressMap.lean ====
section
/-! SUPPORT. Laws of the address map: the rows are disjoint, a register's bytes are where R65 puts them, and a byte in no
row is reserved. -/

namespace Sys2Proof.Machine

/-- The rows of the map in order, each ending before the next begins. -/
theorem addressMap_pairwise (cfg : Config) :
    (addressMap cfg).Pairwise (fun r1 r2 => r1.base + r1.size ≤ r2.base) := by
  simp [addressMap, Reg.all, mapRow, Reg.base, Reg.size, Config.npubMax]

theorem mem_addressMap (cfg : Config) (r : Reg) : mapRow cfg r ∈ addressMap cfg := by
  cases r <;> simp [addressMap, Reg.all]

/-- In a list of rows in order, the row that covers an offset is the one found. -/
theorem find_row (rows : List MapRow) (row : MapRow) (off : Nat)
    (h : rows.Pairwise (fun r1 r2 => r1.base + r1.size ≤ r2.base)) (hm : row ∈ rows) (hc : row.covers off = true) :
    rows.find? (fun r => r.covers off) = some row := by
  induction rows with
  | nil => cases hm
  | cons r rows ih =>
    rw [List.pairwise_cons] at h
    rw [List.find?_cons]
    rcases List.mem_cons.mp hm with rfl | hm
    · rw [hc]
    · have hr := h.1 row hm
      have hn : r.covers off = false := by
        simp only [MapRow.covers, Bool.and_eq_true, decide_eq_true_eq, Bool.and_eq_false_iff, decide_eq_false_iff_not]
          at hc ⊢
        omega
      rw [hn]
      exact ih h.2 hm

/-- The row found at an offset of a register is the register's. -/
theorem mapFind_reg (cfg : Config) (r : Reg) (off : Nat) (h1 : r.base ≤ off) (h2 : off < r.base + r.size cfg) :
    mapFind cfg off = some (mapRow cfg r) :=
  find_row _ _ _ (addressMap_pairwise cfg) (mem_addressMap cfg r) (by simp [MapRow.covers, mapRow, h1, h2])

/-- A row that is found is a register's and covers the offset. -/
theorem mapFind_some {cfg : Config} {off : Nat} {row : MapRow} (h : mapFind cfg off = some row) :
    ∃ r : Reg, row = mapRow cfg r ∧ r.base ≤ off ∧ off < r.base + r.size cfg := by
  unfold mapFind at h
  have hc := List.find?_some h
  obtain ⟨r, -, rfl⟩ := List.mem_map.mp (List.mem_of_find?_eq_some h)
  rw [MapRow.covers, Bool.and_eq_true] at hc
  exact ⟨r, rfl, of_decide_eq_true hc.1, of_decide_eq_true hc.2⟩

/-- No row is found at a reserved offset. -/
theorem mapFind_eq_none (cfg : Config) (off : Nat) :
    mapFind cfg off = none ↔ ∀ row ∈ addressMap cfg, row.covers off = false := by
  simp [mapFind, List.find?_eq_none]

/-- The byte of the window at an offset of a register. -/
theorem windowByte_reg (s : State) (r : Reg) (off : Nat) (h1 : r.base ≤ off) (h2 : off < r.base + r.size s.cfg) :
    windowByte s off = regByte s r (off - r.base) := by
  rw [windowByte, mapFind_reg s.cfg r off h1 h2]
  rfl

/-- Every row begins and ends at a multiple of four, so a word lies in one row or in none. -/
theorem four_dvd_reg (cfg : Config) (r : Reg) : r.base % 4 = 0 ∧ r.size cfg % 4 = 0 := by
  cases r
  case ic => exact ⟨rfl, by rw [Reg.size]; omega⟩
  all_goals simp [Reg.base, Reg.size, Config.npubMax]

/-- The four bytes of an aligned word have the row of its first byte. -/
theorem mapFind_word (cfg : Config) (off j : Nat) (ha : off % 4 = 0) (hj : j < 4) :
    mapFind cfg (off + j) = mapFind cfg off := by
  cases h : mapFind cfg off with
  | some row =>
    obtain ⟨r, rfl, h1, h2⟩ := mapFind_some h
    have := four_dvd_reg cfg r
    exact mapFind_reg cfg r (off + j) (by omega) (by omega)
  | none =>
    cases h' : mapFind cfg (off + j) with
    | none => rfl
    | some row =>
      obtain ⟨r, rfl, h1, h2⟩ := mapFind_some h'
      have := four_dvd_reg cfg r
      rw [mapFind_reg cfg r off (by omega) (by omega)] at h
      cases h

/-- A store at an offset of a register. -/
theorem storeAt_reg (s : State) (r : Reg) (off : Nat) (w : Word) (h1 : r.base ≤ off)
    (h2 : off < r.base + r.size s.cfg) : storeAt off w s = storeReg r (off - r.base) w s := by
  rw [storeAt, mapFind_reg s.cfg r off h1 h2]
  rfl

/-- Storing to a read-only register changes nothing (20_memory.md R67). -/
theorem storeReg_ro (r : Reg) (k : Nat) (w : Word) (s : State) (h : r.access = .ro) : storeReg r k w s = s := by
  cases r <;> first | rfl | cases h

/-- An access inside the window that is aligned gets no bus error. -/
theorem badAccess_false {addr : Nat} (h1 : addr % 4 = 0) (h2 : addr < 0x4000) : badAccess addr = false := by
  simp [badAccess, Config.windowBytes, h1, h2]

/-- The byte a host read returns: any value for an unwritten byte of a data register, and otherwise the window's. -/
theorem hostByte_cases (s : State) (off : Nat) :
    ((∃ row, mapFind s.cfg off = some row ∧ row.reg.tracked = true) ∧ s.written.read off ≠ 1 ∧
      hostByte s off = Config.freeByte s.freeCount off) ∨
    ((∀ row, mapFind s.cfg off = some row → row.reg.tracked = true → s.written.read off = 1) ∧
      hostByte s off = windowByte s off) := by
  have hw : allWritten s off 1 = true ↔ s.written.read off = 1 := by
    rw [allWritten_iff]
    exact ⟨fun h => h off (Nat.le_refl _) (by omega), fun h o h1 h2 => by rwa [show o = off by omega]⟩
  unfold hostByte windowByte
  cases hm : mapFind s.cfg off with
  | none => exact .inr ⟨fun _ h => (by cases h), rfl⟩
  | some row =>
    dsimp only
    split_ifs with hc
    · rw [Bool.and_eq_true, Bool.not_eq_true', ← Bool.not_eq_true, hw] at hc
      exact .inl ⟨⟨row, rfl, hc.1⟩, hc.2, rfl⟩
    · rw [Bool.and_eq_true, Bool.not_eq_true', ← Bool.not_eq_true, hw, not_and, not_not] at hc
      exact .inr ⟨fun _ h ht => (by cases h; exact hc ht), rfl⟩

/-- The byte a host read returns is the window's, but for an unwritten byte of a data register. -/
theorem hostByte_eq (s : State) (off : Nat)
    (h : ∀ row, mapFind s.cfg off = some row → row.reg.tracked = true → s.written.read off = 1) :
    hostByte s off = windowByte s off := by
  rcases hostByte_cases s off with ⟨⟨row, hm, ht⟩, hn, -⟩ | ⟨-, he⟩
  · exact absurd (h row hm ht) hn
  · exact he

/-- The host reads the STATUS word at its offset. -/
theorem hostWord_status (s : State) : hostWord s (Reg.base .status) = s.status.word := by
  have hb : ∀ k, k < 4 → hostByte s (Reg.base .status + k) = (wordBytes s.status.word).getD k 0 := by
    intro k hk
    have hm : mapFind s.cfg (Reg.base .status + k) = some (mapRow s.cfg .status) :=
      mapFind_reg s.cfg .status _ (Nat.le_add_right _ _) (by rw [Reg.size]; omega)
    rw [hostByte_eq s _ (fun row hr ht => by rw [hm] at hr; cases hr; cases ht),
      windowByte_reg s .status _ (Nat.le_add_right _ _) (by rw [Reg.size]; omega), Nat.add_sub_cancel_left]
    rfl
  have h0 := hb 0 (by omega)
  rw [hostWord, ← Nat.add_zero (Reg.base .status), h0, Nat.add_zero, hb 1 (by omega), hb 2 (by omega), hb 3 (by omega)]
  exact wordOfBytes_wordBytes s.status.word

/-- Bit 0 of the STATUS word is BUSY. -/
theorem busy_word (st : Status) : st.word.getLsbD 0 = st.busy := by
  unfold Status.word
  rw [BitVec.getLsbD_append]
  cases st.busy <;> rfl

/-- The wire form of a G1 register after a word of it is replaced. -/
theorem enc1_pokeG1 (p : G1) (k : Nat) (w : Word) (h : k + 4 ≤ 64) :
    enc1 (pokeG1 p k w) = patch (enc1 p) k (wordBytes w) :=
  enc1_g1OfImage _ (by rw [length_patch _ _ _ (by simpa using h), length_enc1])

/-- The wire form of a G2 register after a word of it is replaced. -/
theorem enc2_pokeG2 (q : G2) (k : Nat) (w : Word) (h : k + 4 ≤ 128) :
    enc2 (pokeG2 q k w) = patch (enc2 q) k (wordBytes w) :=
  enc2_g2OfImage _ (by rw [length_patch _ _ _ (by simpa using h), length_enc2])

/-- The wire form of an integer field after a word of it is replaced. -/
theorem enc256_pokeField (f : Field) (k : Nat) (w : Word) (h : k + 4 ≤ 32) :
    enc256 (pokeField f k w) = patch (enc256 f) k (wordBytes w) :=
  enc256_field256 _ (by rw [length_patch _ _ _ (by simpa using h), length_enc256])

/-- The wire form of V after a word of it is replaced. -/
theorem be_pokeV (v : WideInt) (k : Nat) (w : Word) (h : k + 4 ≤ 128) :
    be (pokeV v k w).toNat 128 = patch (be v.toNat 128) k (wordBytes w) := by
  have hl : (patch (be v.toNat 128) k (wordBytes w)).length = 128 := by
    rw [length_patch _ _ _ (by simpa using h), length_be]
  have hlt := unbe_lt (patch (be v.toNat 128) k (wordBytes w))
  rw [hl, show 256 ^ 128 = 2 ^ 1024 by rw [show (256 : Nat) = 2 ^ 8 from rfl, ← pow_mul]] at hlt
  rw [pokeV, BitVec.toNat_ofNat, Nat.mod_eq_of_lt hlt]
  exact be_unbe_of_length hl

end Sys2Proof.Machine
end

