-- ==== Sys2Proof/Laws/Decode.lean ====
section
/-! SUPPORT. Laws of the command words: what the fields of a packed word are, and that a word without reserved bits is
the packing of its fields. -/

namespace Sys2Proof.Machine

/-- The decoder on a command word's four bytes. -/
theorem decode_wordBytes (w : Word) : decode (wordBytes w) = decodeWord w := by
  show decodeWord (wordOfBytes _ _ _ _) = _
  rw [wordOfBytes_wordBytes]

theorem reservedField_packWord (opc width : Byte) (append : Bool) : reservedField (packWord opc width append) = 0 := by
  unfold packWord reservedField
  ext i hi
  simp only [BitVec.getElem_extractLsb', BitVec.getLsbD_append]
  simp [show ¬ (17 + i < 8) by omega, show ¬ (17 + i - 8 < 8) by omega, show ¬ (17 + i - 8 - 8 < 1) by omega]

theorem opcField_packWord (opc width : Byte) (append : Bool) : opcField (packWord opc width append) = opc := by
  unfold packWord opcField
  ext i hi
  simp only [BitVec.getElem_extractLsb', BitVec.getLsbD_append]
  simp [← BitVec.getLsbD_eq_getElem, hi]

theorem widthField_packWord (opc width : Byte) (append : Bool) : widthField (packWord opc width append) = width := by
  unfold packWord widthField
  ext i hi
  simp only [BitVec.getElem_extractLsb', BitVec.getLsbD_append]
  simp [← BitVec.getLsbD_eq_getElem, hi]

theorem appendField_packWord (opc width : Byte) (append : Bool) : appendField (packWord opc width append) = append := by
  unfold packWord appendField
  simp only [BitVec.getLsbD_append]
  cases append <;> rfl

/-- A word whose reserved bits are 0 is the packing of its fields. -/
theorem packWord_fields (w : Word) (h : reservedField w = 0) :
    packWord (opcField w) (widthField w) (appendField w) = w := by
  unfold packWord opcField widthField appendField
  ext i hi
  simp only [BitVec.getElem_append, BitVec.getElem_extractLsb']
  split_ifs with h1 h2 h3
  · rw [Nat.zero_add, BitVec.getLsbD_eq_getElem]
  · rw [← BitVec.getLsbD_eq_getElem]
    congr 1
    omega
  · have : i = 16 := by omega
    subst this
    simp
  · have hz := congrArg (fun v => v.getLsbD (i - 17)) h
    unfold reservedField at hz
    simp only [BitVec.getLsbD_extractLsb', show i - 17 < 15 by omega, decide_true, Bool.true_and,
      show 17 + (i - 17) = i by omega] at hz
    rw [← BitVec.getLsbD_eq_getElem hi, hz]
    simp

/-- A command word that decodes has no reserved bit set. -/
theorem reservedField_of_decodeWord {w : Word} {i : Instr} (h : decodeWord w = .instr i) : reservedField w = 0 := by
  by_contra hn
  rw [decodeWord, if_pos hn] at h
  cases h

/-- The decoder on a word by its fields: opcode by opcode, the reserved bits being 0. -/
theorem decodeWord_packWord (opc width : Byte) (append : Bool) :
    decodeWord (packWord opc width append) =
      if opc = 0x01 then decodeAppendable width (.strip append)
      else if opc = 0x02 then
        if 1 ≤ width.toNat ∧ width.toNat ≤ Config.cinCap then .instr (.encfix append width) else .reject .badWidth
      else if opc = 0x03 then decodePlain width append .decuint
      else if opc = 0x04 then decodeAppendable width (.concat append)
      else if opc = 0x08 then decodePlain width append .sdec
      else if opc = 0x09 then decodeAppendable width (.senc append)
      else if opc = 0x0A then decodePlain width append .g1dec
      else if opc = 0x0B then decodeAppendable width (.g1enc append)
      else if opc = 0x0C then decodeAppendable width (.g2enc append)
      else if opc = 0x10 then decodePlain width append .neg
      else if opc = 0x20 then decodePlain width append .verify
      else .reject .reservedOpcode := by
  unfold decodeWord
  rw [if_neg (not_not.mpr (reservedField_packWord opc width append)), opcField_packWord, widthField_packWord,
    appendField_packWord]

/-- A command with free A and W = 0 decodes from its packing only. -/
theorem decodeAppendable_eq {width : Byte} {i j : Instr} (h : decodeAppendable width i = .instr j) :
    width = 0 ∧ j = i := by
  unfold decodeAppendable at h
  split_ifs at h with hw
  cases h
  exact ⟨hw, rfl⟩

/-- A command with A = 0 and W = 0 decodes from its packing only. -/
theorem decodePlain_eq {width : Byte} {append : Bool} {i j : Instr} (h : decodePlain width append i = .instr j) :
    width = 0 ∧ append = false ∧ j = i := by
  unfold decodePlain at h
  split_ifs at h with hw ha
  cases h
  exact ⟨not_not.mp hw, by simpa using ha, rfl⟩

/-- What a command word decodes to, opcode by opcode (30_encoding.md R97). -/
theorem decodeWord_cases {w : Word} {i : Instr} (h : decodeWord w = .instr i) :
    (opcField w = 0x01 ∧ widthField w = 0 ∧ i = .strip (appendField w)) ∨
    (opcField w = 0x02 ∧ (1 ≤ (widthField w).toNat ∧ (widthField w).toNat ≤ Config.cinCap) ∧
      i = .encfix (appendField w) (widthField w)) ∨
    (opcField w = 0x03 ∧ widthField w = 0 ∧ appendField w = false ∧ i = .decuint) ∨
    (opcField w = 0x04 ∧ widthField w = 0 ∧ i = .concat (appendField w)) ∨
    (opcField w = 0x08 ∧ widthField w = 0 ∧ appendField w = false ∧ i = .sdec) ∨
    (opcField w = 0x09 ∧ widthField w = 0 ∧ i = .senc (appendField w)) ∨
    (opcField w = 0x0A ∧ widthField w = 0 ∧ appendField w = false ∧ i = .g1dec) ∨
    (opcField w = 0x0B ∧ widthField w = 0 ∧ i = .g1enc (appendField w)) ∨
    (opcField w = 0x0C ∧ widthField w = 0 ∧ i = .g2enc (appendField w)) ∨
    (opcField w = 0x10 ∧ widthField w = 0 ∧ appendField w = false ∧ i = .neg) ∨
    (opcField w = 0x20 ∧ widthField w = 0 ∧ appendField w = false ∧ i = .verify) := by
  have hr := reservedField_of_decodeWord h
  unfold decodeWord at h
  rw [if_neg (not_not.mpr hr)] at h
  by_cases h1 : opcField w = 0x01
  · rw [if_pos h1] at h; exact .inl ⟨h1, decodeAppendable_eq h⟩
  refine .inr ?_
  rw [if_neg h1] at h
  by_cases h2 : opcField w = 0x02
  · rw [if_pos h2] at h
    split_ifs at h with hw
    cases h
    exact .inl ⟨h2, hw, rfl⟩
  refine .inr ?_
  rw [if_neg h2] at h
  by_cases h3 : opcField w = 0x03
  · rw [if_pos h3] at h; exact .inl ⟨h3, decodePlain_eq h⟩
  refine .inr ?_
  rw [if_neg h3] at h
  by_cases h4 : opcField w = 0x04
  · rw [if_pos h4] at h; exact .inl ⟨h4, decodeAppendable_eq h⟩
  refine .inr ?_
  rw [if_neg h4] at h
  by_cases h5 : opcField w = 0x08
  · rw [if_pos h5] at h; exact .inl ⟨h5, decodePlain_eq h⟩
  refine .inr ?_
  rw [if_neg h5] at h
  by_cases h6 : opcField w = 0x09
  · rw [if_pos h6] at h; exact .inl ⟨h6, decodeAppendable_eq h⟩
  refine .inr ?_
  rw [if_neg h6] at h
  by_cases h7 : opcField w = 0x0A
  · rw [if_pos h7] at h; exact .inl ⟨h7, decodePlain_eq h⟩
  refine .inr ?_
  rw [if_neg h7] at h
  by_cases h8 : opcField w = 0x0B
  · rw [if_pos h8] at h; exact .inl ⟨h8, decodeAppendable_eq h⟩
  refine .inr ?_
  rw [if_neg h8] at h
  by_cases h9 : opcField w = 0x0C
  · rw [if_pos h9] at h; exact .inl ⟨h9, decodeAppendable_eq h⟩
  refine .inr ?_
  rw [if_neg h9] at h
  by_cases h10 : opcField w = 0x10
  · rw [if_pos h10] at h; exact .inl ⟨h10, decodePlain_eq h⟩
  refine .inr ?_
  rw [if_neg h10] at h
  by_cases h11 : opcField w = 0x20
  · rw [if_pos h11] at h; exact decodePlain_eq h |> fun h' => ⟨h11, h'⟩
  rw [if_neg h11] at h
  cases h

end Sys2Proof.Machine
end

