-- ==== Sys2Proof/Laws/PerInstr.lean ====
section
/-! SUPPORT. Statements made per instruction: the length of an instruction's encoding. -/

/-- A command is one word of four bytes and an engine request is a selector of one byte (30_encoding.md R96, R105). -/
def Sys2Proof.Laws.EncodingLength.Statement (i : Sys2Proof.Instr) : Prop :=
  (Sys2Proof.encode i).length =
    if i = .engAdd ∨ i = .engSmul ∨ i = .engPair then 1 else 4

theorem Sys2Proof.Laws.EncodingLength.strip (append : Bool) :
    Sys2Proof.Laws.EncodingLength.Statement (.strip append) := by cases append <;> rfl

theorem Sys2Proof.Laws.EncodingLength.encfix (append : Bool) (width : Sys2Proof.Byte) :
    Sys2Proof.Laws.EncodingLength.Statement (.encfix append width) := by
  unfold Sys2Proof.Laws.EncodingLength.Statement
  rw [if_neg (by simp)]
  rfl

theorem Sys2Proof.Laws.EncodingLength.decuint : Sys2Proof.Laws.EncodingLength.Statement .decuint := rfl

theorem Sys2Proof.Laws.EncodingLength.concat (append : Bool) :
    Sys2Proof.Laws.EncodingLength.Statement (.concat append) := by cases append <;> rfl

theorem Sys2Proof.Laws.EncodingLength.sdec : Sys2Proof.Laws.EncodingLength.Statement .sdec := rfl

theorem Sys2Proof.Laws.EncodingLength.senc (append : Bool) :
    Sys2Proof.Laws.EncodingLength.Statement (.senc append) := by cases append <;> rfl

theorem Sys2Proof.Laws.EncodingLength.g1dec : Sys2Proof.Laws.EncodingLength.Statement .g1dec := rfl

theorem Sys2Proof.Laws.EncodingLength.g1enc (append : Bool) :
    Sys2Proof.Laws.EncodingLength.Statement (.g1enc append) := by cases append <;> rfl

theorem Sys2Proof.Laws.EncodingLength.g2enc (append : Bool) :
    Sys2Proof.Laws.EncodingLength.Statement (.g2enc append) := by cases append <;> rfl

theorem Sys2Proof.Laws.EncodingLength.neg : Sys2Proof.Laws.EncodingLength.Statement .neg := rfl

theorem Sys2Proof.Laws.EncodingLength.verify : Sys2Proof.Laws.EncodingLength.Statement .verify := rfl

theorem Sys2Proof.Laws.EncodingLength.engAdd : Sys2Proof.Laws.EncodingLength.Statement .engAdd := rfl

theorem Sys2Proof.Laws.EncodingLength.engSmul : Sys2Proof.Laws.EncodingLength.Statement .engSmul := rfl

theorem Sys2Proof.Laws.EncodingLength.engPair : Sys2Proof.Laws.EncodingLength.Statement .engPair := rfl
end

