-- ==== Sys2Proof/Laws/Step.lean ====
section
/-! SUPPORT. What a step can do, said once: by agent, by host line, by command, and by phase of VERIFY. -/

namespace Sys2Proof.Machine

/-- The engine's step is its answer to the selector it sees, whatever the selector. -/
theorem runEngine_eq (s : State) : runEngine s = .next (answerRequest s.reqSel s) := by
  unfold runEngine decode decodeSelector
  dsimp only
  split_ifs with h1 h2 h3
  · rw [h1]; rfl
  · rw [h2]; rfl
  · rw [h3]; rfl
  · rfl

/-- The state an agent's step starts from: its turn is off the list. -/
def afterTurn (s : State) : State := { s with turns := s.turns.tail }

/-- What a step can do: nothing, reset, the host's step, the engine's answer, or the sequencer's step. -/
theorem step_cases {s t : State} (h : step s = .next t) :
    t = afterTurn s ∨
    (s.turns.head? = some .reset ∧ t = resetBlock (afterTurn s)) ∨
    hostStep (afterTurn s) = .next t ∨
    (engineMoves s = true ∧ t = answerRequest s.reqSel (tick (afterTurn s))) ∨
    (sequencerEnabled s = true ∧ runPhase (tick (afterTurn s)) = .next t) := by
  have main : ∀ u : Turn, (u = .reset → s.turns.head? = some .reset) → act u (afterTurn s) = .next t →
      t = afterTurn s ∨ (s.turns.head? = some .reset ∧ t = resetBlock (afterTurn s)) ∨
      hostStep (afterTurn s) = .next t ∨
      (engineMoves s = true ∧ t = answerRequest s.reqSel (tick (afterTurn s))) ∨
      (sequencerEnabled s = true ∧ runPhase (tick (afterTurn s)) = .next t) := by
    intro u hu ha
    cases u with
    | host => exact .inr (.inr (.inl ha))
    | sequencer =>
      rw [act] at ha
      split_ifs at ha with hs
      · exact .inr (.inr (.inr (.inr ⟨hs, ha⟩)))
      · cases ha
        exact .inl rfl
    | engine =>
      rw [act] at ha
      split_ifs at ha with hs
      · rw [runEngine_eq] at ha
        cases ha
        exact .inr (.inr (.inr (.inl ⟨hs, rfl⟩)))
      · cases ha
        exact .inl rfl
    | reset =>
      cases ha
      exact .inr (.inl ⟨hu rfl, rfl⟩)
  unfold step agentStep at h
  split at h
  · rename_i u ts hts
    refine main u (fun hu => by rw [hts, hu]; rfl) ?_
    rw [afterTurn, hts]
    exact h
  · rename_i hts
    have hs : afterTurn s = s := by rw [afterTurn, hts, List.tail_nil, ← hts]
    refine main (idleTurn s) (fun hu => ?_) (by rw [hs]; exact h)
    unfold idleTurn at hu
    split_ifs at hu

/-- Where a store goes: nowhere, or to a register the host may write. -/
theorem storeAt_cases (off : Nat) (w : Word) (s : State) :
    storeAt off w s = s ∨
    ∃ r : Reg, r.access = .rw ∧ r.base ≤ off ∧ off < r.base + r.size s.cfg ∧
      storeAt off w s = storeReg r (off - r.base) w s := by
  cases h : mapFind s.cfg off with
  | none => exact .inl (by rw [storeAt, h])
  | some row =>
    obtain ⟨r, rfl, h1, h2⟩ := mapFind_some h
    have hs := storeAt_reg s r off w h1 h2
    cases hr : r.access with
    | rw => exact .inr ⟨r, hr, h1, h2, hs⟩
    | ro => exact .inl (hs.trans (storeReg_ro r _ w s hr))

/-- What the host's step can do: nothing, a read, a write that a running command ignores, or a write to the idle
block. -/
theorem hostStep_cases {s t : State} (h : hostStep s = .next t) :
    t = s ∨
    (∃ prog resp, t = { s with hostProg := prog, hostResp := resp } ∧ ∃ line, s.hostProg = line :: s.hostProg.tail ∧
      ((prog = s.hostProg ∧ line = .wait ∧ s.status.busy = true) ∨
        (prog = s.hostProg.tail ∧ (line = .wait → s.status.busy = false)))) ∨
    (∃ addr w rest, s.hostProg = .wr addr w :: rest ∧ addr % 4 = 0 ∧ addr < 0x4000 ∧
      ((s.status.busy = true ∧
        t = { s with status := { s.status with haz := true }, hostProg := rest, hostResp := .written }) ∨
      (s.status.busy = false ∧ t = { storeAt addr w { s with hostProg := rest } with hostResp := .written }))) := by
  unfold hostStep at h
  split at h
  · cases h
    exact .inl rfl
  · rename_i addr rest hp
    unfold hostRead at h
    split_ifs at h with hb
    cases h
    refine .inr (.inl ⟨rest, _, rfl, .rd addr, by rw [hp]; rfl, .inr ⟨by rw [hp]; rfl, fun hl => by cases hl⟩⟩)
  · rename_i addr w rest hp
    unfold hostWrite at h
    split_ifs at h with hb hbusy
    all_goals
      have h1 : addr % 4 = 0 := by
        simp [badAccess] at hb
        exact hb.1
      have h2 : addr < 0x4000 := by
        simp [badAccess] at hb
        exact hb.2
      cases h
    · exact .inr (.inr ⟨addr, w, rest, hp, h1, h2, .inl ⟨hbusy, rfl⟩⟩)
    · exact .inr (.inr ⟨addr, w, rest, hp, h1, h2, .inr ⟨by simpa using hbusy, rfl⟩⟩)
  · rename_i rest hp
    have hb : (hostWord s (Reg.base .status)).getLsbD 0 = s.status.busy := by
      rw [hostWord_status, busy_word]
    rw [hb] at h
    unfold hostRead at h
    split_ifs at h with h1 h2
    all_goals cases h
    · exact .inr (.inl ⟨s.hostProg, _, rfl, .wait, by rw [hp]; rfl, .inl ⟨rfl, rfl, h2⟩⟩)
    · exact .inr (.inl ⟨rest, _, rfl, .wait, by rw [hp]; rfl, .inr ⟨by rw [hp]; rfl, fun _ => by simpa using h2⟩⟩)

/-- What `putCOUT(r)` can do. -/
theorem putCout_cases (append : Bool) (r : List Byte) (s : State) (hr : r.length ≤ Config.coutCap) :
    putCout append r s = raiseHere .capacityError s ∨
    ∃ k, k + r.length ≤ Config.coutCap ∧ putCout append r s = complete (storeCout k r s) := by
  unfold putCout
  split_ifs with h1 h2
  · exact .inl rfl
  · exact .inr ⟨_, by omega, rfl⟩
  · exact .inr ⟨0, by omega, rfl⟩

theorem length_strip_le (bs : List Byte) : (strip bs).length ≤ bs.length + 1 := by
  unfold strip
  split
  · simp
  · have := (List.dropWhile_sublist (l := bs) (fun b => b == 0)).length_le
    omega

/-- What putting the encoded V can do, the width being at most 128. -/
theorem putEncodedV_cases (append : Bool) (w : Nat) (s : State) (h1 : 1 ≤ w) (h2 : w ≤ 128) :
    (∃ e, e ≠ .none ∧ putEncodedV append w s = raiseHere e s) ∨
    ∃ k r, k + r.length ≤ Config.coutCap ∧ putEncodedV append w s = complete (storeCout k r s) := by
  unfold putEncodedV
  split
  · exact .inl ⟨.encodingError, by decide, rfl⟩
  · rename_i r he
    have hr : r.length ≤ Config.coutCap := by
      rw [((encodeFixed_eq_some _ _ _ h1).mp he).2, length_be]
      exact h2.trans (by decide)
    rcases putCout_cases append r s hr with h | ⟨k, hk, h⟩
    · exact .inl ⟨.capacityError, by decide, h⟩
    · exact .inr ⟨k, r, hk, h⟩

/-- What a command that runs in one step can do, the lengths being legal: read its operands, and then an error, bytes to
COUT, an integer to V, or a point to P. -/
theorem exec_single_cases {i : Instr} {s : State} (hi : singleStep i = true) (hw : i.wellFormed = true)
    (hc : s.cinlen.toNat ≤ Config.cinCap) :
    ∃ t, exec i s = readThen (commandReads s i) s t ∧
      ((∃ e, e ≠ .none ∧ t = raiseHere e s) ∨
      (∃ k r, k + r.length ≤ Config.coutCap ∧ t = complete (storeCout k r s)) ∨
      (∃ n, t = complete (setV n s)) ∨ (∃ p, t = complete (setP p s))) := by
  have hcap : Config.cinCap = 128 := rfl
  have hcout : Config.coutCap = 768 := rfl
  have hcin := length_cinContent s
  have put : ∀ (append : Bool) (r : List Byte), r.length ≤ Config.coutCap →
      (∃ e, e ≠ .none ∧ putCout append r s = raiseHere e s) ∨
      (∃ k r', k + r'.length ≤ Config.coutCap ∧ putCout append r s = complete (storeCout k r' s)) := by
    intro append r hr
    rcases putCout_cases append r s hr with h | ⟨k, hk, h⟩
    · exact .inl ⟨.capacityError, by decide, h⟩
    · exact .inr ⟨k, r, hk, h⟩
  cases i with
  | strip append =>
    refine ⟨_, rfl, ?_⟩
    split_ifs
    · exact .inl ⟨.emptyInput, by decide, rfl⟩
    · have hl := length_strip_le (cinContent s)
      exact (put append (strip (cinContent s)) (by omega)).imp_right .inl
  | encfix append width =>
    simp only [Instr.wellFormed, Bool.and_eq_true, decide_eq_true_eq] at hw
    exact ⟨_, rfl, (putEncodedV_cases append width.toNat s hw.1 hw.2).imp_right .inl⟩
  | decuint => exact ⟨_, rfl, .inr (.inr (.inl ⟨_, rfl⟩))⟩
  | concat append => exact ⟨_, rfl, (put append (cinContent s) (by omega)).imp_right .inl⟩
  | sdec =>
    refine ⟨_, rfl, ?_⟩
    split
    · exact .inl ⟨.formatError, by decide, rfl⟩
    · exact .inr (.inr (.inl ⟨_, rfl⟩))
  | senc append => exact ⟨_, rfl, (putEncodedV_cases append 32 s (by omega) (by omega)).imp_right .inl⟩
  | g1dec =>
    refine ⟨_, rfl, ?_⟩
    split
    · exact .inl ⟨.formatError, by decide, rfl⟩
    · exact .inr (.inr (.inr ⟨_, rfl⟩))
  | g1enc append => exact ⟨_, rfl, (put append (enc1 s.p) (by rw [length_enc1]; omega)).imp_right .inl⟩
  | g2enc append => exact ⟨_, rfl, (put append (enc2 s.q) (by rw [length_enc2]; omega)).imp_right .inl⟩
  | neg => exact ⟨_, rfl, .inr (.inr (.inr ⟨_, rfl⟩))⟩
  | verify => cases hi
  | engAdd => cases hi
  | engSmul => cases hi
  | engPair => cases hi

/-! The phases of VERIFY, each by what its step can do where it gives a next state. -/

theorem phaseLen_cases {s t : State} (h : phaseLen s = .next t) :
    operandsWritten s [⟨.npub, 0, 4⟩] ∧
    ((s.npub.toNat + 1 ≠ s.cfg.vk.ic.length ∧ t = raiseHere .inputLengthMismatch s) ∨
      (s.npub.toNat + 1 = s.cfg.vk.ic.length ∧ t = { s with idx := 0, phase := .vRange })) := by
  obtain ⟨hw, rfl⟩ := readThen_eq_next h
  refine ⟨hw, ?_⟩
  split_ifs with h1
  · exact .inl ⟨h1, rfl⟩
  · exact .inr ⟨not_not.mp h1, rfl⟩

theorem phaseRange_cases {s t : State} (h : phaseRange s = .next t) :
    (s.idx.toNat = s.npub.toNat ∧ t = { s with phase := .vLcinit }) ∨
    (s.idx.toNat ≠ s.npub.toNat ∧ s.idx.toNat < 64 ∧ operandsWritten s (pubReads s.idx.toNat) ∧
      ((s.cfg.scalarR ≤ (pubEntry s s.idx.toNat).toNat ∧ t = raiseHere .scalarFieldOverflow s) ∨
        ((pubEntry s s.idx.toNat).toNat < s.cfg.scalarR ∧ t = { s with idx := s.idx + 1 }))) := by
  unfold phaseRange at h
  split_ifs at h with h1 h2 h3
  · cases h
    exact .inl ⟨h1, rfl⟩
  · obtain ⟨hw, rfl⟩ := readThen_eq_next h
    exact .inr ⟨h1, h2, hw, .inl ⟨h3, rfl⟩⟩
  · obtain ⟨hw, rfl⟩ := readThen_eq_next h
    exact .inr ⟨h1, h2, hw, .inr ⟨Nat.not_le.mp h3, rfl⟩⟩

theorem phaseLcinit_cases {s t : State} (h : phaseLcinit s = .next t) :
    ∃ p, s.cfg.vk.ic[0]? = some p ∧
      t = { setVkx p s with idx := 0, phase := if s.npub.toNat > 0 then .vSmul else .vNeg } := by
  unfold phaseLcinit at h
  cases hp : s.cfg.vk.ic[0]? with
  | none =>
    rw [hp] at h
    cases h
  | some p =>
    rw [hp] at h
    cases h
    exact ⟨p, rfl, rfl⟩

/-- A phase with an engine request issues, or waits, or consumes. -/
theorem enginePhase_cases {issue consume : State → Host.Outcome State Fault Refusal} {s t : State}
    (h : enginePhase issue consume s = .next t) :
    (s.status.waiteng = false ∧ issue s = .next t) ∨
    (s.status.waiteng = true ∧ s.rspValid = false ∧ t = s) ∨
    (s.status.waiteng = true ∧ s.rspValid = true ∧ consume s = .next t) := by
  unfold enginePhase at h
  split_ifs at h with h1 h2
  · exact .inr (.inr ⟨h1, h2, h⟩)
  · cases h
    exact .inr (.inl ⟨h1, by simpa using h2, rfl⟩)
  · exact .inl ⟨by simpa using h1, h⟩

theorem issueSmul_cases {s t : State} (h : issueSmul s = .next t) :
    s.idx.toNat < 64 ∧ operandsWritten s (pubReads s.idx.toNat) ∧ ∃ p, s.cfg.vk.ic[s.idx.toNat + 1]? = some p ∧
      t = issueRequest (smulCall p (pubEntry s s.idx.toNat)) s := by
  unfold issueSmul at h
  split at h
  · cases h
  · rename_i p hp
    split_ifs at h with hk
    obtain ⟨hw, rfl⟩ := readThen_eq_next h
    exact ⟨hk, hw, p, hp, rfl⟩

theorem consumeSmul_cases {s t : State} (h : consumeSmul s = .next t) :
    (∃ e, readPoint s.rsp = .error e ∧ t = raiseHere e s) ∨
    (∃ p, readPoint s.rsp = .value p ∧ t = { setTerm p (consumeResponse s) with phase := .vAdd }) := by
  unfold consumeSmul at h
  cases hr : readPoint s.rsp with
  | error e =>
    rw [hr] at h
    cases h
    exact .inl ⟨e, rfl, rfl⟩
  | value p =>
    rw [hr] at h
    cases h
    exact .inr ⟨p, rfl, rfl⟩

theorem issueAdd_cases {s t : State} (h : issueAdd s = .next t) :
    operandsWritten s addReads ∧ t = issueRequest (addCall s.vkx s.term) s := readThen_eq_next h

theorem consumeAdd_cases {s t : State} (h : consumeAdd s = .next t) :
    (∃ e, readPoint s.rsp = .error e ∧ t = raiseHere e s) ∨
    (∃ p, readPoint s.rsp = .value p ∧
      ((s.idx.toNat + 1 < s.npub.toNat ∧
        t = { setVkx p (consumeResponse s) with idx := s.idx + 1, phase := .vSmul }) ∨
      (¬ s.idx.toNat + 1 < s.npub.toNat ∧ t = { setVkx p (consumeResponse s) with phase := .vNeg }))) := by
  unfold consumeAdd at h
  cases hr : readPoint s.rsp with
  | error e =>
    rw [hr] at h
    cases h
    exact .inl ⟨e, rfl, rfl⟩
  | value p =>
    rw [hr] at h
    dsimp only at h
    split_ifs at h with hi
    · cases h
      exact .inr ⟨p, rfl, .inl ⟨hi, rfl⟩⟩
    · cases h
      exact .inr ⟨p, rfl, .inr ⟨hi, rfl⟩⟩

theorem phaseNeg_cases {s t : State} (h : phaseNeg s = .next t) :
    operandsWritten s [⟨.a, 0, 64⟩] ∧ t = { setNega (negate s.cfg.baseP s.a) s with phase := .vPair } := readThen_eq_next h

theorem issuePair_cases {s t : State} (h : issuePair s = .next t) :
    operandsWritten s pairReads ∧ t = issueRequest (pairCall s.cfg.pairLayout (g1Args s) (g2Args s)) s :=
  readThen_eq_next h

theorem consumePair_cases {s t : State} (h : consumePair s = .next t) :
    (∃ e, readBool s.rsp = .error e ∧ t = raiseHere e s) ∨
    (∃ ok, readBool s.rsp = .value ok ∧ t = complete (setValid ok (consumeResponse s))) := by
  unfold consumePair at h
  cases hr : readBool s.rsp with
  | error e =>
    rw [hr] at h
    cases h
    exact .inl ⟨e, rfl, rfl⟩
  | value ok =>
    rw [hr] at h
    cases h
    exact .inr ⟨ok, rfl, rfl⟩

/-- The errors a response raises are errors (42_engine_interface.md R198). -/
theorem readPoint_error {r : EngineResponse} {e : ErrorClass} (h : readPoint r = .error e) : e ≠ .none := by
  unfold readPoint at h
  split at h
  · cases h
    decide
  · split at h
    · cases h
      decide
    · cases h

/-- The errors a response raises are errors (42_engine_interface.md R199). -/
theorem readBool_error {r : EngineResponse} {e : ErrorClass} (h : readBool r = .error e) : e ≠ .none := by
  unfold readBool at h
  split at h
  · cases h
    decide
  · split_ifs at h
    cases h
    decide

end Sys2Proof.Machine
end

