-- ==== Sys2Proof/Tests/Slice0.lean ====
section
/-! SUPPORT. The package's own tests, each with its source in spec/, and for every statement with hypotheses a witness
that meets them. -/

namespace Sys2Proof.Tests

open Sys2Proof.Machine

-- One thread: many kernel evaluations at once, each with its own stack, do not fit the memory limit.
set_option Elab.async false

/-! ## Well-formedness: each check refuses an ill-formed term (30_encoding.md R98) -/

theorem test_wellFormed_refuses_width_0 : (Instr.encfix false 0).wellFormed = false := by decide

theorem test_wellFormed_refuses_width_129 : (Instr.encfix true 129).wellFormed = false := by decide

theorem test_wellFormed_accepts_width_128 : (Instr.encfix true 128).wellFormed = true := by decide

/-! ## Decoding: each word is written out as bits 31:17, A, W, OPC by 30_encoding.md R96 to R99 -/

theorem test_decode_strip_append :
    decode (wordBytes 0b000000000000000_1_00000000_00000001) = .instr (.strip true) := by decide

theorem test_decode_encfix_128 :
    decode (wordBytes 0b000000000000000_0_10000000_00000010) = .instr (.encfix false 128) := by decide

theorem test_decode_decuint :
    decode (wordBytes 0b000000000000000_0_00000000_00000011) = .instr .decuint := by decide

theorem test_decode_concat :
    decode (wordBytes 0b000000000000000_0_00000000_00000100) = .instr (.concat false) := by decide

theorem test_decode_sdec :
    decode (wordBytes 0b000000000000000_0_00000000_00001000) = .instr .sdec := by decide

theorem test_decode_senc_append :
    decode (wordBytes 0b000000000000000_1_00000000_00001001) = .instr (.senc true) := by decide

theorem test_decode_g1dec :
    decode (wordBytes 0b000000000000000_0_00000000_00001010) = .instr .g1dec := by decide

theorem test_decode_g1enc :
    decode (wordBytes 0b000000000000000_0_00000000_00001011) = .instr (.g1enc false) := by decide

theorem test_decode_g2enc_append :
    decode (wordBytes 0b000000000000000_1_00000000_00001100) = .instr (.g2enc true) := by decide

theorem test_decode_neg :
    decode (wordBytes 0b000000000000000_0_00000000_00010000) = .instr .neg := by decide

theorem test_decode_verify :
    decode (wordBytes 0b000000000000000_0_00000000_00100000) = .instr .verify := by decide

/-- The selectors of 30_encoding.md R105, and a selector that is none of them. -/
theorem test_decode_selectors :
    [decode [0x01], decode [0x02], decode [0x03], decode [0x04]] =
      [.instr .engAdd, .instr .engSmul, .instr .engPair, .reject .reservedSelector] := by decide

/-- 95_test_vectors.md section 5: the words that are not legal. -/
theorem test_decode_illegal :
    [0x00000000, 0x00000101, 0x00000002, 0x00008102, 0x0000FF02, 0x00010003, 0x00000005, 0x0000000D, 0x00010010,
      0x00000011, 0x00010020, 0x00020020, 0x80000020, 0x00000120, 0x000000FF].map
      (fun w : Word => (decode (wordBytes w)).toOption) = List.replicate 15 none := by decide

/-! ## One step on small states -/

/-- What a next state shows, if there is one. -/
def after {α : Type} (out : Host.Outcome State Fault Refusal) (f : State → α) : Option α :=
  match out with
  | .next t => some (f t)
  | .fault _ => none
  | .refused _ => none

theorem after_next {α : Type} {out : Host.Outcome State Fault Refusal} {f : State → α} {v : α}
    (h : after out f = some v) : ∃ t, out = .next t ∧ f t = v := by
  cases out with
  | next t => exact ⟨t, rfl, Option.some.inj h⟩
  | fault r => cases h
  | refused r => cases h

/-- The command word `w` run in a state. -/
def runWord (w : Nat) (s : State) : Host.Outcome State Fault Refusal := step (s.withFetchWord 32 w)

/-- The marks of `n` written bytes. -/
def marks (off : Nat) : Nat → Memory
  | 0 => []
  | n + 1 => (off, 1) :: marks (off + 1) n

/-- A state with a written content of CIN. -/
def withInput (bs : List Byte) : State :=
  { State.reset with
    cin := Memory.writeBytes [] 0 bs
    cinlen := BitVec.ofNat 32 bs.length
    written := marks 0x0010 4 ++ marks 0x0380 bs.length }

/-- A state with a written V. -/
def withV (n : Nat) : State := { State.reset with v := BitVec.ofNat 1024 n, written := marks 0x0300 128 }

/-- A state with a written P. -/
def withP (p : G1) : State := { State.reset with p := p, written := marks 0x0200 64 }

/-- A state with a written Q. -/
def withQ (q : G2) : State := { State.reset with q := q, written := marks 0x0240 128 }

/-- A state with a content of COUT that ends at `n`, COUTLEN being written. -/
def withOutput (bs : List Byte) (n : Nat) (s : State) : State :=
  markWritten 0x0014 4 { s with cout := Memory.writeBytes [] 0 bs, coutlen := BitVec.ofNat 32 n }

/-- COUT's content with STATUS and ERRINFO. -/
def report (t : State) : List Byte × Nat × Nat := (coutContent t, t.status.word.toNat, t.errinfo.toNat)

/-- COUTLEN with STATUS and ERRINFO. -/
def brief (t : State) : Nat × Nat × Nat := (t.coutlen.toNat, t.status.word.toNat, t.errinfo.toNat)

/-- BC-S1. -/
theorem test_strip : after (runWord 0x00000001 (withInput [0, 0, 1, 2])) report = some ([1, 2], 0x00010002, 0) := by
  decide +kernel

/-- BC-S7. -/
theorem test_strip_append_full :
    after (runWord 0x00010001 (withOutput [] 768 (withInput [5]))) brief = some (768, 0x00011102, 0x100) := by
  decide +kernel

/-- BC-E7. -/
theorem test_encfix :
    after (runWord 0x00002102 (withV (2 ^ 256))) report =
      some (1 :: List.replicate 32 0, 0x00020002, 0) := by decide +kernel

/-- BC-E11: EncodingError, not CapacityError. -/
theorem test_encfix_too_wide :
    after (runWord 0x00012002 (withOutput [] 740 (withV (2 ^ 256)))) brief =
      some (740, 0x00020202, 0x100) := by decide +kernel

/-- BC-D1. -/
theorem test_decuint :
    after (runWord 0x00000003 (withInput [0, 1, 0])) (fun t => (t.v.toNat, t.status.word.toNat)) =
      some (256, 0x00030002) := by decide +kernel

/-- BC-D2. -/
theorem test_decuint_empty :
    after (runWord 0x00000003 { withInput [] with v := 9 }) (fun t => (t.v.toNat, t.status.word.toNat)) =
      some (0, 0x00030002) := by decide +kernel

/-- BC-C1. -/
theorem test_concat_append :
    after (runWord 0x00010004 (withOutput [0xAA, 0xBB] 2 (withInput [0xCC]))) report =
      some ([0xAA, 0xBB, 0xCC], 0x00040002, 0) := by decide +kernel

/-- BC-C6. -/
theorem test_concat_replace :
    after (runWord 0x00000004 (withOutput [1, 2, 3, 4, 5, 6, 7, 8, 9] 9 (withInput [0x12, 0x34]))) report =
      some ([0x12, 0x34], 0x00040002, 0) := by decide +kernel

/-- PC-S1. -/
theorem test_sdec :
    after (runWord 0x00000008 (withInput (List.replicate 31 0 ++ [7]))) (fun t => (t.v.toNat, t.status.word.toNat)) =
      some (7, 0x00080002) := by decide +kernel

/-- PC-S2. -/
theorem test_sdec_short :
    after (runWord 0x00000008 (withInput (List.replicate 31 7)))
      (fun t => (t.v.toNat, t.status.word.toNat, t.errinfo.toNat)) = some (0, 0x00080102, 0x100) := by decide +kernel

/-- PC-E1. -/
theorem test_senc :
    after (runWord 0x00000009 (withV 7)) report =
      some (List.replicate 31 0 ++ [7], 0x00090002, 0) := by decide +kernel

/-- PC-E4. -/
theorem test_senc_append_full :
    after (runWord 0x00010009 (withOutput [] 737 (withV 5))) brief =
      some (737, 0x00091102, 0x100) := by decide +kernel

/-- PC-G1. -/
theorem test_g1dec :
    after (runWord 0x0000000A (withInput (List.replicate 31 0 ++ [1] ++ List.replicate 31 0 ++ [2])))
      (fun t => (t.p, t.status.word.toNat)) = some (⟨1, 2⟩, 0x000A0002) := by decide +kernel

/-- PC-G2. -/
theorem test_g1dec_short :
    after (runWord 0x0000000A (withInput (List.replicate 63 1))) (fun t => (t.p, t.status.word.toNat)) =
      some (⟨0, 0⟩, 0x000A0102) := by decide +kernel

/-- PC-P1. -/
theorem test_g1enc :
    after (runWord 0x0000000B (withP ⟨1, 2⟩)) report =
      some (List.replicate 31 0 ++ [1] ++ List.replicate 31 0 ++ [2], 0x000B0002, 0) := by decide +kernel

/-- PC-P4. -/
theorem test_g1enc_append_full :
    after (runWord 0x0001000B (withOutput [] 705 (withP ⟨1, 2⟩))) brief =
      some (705, 0x000B1102, 0x100) := by decide +kernel

/-- PC-Q1. -/
theorem test_g2enc :
    after (runWord 0x0000000C (withQ ⟨1, 2, 3, 4⟩)) report =
      some (List.replicate 31 0 ++ [1] ++ List.replicate 31 0 ++ [2] ++ List.replicate 31 0 ++ [3] ++
        List.replicate 31 0 ++ [4], 0x000C0002, 0) := by decide +kernel

/-- PC-Q2. -/
theorem test_g2enc_append_full :
    after (runWord 0x0001000C (withOutput [] 641 (withQ ⟨1, 2, 3, 4⟩))) brief =
      some (641, 0x000C1102, 0x100) := by decide +kernel

/-- NG-1. -/
theorem test_neg :
    after (runWord 0x00000010 (withP ⟨1, 2⟩)) (fun t => (t.p, t.status.word.toNat)) =
      some (⟨1, 0x30644e72e131a029b85045b68181585d97816a916871ca8d3c208c16d87cfd45⟩, 0x00100002) := by decide +kernel

/-- NG-8. -/
theorem test_neg_large :
    after (runWord 0x00000010 (withP ⟨7, BitVec.allOnes 256⟩)) (fun t => t.p.y) =
      some 0x2259d6b14729c0fa51e1a247090812318d087f6872aabf4f68c3488912edefab := by decide +kernel

/-- The mock configuration K of 95_test_vectors.md section 6, with answers of the mock engine M. -/
def mockCfg : Config :=
  { Config.default with
    vk := ⟨⟨100, 101⟩, ⟨1, 2, 3, 4⟩, ⟨5, 6, 7, 8⟩, ⟨9, 10, 11, 12⟩, [⟨10, 20⟩, ⟨1, 2⟩, ⟨3, 4⟩]⟩
    engineTable := [⟨⟨0x02, be 1 32 ++ be 2 32 ++ be 5 32⟩, .ok (be 5 32 ++ be 10 32)⟩,
      ⟨⟨0x01, be 10 32 ++ be 20 32 ++ be 5 32 ++ be 10 32⟩, .ok (be 15 32 ++ be 30 32)⟩] }

/-- The mock proof and inputs of 95_test_vectors.md section 6, VERIFY being in a phase. -/
def mockAt (ph : Phase) (idx : Byte) : State :=
  { startCommand 0x00000020 State.reset with
    cfg := mockCfg, a := ⟨30, 40⟩, b := ⟨13, 14, 15, 16⟩, c := ⟨50, 60⟩, npub := 2
    pub := ((Vector.replicate 64 0).setIfInBounds 0 5).setIfInBounds 1 7
    vkx := ⟨15, 30⟩, term := ⟨5, 10⟩, phase := ph, idx := idx
    written := marks 0x000C 4 ++ marks 0x0040 448 ++ marks 0x0800 64 }

/-- `s` with an answered request. -/
def answered (rsp : EngineResponse) (s : State) : State :=
  { s with status := { s.status with waiteng := true }, rspValid := true, rsp := rsp }

/-- `s` with an outstanding request. -/
def waiting (s : State) : State := { s with status := { s.status with waiteng := true }, rspValid := false }

/-- VM-1 S10: the second scalar_mul takes the second input, not the first. -/
theorem test_verify_issue :
    after (step (mockAt .vSmul 1)) (fun t => (t.reqSel.toNat, t.reqPayload, t.status.word.toNat, t.phase)) =
      some (0x02, be 3 32 ++ be 4 32 ++ be 7 32, 0x00200011, .vSmul) := by decide +kernel

/-- VM-E11: a pairing result of 2 is ProviderError. -/
theorem test_verify_pairing_two :
    after (step (answered (.ok (be 2 32)) (mockAt .vPair 1))) (fun t => (t.status.word.toNat, t.errinfo.toNat)) =
      some (0x00200602, 0x00001601) := by decide +kernel

/-- VM-1 E2. -/
theorem test_engAdd :
    after (step (State.withFetchWord
      { mockAt .vAdd 0 with reqPayload := be 10 32 ++ be 20 32 ++ be 5 32 ++ be 10 32 } 8 0x01))
      (fun t => (t.rspValid, t.rsp)) = some (true, .ok (be 15 32 ++ be 30 32)) := by decide +kernel

/-- VM-1 E1. -/
theorem test_engSmul :
    after (step (State.withFetchWord { mockAt .vSmul 0 with reqPayload := be 1 32 ++ be 2 32 ++ be 5 32 } 8 0x02))
      (fun t => (t.rspValid, t.rsp)) = some (true, .ok (be 5 32 ++ be 10 32)) := by decide +kernel

/-- The pairing answer of VM-1 E5, for a payload that the table knows. -/
theorem test_engPair :
    after (step (State.withFetchWord { State.reset with
      cfg := { mockCfg with engineTable := [⟨⟨0x03, [1, 2]⟩, .ok (be 1 32)⟩] }, reqPayload := [1, 2] } 8 0x03))
      (fun t => (t.rspValid, t.rsp)) = some (true, .ok (be 1 32)) := by decide +kernel

/-- BC-E9: an illegal word completes at the start step. -/
theorem test_illegal_command :
    after (hostWrite 0x0000 0x00000002 { State.reset with idx := 7 })
      (fun t => (t.ctrl.toNat, t.status.word.toNat, t.errinfo.toNat, t.idx.toNat, t.phase)) =
      some (2, 0x00021002, 0, 0, .idle) := by decide +kernel

/-- VM-H1: a write while busy sets HAZ and stores nothing. -/
theorem test_write_while_busy :
    after (hostWrite 0x0800 0xFFFFFFFF (mockAt .vSmul 0)) (fun t => (t.pub[0]?, t.status.word.toNat)) =
      some (some 5, 0x00200009) := by decide +kernel

/-- 20_memory.md R80: the last word of P.x. -/
theorem test_host_write_word :
    after (hostWrite 0x021C 0x01020304 State.reset) (fun t => (t.p.x.toNat, t.p.y.toNat)) = some (0x01020304, 0) := by
  decide +kernel

/-- 10_state.md R33: NPUBMAX reads 64. -/
theorem test_host_read : after (hostRead 0x0024 State.reset) (fun t => t.hostResp) = some (.data 64) := by
  decide +kernel

/-- Why a step faults, if it does. -/
def faultOf (out : Host.Outcome State Fault Refusal) : Option Fault :=
  match out with
  | .next _ => none
  | .fault r => some r
  | .refused _ => none

theorem fault_of_faultOf {out : Host.Outcome State Fault Refusal} {r : Fault} (h : faultOf out = some r) :
    out = .fault r := by
  cases out with
  | next t => cases h
  | fault r' => rw [Option.some.inj h]
  | refused r' => cases h

/-- NG-9: unwritten P. -/
theorem test_unwritten : faultOf (step (startCommand 0x00000010 State.reset)) = some (.unwrittenOperand .p) := by
  decide +kernel

/-- VM-E16: PUB[1] unwritten. -/
theorem test_unwritten_input :
    faultOf (step { mockAt .vRange 1 with written := marks 0x0800 32 }) = some (.unwrittenOperand .pub) := by
  decide +kernel

/-- 70_reset_and_hazards.md R314: an append reads COUTLEN. -/
theorem test_unwritten_coutlen :
    faultOf (step (startCommand 0x00010004 (withInput [5]))) = some (.unwrittenOperand .coutlen) := by decide +kernel

/-- A command placed in the reset state runs (log 11). -/
theorem test_placed_at_reset :
    after (runWord 0x00000010 State.reset) (fun t => (t.p, t.status.word.toNat)) = some (⟨0, 0⟩, 0x00100002) := by
  decide +kernel

/-! ## Witnesses: for every statement with hypotheses, a concrete case of each clause that meets them -/

theorem is_written {s : State} {r : Reg} {k n : Nat} (h : allWritten s (r.base + k) n = true) : bytesWritten s r k n :=
  (allWritten_iff s _ n).mp h

theorem written_of_all {s : State} {ops : List Operand} (h : ops.all (fun o => o.isWritten s) = true) :
    operandsWritten s ops := fun o ho => (isWritten_iff s o).mp (List.all_eq_true.mp h o ho)

theorem not_written {s : State} {r : Reg} {k n : Nat} (h : allWritten s (r.base + k) n = false) :
    ¬ bytesWritten s r k n := fun hw => by rw [(allWritten_iff s _ n).mpr hw] at h; cases h

theorem witness_DecodeOfEncode :
    (Instr.encfix true 1).wellFormed = true ∧ (Instr.encfix false 128).wellFormed = true ∧
      Instr.engPair.wellFormed = true := by decide

theorem witness_EncodeOfDecode :
    decode [0x00, 0x01, 0x80, 0x02] = .instr (.encfix true 128) ∧ decode [0x03] = .instr .engPair := by decide

theorem witness_DecodesIffLegal :
    (0x80000020 : Word).extractLsb' 17 15 ≠ 0 ∧
    ((0x0001000D : Word).extractLsb' 17 15 = 0 ∧ (0x0001000D : Word).extractLsb' 0 8 ∉ opcodes) ∧
    ((0x00008102 : Word).extractLsb' 17 15 = 0 ∧ (0x00008102 : Word).extractLsb' 0 8 ∈ opcodes ∧
      ¬ legalWidth 0x00008102) ∧
    ((0x00010020 : Word).extractLsb' 17 15 = 0 ∧ (0x00010020 : Word).extractLsb' 0 8 ∈ opcodes ∧
      legalWidth 0x00010020 ∧ ¬ legalWord 0x00010020) := by decide

theorem witness_CodecLaws :
    2 ^ 256 - 1 < 2 ^ 256 ∧ 1 ≤ ([0, 7] : List Byte).length ∧
      (1 ≤ 2 ∧ minlen 255 ≤ 2 ∧ encodeFixed 255 2 = some [0, 0xFF]) := by decide

theorem witness_EncodeFixedBytes : 1 ≤ 1 ∧ minlen 256 > 1 ∧ minlen 255 ≤ 1 ∧ 0 < 1 := by decide

theorem witness_MinimalLength : 0 < 256 ∧ 1 ≤ 2 ∧ 256 < 256 ^ 2 := by decide

theorem witness_StripDropsLeadingZeros :
    ((2 < ([0, 0, 5, 0] : List Byte).length ∧ ([0, 0, 5, 0] : List Byte).getD 2 0 ≠ 0 ∧
      ∀ j, j < 2 → ([0, 0, 5, 0] : List Byte).getD j 0 = 0) ∧
    (1 ≤ ([0, 0] : List Byte).length ∧ ∀ j, j < 2 → ([0, 0] : List Byte).getD j 0 = 0)) ∧
    operandsWritten (withInput []) (commandReads (withInput []) (.strip false)) ∧ (withInput []).cinlen = 0 :=
  ⟨by decide, written_of_all (by decide +kernel), by decide⟩

theorem witness_PointCodecLaws :
    2 ^ 256 - 1 < 2 ^ 256 ∧ (List.replicate 31 (0 : Byte)).length ≠ 32 ∧ (List.replicate 63 (0 : Byte)).length ≠ 64 := by
  decide

theorem witness_StripRule :
    (operandsWritten (withInput []) (commandReads (withInput []) (.strip false)) ∧ (withInput []).cinlen = 0) ∧
    (operandsWritten (withInput [5, 0]) (commandReads (withInput [5, 0]) (.strip false)) ∧
      (withInput [5, 0]).cinlen ≠ 0 ∧ (cinContent (withInput [5, 0])).getD 0 0 ≠ 0) ∧
    (operandsWritten (withInput [0, 0]) (commandReads (withInput [0, 0]) (.strip false)) ∧
      (withInput [0, 0]).cinlen ≠ 0 ∧ ∀ j, j < 2 → (cinContent (withInput [0, 0])).getD j 0 = 0) :=
  ⟨⟨written_of_all (by decide +kernel), by decide⟩, ⟨written_of_all (by decide +kernel), by decide +kernel⟩,
    written_of_all (by decide +kernel), by decide +kernel⟩

theorem witness_EncfixRule :
    ((1 ≤ 128 ∧ 128 ≤ 128) ∧ (1 ≤ 1 ∧ (0 = 0 ∨ 128 < 0 ∧ 0 ≤ 255)) ∧ (1 ≤ 1 ∧ (129 = 0 ∨ 128 < 129 ∧ 129 ≤ 255)) ∧
      (1 ≤ (1 : Byte).toNat ∧ (128 : Byte).toNat ≤ 128) ∧
      256 ^ (1 : Byte).toNat ≤ (withV 256).v.toNat ∧ (withV 255).v.toNat < 256 ^ (1 : Byte).toNat) ∧
    operandsWritten (withV 256) (commandReads (withV 256) (.encfix false 1)) ∧
    operandsWritten (withV 255) (commandReads (withV 255) (.encfix false 1)) :=
  ⟨by decide +kernel, written_of_all (by decide +kernel), written_of_all (by decide +kernel)⟩

theorem witness_DecuintRule :
    (withInput (List.replicate 128 0xFF)).cinlen.toNat ≤ 128 ∧
    operandsWritten (withInput (List.replicate 128 0xFF)) (commandReads (withInput (List.replicate 128 0xFF)) .decuint) :=
  ⟨by decide +kernel, written_of_all (by decide +kernel)⟩

theorem witness_ConcatRule :
    operandsWritten (withInput [1]) (commandReads (withInput [1]) (.concat false)) ∧
    operandsWritten (withOutput [2] 768 (withInput [1]))
      (commandReads (withOutput [2] 768 (withInput [1])) (.concat true)) :=
  ⟨written_of_all (by decide +kernel), written_of_all (by decide +kernel)⟩

/-- An input of `n` bytes, written. -/
def inputOf (n : Nat) : State := withInput (List.replicate n 7)

theorem witness_SdecRule :
    (operandsWritten (inputOf 31) (commandReads (inputOf 31) .sdec) ∧ (inputOf 31).cinlen ≠ 32) ∧
    (operandsWritten (inputOf 33) (commandReads (inputOf 33) .sdec) ∧ (inputOf 33).cinlen ≠ 32) ∧
    (operandsWritten (inputOf 32) (commandReads (inputOf 32) .sdec) ∧ (inputOf 32).cinlen = 32) :=
  ⟨⟨written_of_all (by decide +kernel), by decide⟩, ⟨written_of_all (by decide +kernel), by decide⟩,
    written_of_all (by decide +kernel), by decide⟩

theorem witness_SencRule :
    (operandsWritten (withV (2 ^ 256)) (commandReads (withV (2 ^ 256)) (.senc false)) ∧
      2 ^ 256 ≤ (withV (2 ^ 256)).v.toNat) ∧
    (operandsWritten (withV (2 ^ 256 - 1)) (commandReads (withV (2 ^ 256 - 1)) (.senc false)) ∧
      (withV (2 ^ 256 - 1)).v.toNat < 2 ^ 256) :=
  ⟨⟨written_of_all (by decide +kernel), by decide +kernel⟩, written_of_all (by decide +kernel), by decide +kernel⟩

theorem witness_G1decRule :
    (operandsWritten (inputOf 63) (commandReads (inputOf 63) .g1dec) ∧ (inputOf 63).cinlen ≠ 64) ∧
    (operandsWritten (inputOf 65) (commandReads (inputOf 65) .g1dec) ∧ (inputOf 65).cinlen ≠ 64) ∧
    (operandsWritten (inputOf 64) (commandReads (inputOf 64) .g1dec) ∧ (inputOf 64).cinlen = 64) :=
  ⟨⟨written_of_all (by decide +kernel), by decide⟩, ⟨written_of_all (by decide +kernel), by decide⟩,
    written_of_all (by decide +kernel), by decide⟩

theorem witness_G1encRule :
    operandsWritten (withP ⟨1, 2⟩) (commandReads (withP ⟨1, 2⟩) (.g1enc false)) ∧
    operandsWritten (withOutput [] 705 (withP ⟨1, 2⟩)) (commandReads (withOutput [] 705 (withP ⟨1, 2⟩)) (.g1enc true)) ∧
    63 < 64 :=
  ⟨written_of_all (by decide +kernel), written_of_all (by decide +kernel), by decide⟩

theorem witness_G2encRule :
    operandsWritten (withQ ⟨1, 2, 3, 4⟩) (commandReads (withQ ⟨1, 2, 3, 4⟩) (.g2enc false)) :=
  written_of_all (by decide +kernel)

theorem witness_NegRule :
    (Config.wf (withP ⟨0, 0⟩).cfg ∧ operandsWritten (withP ⟨0, 0⟩) (commandReads (withP ⟨0, 0⟩) .neg) ∧
      (withP ⟨0, 0⟩).p = ⟨0, 0⟩) ∧
    (Config.wf (withP ⟨0, 5⟩).cfg ∧ operandsWritten (withP ⟨0, 5⟩) (commandReads (withP ⟨0, 5⟩) .neg) ∧
      (withP ⟨0, 5⟩).p ≠ ⟨0, 0⟩) :=
  ⟨⟨by decide +kernel, written_of_all (by decide +kernel), rfl⟩,
    by decide +kernel, written_of_all (by decide +kernel), by decide⟩

theorem witness_NegateValue :
    2 < Config.bn254BaseP ∧ Config.bn254BaseP < 2 ^ 256 ∧ (⟨0, 5⟩ : G1) ≠ ⟨0, 0⟩ ∧ (⟨7, 0⟩ : G1) ≠ ⟨0, 0⟩ := by decide

theorem witness_DoubleNegation : 2 < Config.bn254BaseP ∧ Config.bn254BaseP < 2 ^ 256 := by decide

theorem witness_AppendConcatenates :
    (List.replicate 768 (0 : Byte)).length ≤ 768 ∧
    ((withOutput [] 767 State.reset).coutlen.toNat + ([1] : List Byte).length ≤ 768) ∧
    (([1] : List Byte).length + ([2] : List Byte).length + ([3] : List Byte).length ≤ 768) ∧
    ((inputOf 128).cinlen.toNat ≤ 128 ∧ operandsWritten (inputOf 128) (commandReads (inputOf 128) (.concat false))) :=
  ⟨by decide +kernel, by decide, by decide, by decide +kernel, written_of_all (by decide +kernel)⟩

theorem witness_LengthPhase :
    ({ mockAt .vLen 0 with npub := 3 }.phase = .vLen ∧ bytesWritten { mockAt .vLen 0 with npub := 3 } .npub 0 4 ∧
      { mockAt .vLen 0 with npub := 3 }.npub.toNat + 1 ≠ { mockAt .vLen 0 with npub := 3 }.cfg.vk.ic.length ∧
      { mockAt .vLen 0 with npub := 3 }.idx = 0) ∧
    ((mockAt .vLen 0).phase = .vLen ∧ bytesWritten (mockAt .vLen 0) .npub 0 4 ∧
      (mockAt .vLen 0).npub.toNat + 1 = (mockAt .vLen 0).cfg.vk.ic.length) :=
  ⟨⟨rfl, is_written (by decide +kernel), by decide +kernel⟩, rfl, is_written (by decide +kernel), by decide +kernel⟩

/-- A state in V_RANGE whose second input is SCALAR_R itself. -/
def overflowState : State :=
  { mockAt .vRange 1 with pub := (mockAt .vRange 1).pub.setIfInBounds 1 (BitVec.ofNat 256 Config.bn254ScalarR) }

theorem witness_RangePhase :
    ((mockAt .vRange 2).phase = .vRange ∧ (mockAt .vRange 2).idx.toNat = (mockAt .vRange 2).npub.toNat) ∧
    ((mockAt .vRange 1).phase = .vRange ∧ (mockAt .vRange 1).idx.toNat ≠ (mockAt .vRange 1).npub.toNat ∧
      bytesWritten (mockAt .vRange 1) .pub (32 * (mockAt .vRange 1).idx.toNat) 32 ∧
      (mockAt .vRange 1).pub[1]? = some 7 ∧ (7 : Field).toNat < (mockAt .vRange 1).cfg.scalarR) ∧
    (overflowState.phase = .vRange ∧ overflowState.idx.toNat ≠ overflowState.npub.toNat ∧
      bytesWritten overflowState .pub (32 * overflowState.idx.toNat) 32 ∧
      overflowState.pub[1]? = some (BitVec.ofNat 256 Config.bn254ScalarR) ∧
      overflowState.cfg.scalarR ≤ (BitVec.ofNat 256 Config.bn254ScalarR).toNat) :=
  ⟨by decide +kernel, ⟨rfl, by decide +kernel, is_written (by decide +kernel), by decide +kernel⟩,
    rfl, by decide +kernel, is_written (by decide +kernel), by decide +kernel⟩

theorem witness_AccumulatorInitPhase :
    (mockAt .vLcinit 2).phase = .vLcinit ∧ (mockAt .vLcinit 2).cfg.vk.ic[0]? = some ⟨10, 20⟩ := by decide +kernel

/-- A phase of VERIFY with only NPUB and the registers of a list written. -/
def partlyWritten (ph : Phase) (m : Memory) : State := { mockAt ph 0 with written := m }

theorem witness_StopsOfVerify_unwritten :
    ((partlyWritten .vLen []).phase = .vLen ∧ ¬ bytesWritten (partlyWritten .vLen []) .npub 0 4) ∧
    ((partlyWritten .vRange []).idx.toNat ≠ (partlyWritten .vRange []).npub.toNat ∧
      (partlyWritten .vRange []).idx.toNat < 64 ∧ ¬ bytesWritten (partlyWritten .vRange []) .pub 0 32) ∧
    ((partlyWritten .vSmul []).idx.toNat + 1 < (partlyWritten .vSmul []).cfg.vk.ic.length ∧
      ¬ bytesWritten (partlyWritten .vSmul []) .pub 0 32) ∧
    (¬ bytesWritten (partlyWritten .vAdd []) .vkx 0 64 ∧
      bytesWritten (partlyWritten .vAdd (marks 0x0180 64)) .vkx 0 64 ∧
      ¬ bytesWritten (partlyWritten .vAdd (marks 0x0180 64)) .term 0 64) ∧
    ¬ bytesWritten (partlyWritten .vNeg []) .a 0 64 ∧
    (¬ bytesWritten (partlyWritten .vPair []) .nega 0 64 ∧
      ¬ bytesWritten (partlyWritten .vPair (marks 0x0140 64)) .b 0 128 ∧
      ¬ bytesWritten (partlyWritten .vPair (marks 0x0080 128 ++ marks 0x0140 64)) .vkx 0 64) ∧
    (bytesWritten (partlyWritten .vPair (marks 0x0080 128 ++ marks 0x0140 128)) .nega 0 64 ∧
      bytesWritten (partlyWritten .vPair (marks 0x0080 128 ++ marks 0x0140 128)) .b 0 128 ∧
      bytesWritten (partlyWritten .vPair (marks 0x0080 128 ++ marks 0x0140 128)) .vkx 0 64 ∧
      ¬ bytesWritten (partlyWritten .vPair (marks 0x0080 128 ++ marks 0x0140 128)) .c 0 64) := by
  refine ⟨⟨rfl, not_written ?_⟩, ⟨by decide, by decide, not_written ?_⟩, ⟨by decide +kernel, not_written ?_⟩,
    ⟨not_written ?_, is_written ?_, not_written ?_⟩, not_written ?_, ⟨not_written ?_, not_written ?_, not_written ?_⟩,
    is_written ?_, is_written ?_, is_written ?_, not_written ?_⟩
  all_goals decide +kernel

/-- A key without points. -/
def noKey : Config := { mockCfg with vk := { mockCfg.vk with ic := [] } }

/-- A key with more points than a legal one, in V_SMUL. -/
def longKey (idx : Byte) : State :=
  { mockAt .vSmul idx with cfg := { mockCfg with vk := { mockCfg.vk with ic := List.replicate 70 ⟨1, 2⟩ } } }

theorem witness_StopsOfVerify :
    ((mockAt .vRange 64).phase = .vRange ∧ (mockAt .vRange 64).idx.toNat ≠ (mockAt .vRange 64).npub.toNat ∧
      64 ≤ (mockAt .vRange 64).idx.toNat) ∧
    ({ mockAt .vLcinit 0 with cfg := noKey }.phase = .vLcinit ∧
      { mockAt .vLcinit 0 with cfg := noKey }.cfg.vk.ic = []) ∧
    ((mockAt .vSmul 2).phase = .vSmul ∧ (mockAt .vSmul 2).status.waiteng = false ∧
      (mockAt .vSmul 2).cfg.vk.ic.length ≤ (mockAt .vSmul 2).idx.toNat + 1) ∧
    ((longKey 64).phase = .vSmul ∧ (longKey 64).status.waiteng = false ∧
      (longKey 64).idx.toNat + 1 < (longKey 64).cfg.vk.ic.length ∧ 64 ≤ (longKey 64).idx.toNat) ∧
    ((mockAt .idle 0).phase = .idle ∧ (mockAt .exec 0).phase = .exec) ∧
    ((mockAt .vSmul 1).phase.ofVerify = true ∧
      after (exec .verify (mockAt .vSmul 1)) (fun t => t.status.waiteng) = some true ∧
      ((mockAt .vSmul 1).phase = .vRange → (mockAt .vSmul 1).idx.toNat = (mockAt .vSmul 1).npub.toNat ∨
        (mockAt .vSmul 1).idx.toNat < 64) ∧
      ((mockAt .vSmul 1).phase = .vLcinit → (mockAt .vSmul 1).cfg.vk.ic ≠ []) ∧
      (mockAt .vSmul 1).idx.toNat + 1 < (mockAt .vSmul 1).cfg.vk.ic.length ∧ (mockAt .vSmul 1).idx.toNat < 64) := by
  decide +kernel

theorem witness_ScalarMulPhase :
    bytesWritten (mockAt .vSmul 1) .pub (32 * (mockAt .vSmul 1).idx.toNat) 32 ∧
    ((mockAt .vSmul 1).phase = .vSmul ∧ (mockAt .vSmul 1).status.waiteng = false ∧
      (mockAt .vSmul 1).pub[1]? = some 7 ∧ (mockAt .vSmul 1).cfg.vk.ic[2]? = some ⟨3, 4⟩) ∧
    (waiting (mockAt .vSmul 1)).phase = .vSmul ∧
    ((waiting (mockAt .vSmul 1)).status.waiteng = true ∧ (waiting (mockAt .vSmul 1)).rspValid = false) ∧
    ((answered .err (mockAt .vSmul 1)).rspValid = true ∧ (answered .err (mockAt .vSmul 1)).rsp = .err) ∧
    ((answered (.ok (be 1 63)) (mockAt .vSmul 1)).rsp = .ok (be 1 63) ∧ (be 1 63).length ≠ 64) ∧
    ((answered (.ok (be 1 64)) (mockAt .vSmul 1)).rsp = .ok (be 1 64) ∧ (be 1 64).length = 64) :=
  ⟨is_written (by decide +kernel), by decide +kernel⟩

theorem witness_AccumulatePhase :
    (bytesWritten (mockAt .vAdd 1) .vkx 0 64 ∧ bytesWritten (mockAt .vAdd 1) .term 0 64) ∧
    ((mockAt .vAdd 1).phase = .vAdd ∧ (mockAt .vAdd 1).status.waiteng = false) ∧
    ((waiting (mockAt .vAdd 1)).phase = .vAdd ∧ (waiting (mockAt .vAdd 1)).status.waiteng = true ∧
      (waiting (mockAt .vAdd 1)).rspValid = false) ∧
    ((answered .err (mockAt .vAdd 1)).status.waiteng = true ∧ (answered .err (mockAt .vAdd 1)).rspValid = true ∧
      (answered .err (mockAt .vAdd 1)).rsp = .err) ∧
    ((be 1 65).length ≠ 64 ∧ (be 1 64).length = 64) ∧
    ((mockAt .vAdd 0).idx.toNat + 1 < (mockAt .vAdd 0).npub.toNat ∧
      ¬ (mockAt .vAdd 1).idx.toNat + 1 < (mockAt .vAdd 1).npub.toNat) :=
  ⟨⟨is_written (by decide +kernel), is_written (by decide +kernel)⟩, by decide +kernel⟩

theorem witness_NegatePhase :
    (bytesWritten (mockAt .vNeg 1) .a 0 64 ∧ (mockAt .vNeg 1).phase = .vNeg ∧ Config.wf (mockAt .vNeg 1).cfg ∧
      (mockAt .vNeg 1).a ≠ ⟨0, 0⟩) ∧
    { mockAt .vNeg 1 with a := ⟨0, 0⟩ }.a = ⟨0, 0⟩ :=
  ⟨⟨is_written (by decide +kernel), by decide +kernel⟩, rfl⟩

theorem witness_PairingRequest :
    operandsWritten (mockAt .vPair 1) pairReads ∧
    (mockAt .vPair 1).phase = .vPair ∧ (mockAt .vPair 1).status.waiteng = false ∧
      (mockAt .vPair 1).cfg.pairLayout = .interleaved ∧
      { mockAt .vPair 1 with cfg := { mockCfg with pairLayout := .split } }.cfg.pairLayout = .split :=
  ⟨written_of_all (by decide +kernel), by decide +kernel⟩

theorem witness_PairingVerdict :
    (answered .err (mockAt .vPair 1)).phase = .vPair ∧ (answered .err (mockAt .vPair 1)).status.waiteng = true ∧
    { answered .err (mockAt .vPair 1) with rspValid := false }.rspValid = false ∧
    ((be 1 32).length = 32 ∧ unbe (be 1 32) = 1) ∧ ((be 0 32).length = 32 ∧ unbe (be 0 32) = 0) ∧
    ¬ ((be 2 32).length = 32 ∧ (unbe (be 2 32) = 1 ∨ unbe (be 2 32) = 0)) ∧
    ¬ ((be 1 31).length = 32 ∧ (unbe (be 1 31) = 1 ∨ unbe (be 1 31) = 0)) ∧
    (answered .err (mockAt .vPair 1)).rsp = .err := by decide +kernel

theorem witness_EngineAnswers :
    ((Instr.engPair, (0x03 : Byte)) ∈ ([(.engAdd, 0x01), (.engSmul, 0x02), (.engPair, 0x03)] : List (Instr × Byte))) ∧
    { answered .err (mockAt .vPair 1) with rspValid := false }.status.waiteng = true ∧
    ¬ (State.reset.status.waiteng = true ∧ State.reset.rspValid = false) := by decide +kernel

theorem witness_RequestFormats :
    ([⟨1, 2⟩, ⟨3, 4⟩] : List G1).length = ([⟨1, 2, 3, 4⟩, ⟨5, 6, 7, 8⟩] : List G2).length ∧
    ([⟨1, 2⟩, ⟨3, 4⟩] : List G1)[1]? = some ⟨3, 4⟩ ∧
    ([⟨1, 2, 3, 4⟩, ⟨5, 6, 7, 8⟩] : List G2)[1]? = some ⟨5, 6, 7, 8⟩ := by decide

/-- A block whose key has no input: VERIFY with NPUB = 0 makes one request (95_test_vectors.md VM-Z1). -/
def oneCallCfg : Config :=
  { mockCfg with
    vk := { mockCfg.vk with ic := [⟨10, 20⟩] }
    engineTable := [⟨finalCall { mockCfg with vk := { mockCfg.vk with ic := [⟨10, 20⟩] } } ⟨30, 40⟩ ⟨13, 14, 15, 16⟩
      ⟨50, 60⟩ ⟨10, 20⟩, .ok (be 1 32)⟩] }

/-- VERIFY of VM-Z1 just started. -/
def oneCall : State :=
  startCommand 0x00000020
    { State.reset with
      cfg := oneCallCfg, a := ⟨30, 40⟩, b := ⟨13, 14, 15, 16⟩, c := ⟨50, 60⟩
      written := marks 0x000C 4 ++ marks 0x0040 256 }

theorem oneCall_inv : Inv oneCall := by decide +kernel

/-- A block whose key has one input, with an engine that fails the scalar_mul (as 95_test_vectors.md VM-E7 does). -/
def failingCfg : Config :=
  { mockCfg with
    vk := { mockCfg.vk with ic := [⟨10, 20⟩, ⟨1, 2⟩] }
    engineTable := [⟨smulCall ⟨1, 2⟩ 5, .err⟩] }

/-- VERIFY of its one input just started, the input and NPUB being written. -/
def failing : State :=
  startCommand 0x00000020
    { State.reset with
      cfg := failingCfg, npub := 1, pub := (Vector.replicate 64 0).setIfInBounds 0 5
      written := marks 0x000C 4 ++ marks 0x0800 32 }

theorem failing_inv : Inv failing := by decide +kernel

/-- The same with the request outstanding. -/
def failingWaiting : State :=
  { failing with
    phase := .vSmul, vkx := ⟨10, 20⟩, written := marks 0x000C 4 ++ marks 0x0180 64 ++ marks 0x0800 32
    status := { failing.status with waiteng := true }
    reqSel := 0x02
    reqPayload := (smulCall ⟨1, 2⟩ 5).payload }

theorem failingWaiting_inv : Inv failingWaiting := by decide +kernel

theorem witness_PhaseGraph :
    ∃ t, Inv oneCall ∧ oneCall.phase.ofVerify = true ∧ exec .verify oneCall = .next t :=
  ⟨_, oneCall_inv, by decide +kernel, rfl⟩

/-- NEG just started. -/
def negStarted : State := startCommand 0x00000010 State.reset

theorem witness_StepRunsDecoded :
    (negStarted.status.busy = true ∧ negStarted.phase = .exec ∧
      ¬ (negStarted.status.waiteng = true ∧ negStarted.rspValid = false) ∧
      decode (wordBytes negStarted.ctrl) = .instr .neg ∧ negStarted.turns = []) ∧
    { negStarted with turns := [.sequencer] }.turns = [.sequencer] ∧
    (oneCall.status.busy = true ∧ oneCall.phase.ofVerify = true ∧
      ¬ (oneCall.status.waiteng = true ∧ oneCall.rspValid = false) ∧ oneCall.turns = []) ∧
    (failingWaiting.status.waiteng = true ∧ failingWaiting.rspValid = false ∧
      failingWaiting.cfg.engineAnswers = true ∧ decode [failingWaiting.reqSel] = .instr .engSmul ∧
      failingWaiting.turns = []) := by decide +kernel

theorem witness_PlacedInstructionRuns :
    (Instr.encfix true 128).wellFormed = true ∧ encode (.encfix true 128) = wordBytes 0x00018002 ∧
      encode .engAdd = [0x01] := by decide

theorem witness_CommandStart :
    (State.reset.status.busy = false ∧ legalWord 0x00000020 ∧ legalWord 0x00018002) ∧ ¬ legalWord 0x00018102 ∧
      oneCall.status.busy = true := by decide +kernel

theorem witness_BusErrors : (1 % 4 ≠ 0 ∨ 0x4000 ≤ 1) ∧ (0x4000 % 4 ≠ 0 ∨ 0x4000 ≤ 0x4000) ∧
    (0x3FFC % 4 = 0 ∧ 0x3FFC < 0x4000) := by decide

theorem witness_HostReadValue :
    (0x3FFC % 4 = 0 ∧ 0x3FFC < 0x4000 ∧ (767 < 768 ∧ 127 < 128 ∧ 63 < 64 ∧ 3 < 4)) ∧
    ((∃ row, mapFind State.reset.cfg 0x0FFC = some row ∧ row.reg ∈ [Reg.a, .b, .c, .nega, .vkx, .term, .p, .q, .v, .cin,
      .cout, .pub]) ∧ State.reset.written.read 0x0FFC ≠ 1) ∧
    (withP ⟨1, 2⟩).written.read 0x0200 = 1 ∧ (mockAt .vSmul 0).cfg.vk.ic[2]? = some ⟨3, 4⟩ ∧
    (mockAt .vSmul 0).pub[63]? = some 0 :=
  ⟨by decide, ⟨⟨mapRow State.reset.cfg .pub, mapFind_reg _ .pub _ (by decide) (by decide), by decide⟩, by decide⟩,
    by decide +kernel, rfl, by decide +kernel⟩

theorem witness_ReadOnlyAndReserved :
    (0x0004 % 4 = 0 ∧ 0x0004 < 0x4000 ∧ State.reset.status.busy = false ∧
      ∀ row ∈ addressMap State.reset.cfg, row.covers 0x0004 = true → row.access = .ro) ∧
    oneCall.status.busy = true ∧
    (0x0700 % 4 = 0 ∧ 0x0700 < 0x4000 ∧ ∀ row ∈ addressMap State.reset.cfg, row.covers 0x0700 = false) ∧
    (0x3FFC % 4 = 0 ∧ ∀ row ∈ addressMap State.reset.cfg, row.covers 0x3FFC = false) := by decide +kernel

theorem witness_MapIsUnambiguous :
    (mockCfg.vk.ic.length ≤ 65 ∧ mapRow mockCfg .ic ∈ addressMap mockCfg ∧
      (mapRow mockCfg .ic).covers 0x11C0 = true) ∧ 0x11C0 + 64 * mockCfg.vk.ic.length ≤ 0x3FFF := by decide +kernel

theorem witness_BoundedRegisters :
    State.reset.status.busy = false ∧ ((64 : Word).toNat ≤ 64 ∧ ¬ (65 : Word).toNat ≤ 64) ∧
    ((128 : Word).toNat ≤ 128 ∧ ¬ (129 : Word).toNat ≤ 128) ∧ ((768 : Word).toNat ≤ 768 ∧ ¬ (769 : Word).toNat ≤ 768) := by
  decide

theorem witness_DataRegisterWrite :
    State.reset.status.busy = false ∧ Reg.isData .pub = true ∧ 0x0FFC % 4 = 0 ∧ Reg.base .pub ≤ 0x0FFC ∧
      0x0FFC < Reg.base .pub + Reg.size State.reset.cfg .pub := by decide +kernel

theorem witness_WriteWhileBusy :
    (oneCall.status.busy = true ∧ 0x3FFC % 4 = 0 ∧ 0x3FFC < 0x4000) ∧
    ∃ t, step { oneCall with status := { oneCall.status with haz := true } } = .next t ∧
      ({ oneCall with status := { oneCall.status with haz := true } } : State).status.haz = true :=
  ⟨by decide +kernel, _, by rfl, rfl⟩

theorem witness_HostNotation :
    { State.reset with hostProg := [HostOp.wait] }.hostProg = HostOp.wait :: [] ∧
    (State.reset.status.busy = false ∧ State.reset.turns = [] ∧ State.reset.status.waiteng = false ∧
      { State.reset with hostProg := wrb 0x0040 (enc1 ⟨1, 2⟩) ++ [HostOp.wait] }.hostProg =
        wrb 0x0040 (enc1 ⟨1, 2⟩) ++ [HostOp.wait]) := by decide +kernel

theorem witness_ResetState : { failingWaiting with turns := [.reset, .host] }.turns = .reset :: [.host] := by rfl

theorem witness_ParametersNeverChange : ∃ t, step oneCall = .next t :=
  ⟨_, rfl⟩

theorem witness_CommandWindowFrame : ∃ t, singleStep .neg = true ∧ exec .neg (withP ⟨1, 2⟩) = .next t :=
  (after_next (f := fun t => t.phase) (v := .idle) (by decide +kernel)).imp fun _ h => ⟨rfl, h.1⟩

theorem witness_UnitsAreSeparate : singleStep (.encfix true 128) = true := by rfl

theorem witness_InvariantKept : ∃ t, Inv oneCall ∧ step oneCall = .next t :=
  ⟨_, oneCall_inv, rfl⟩

theorem witness_OnlyDeclaredStops : Inv failingWaiting := failingWaiting_inv

/-- VM-Z1 with C unwritten and an engine that accepts what C holds. -/
def oneCallUnwritten : State := { oneCall with written := marks 0x000C 4 ++ marks 0x0040 192 }

theorem oneCallUnwritten_inv : Inv oneCallUnwritten := by decide +kernel

theorem witness_VerifyAgreesWithFunction :
    (Inv oneCall ∧ (oneCall.phase = .vLen ∧ oneCall.turns = [] ∧ oneCall.hostProg = [] ∧
      oneCall.cfg.engineAnswers = true ∧ (verificationOf oneCall).verdict.err = .none) ∧
      operandsWritten oneCall (verifyReads oneCall)) ∧
    (Inv oneCallUnwritten ∧ (oneCallUnwritten.phase = .vLen ∧ oneCallUnwritten.turns = [] ∧
      oneCallUnwritten.hostProg = [] ∧ oneCallUnwritten.cfg.engineAnswers = true ∧
      (verificationOf oneCallUnwritten).verdict.err = .none) ∧
      ¬ operandsWritten oneCallUnwritten (verifyReads oneCallUnwritten)) := by
  refine ⟨⟨oneCall_inv, by decide +kernel, written_of_all (by decide +kernel)⟩, oneCallUnwritten_inv,
    by decide +kernel, ?_⟩
  exact fun h => not_written (r := .c) (k := 0) (n := 64) (by decide +kernel) (h ⟨.c, 0, 64⟩ (by decide +kernel))

/-- The failing VERIFY beside a host that writes and polls, in an interleaving that is not the order of an empty list of
turns. -/
def failingBeside : State :=
  { failing with
    v := 5
    hostProg := [.wr 0x0800 1, .rd 0x0004, .wait]
    turns := [.sequencer, .host, .sequencer, .engine, .sequencer, .sequencer, .sequencer, .host, .engine, .sequencer] }

theorem failingBeside_inv : Inv failingBeside := by decide +kernel

theorem failing_ends : ∃ t, run 7 failing = .next t ∧ (t.status.busy, t.status.err) = (false, .providerError) :=
  after_next (f := fun t => (t.status.busy, t.status.err)) (by decide +kernel)

theorem failingBeside_ends :
    ∃ t, run 10 failingBeside = .next t ∧ (t.status.busy, t.status.err) = (false, .providerError) :=
  after_next (f := fun t => (t.status.busy, t.status.err)) (by decide +kernel)

theorem witness_VerifyUnderAnyInterleaving :
    ∃ t, Inv failingBeside ∧ failingBeside.phase = .vLen ∧ Turn.reset ∉ failingBeside.turns ∧
      failingBeside.hostProg.all startsNothing = true ∧ run 10 failingBeside = .next t ∧ t.status.busy = false := by
  obtain ⟨t, h1, h2⟩ := failingBeside_ends
  have hs : failingBeside.phase = .vLen ∧ Turn.reset ∉ failingBeside.turns ∧
      failingBeside.hostProg.all startsNothing = true := by decide +kernel
  exact ⟨t, failingBeside_inv, hs.1, hs.2.1, hs.2.2, h1, congrArg Prod.fst h2⟩

theorem witness_OutcomeDependsOnOperandsOnly :
    ∃ t t', (Inv failing ∧ Inv failingBeside) ∧ (failing.phase = .vLen ∧ failingBeside.phase = .vLen ∧
      failing.cfg = failingBeside.cfg ∧ failing.a = failingBeside.a ∧ failing.b = failingBeside.b ∧
      failing.c = failingBeside.c ∧ inputsOf failing = inputsOf failingBeside ∧
      Turn.reset ∉ failing.turns ∧ Turn.reset ∉ failingBeside.turns ∧
      failing.hostProg.all startsNothing = true ∧ failingBeside.hostProg.all startsNothing = true) ∧
      run 7 failing = .next t ∧ run 10 failingBeside = .next t' ∧ t.status.busy = false ∧ t'.status.busy = false := by
  obtain ⟨t, h1, h2⟩ := failing_ends
  obtain ⟨t', h3, h4⟩ := failingBeside_ends
  exact ⟨t, t', ⟨failing_inv, failingBeside_inv⟩, by decide +kernel, h1, h3, congrArg Prod.fst h2, congrArg Prod.fst h4⟩

/-- VM-H5: the engine never answers, and the host waits. -/
def silent : State :=
  { failingWaiting with cfg := { failingCfg with engineAnswers := false }, hostProg := [.wait] }

theorem silent_inv : Inv silent := by decide +kernel

theorem witness_SilentEngineHangs :
    ∃ t, Inv silent ∧ silent.cfg.engineAnswers = false ∧ silent.status.waiteng = true ∧ silent.rspValid = false ∧
      Turn.reset ∉ silent.turns ∧ run 3 silent = .next t ∧ silent.hostProg = .wait :: [] := by
  obtain ⟨t, h, -⟩ := after_next (out := run 3 silent) (f := fun t => t.status.busy) (v := true) (by decide +kernel)
  exact ⟨t, silent_inv, rfl, rfl, rfl, by decide +kernel, h, rfl⟩

theorem witness_UnwrittenOperandFault :
    (singleStep .neg = true ∧ operandsWritten (withP ⟨1, 2⟩) (commandReads (withP ⟨1, 2⟩) .neg)) ∧
    (commandReads State.reset .neg = [] ++ ⟨.p, 0, 64⟩ :: [] ∧ operandsWritten State.reset [] ∧
      ¬ bytesWritten State.reset .p 0 64) ∧
    (negStarted.status.busy = true ∧ negStarted.phase = .exec ∧
      ¬ (negStarted.status.waiteng = true ∧ negStarted.rspValid = false) ∧ negStarted.turns = [] ∧
      decode (wordBytes negStarted.ctrl) = .instr .neg ∧ exec .neg (tick negStarted) = .fault (.unwrittenOperand .p)) ∧
    (∃ t, step { State.reset with turns := [.reset] } = .next t) := by
  refine ⟨⟨rfl, written_of_all (by decide +kernel)⟩, ⟨rfl, fun _ h => (by cases h),
    not_written (k := 0) (n := 64) (by decide +kernel)⟩,
    ⟨by decide +kernel, by decide +kernel, by decide +kernel, rfl, by decide +kernel, ?_⟩, _, rfl⟩
  exact fault_of_faultOf (by decide +kernel)

end Sys2Proof.Tests
end

/-! PROOFS of the statements about the window's accesses (20_memory.md): bus errors, read-only registers and reserved
offsets. First one law for each way a host access can end. -/

namespace Sys2Proof.Machine

/-- An access that is misaligned or outside the window gets a bus error. -/
theorem badAccess_true {addr : Nat} (h : addr % 4 ≠ 0 ∨ 0x4000 ≤ addr) : badAccess addr = true := by
  simpa [badAccess, Config.windowBytes] using h

theorem hostRead_of_bad {addr : Nat} (h : badAccess addr = true) (s : State) :
    hostRead addr s = .fault (.busError addr) := by
  rw [hostRead, if_pos h]

theorem hostWrite_of_bad {addr : Nat} (h : badAccess addr = true) (w : Word) (s : State) :
    hostWrite addr w s = .fault (.busError addr) := by
  rw [hostWrite, if_pos h]

theorem hostRead_of_good {addr : Nat} (h : badAccess addr = false) (s : State) :
    hostRead addr s = .next { s with hostResp := .data (hostWord s addr) } := by
  rw [hostRead, if_neg (Bool.eq_false_iff.mp h)]

theorem hostWrite_of_busy {addr : Nat} (h : badAccess addr = false) (w : Word) {s : State}
    (hb : s.status.busy = true) :
    hostWrite addr w s = .next { s with status := { s.status with haz := true }, hostResp := .written } := by
  rw [hostWrite, if_neg (Bool.eq_false_iff.mp h), if_pos hb]

theorem hostWrite_of_idle {addr : Nat} (h : badAccess addr = false) (w : Word) {s : State}
    (hb : s.status.busy = false) :
    hostWrite addr w s = .next { storeAt addr w s with hostResp := .written } := by
  rw [hostWrite, if_neg (Bool.eq_false_iff.mp h), if_neg (Bool.eq_false_iff.mp hb)]

/-- The registers the host may not write are those of 20_memory.md R67. -/
theorem access_eq_ro_iff (r : Reg) :
    r.access = .ro ↔ r ∈ [Reg.status, .errinfo, .phase, .idx, .nic, .npubmax, .vkver, .nega, .vkx, .term, .cout,
      .alfa1, .beta2, .gamma2, .delta2, .ic] := by
  cases r <;> decide

/-- A store at an offset that no writable register covers changes nothing: it is reserved or read-only
(20_memory.md R66, R67). -/
theorem storeAt_of_no_rw {off : Nat} (w : Word) {s : State}
    (h : ∀ row ∈ addressMap s.cfg, row.covers off = true → row.access = .ro) : storeAt off w s = s := by
  rcases storeAt_cases off w s with hs | ⟨r, hrw, hlo, hhi, -⟩
  · exact hs
  · have hcov : (mapRow s.cfg r).covers off = true := by simp [MapRow.covers, mapRow, hlo, hhi]
    have hro : r.access = .ro := h _ (mem_addressMap s.cfg r) hcov
    rw [hrw] at hro
    cases hro

/-- The byte a host read returns at a reserved offset. -/
theorem hostByte_reserved {s : State} {off : Nat} (h : mapFind s.cfg off = none) : hostByte s off = 0 := by
  rw [hostByte, h]

/-- A reserved offset reads 0: the whole word is reserved, since every row is made of aligned words
(20_memory.md R66). -/
theorem hostWord_reserved {s : State} {addr : Nat} (ha : addr % 4 = 0) (h : mapFind s.cfg addr = none) :
    hostWord s addr = 0 := by
  have hb : ∀ j, j < 4 → hostByte s (addr + j) = 0 := fun j hj =>
    hostByte_reserved ((mapFind_word s.cfg addr j ha hj).trans h)
  rw [hostWord, hostByte_reserved h, hb 1 (by decide), hb 2 (by decide), hb 3 (by decide)]
  rfl

/-- Settles O41, by the two sides of `badAccess`: a write inside the window is answered whether or not the block is
busy. -/
theorem busErrors : Obligations.BusErrors := by
  intro addr w s
  refine ⟨fun hbad => ?_, fun ha hlt => ⟨⟨_, hostRead_of_good (badAccess_false ha hlt) s⟩, ?_⟩⟩
  · exact ⟨hostRead_of_bad (badAccess_true hbad) s, hostWrite_of_bad (badAccess_true hbad) w s⟩
  · cases hb : s.status.busy with
    | true => exact ⟨_, hostWrite_of_busy (badAccess_false ha hlt) w hb⟩
    | false => exact ⟨_, hostWrite_of_idle (badAccess_false ha hlt) w hb⟩

/-- Settles O43: while idle by `storeAt_of_no_rw`, while busy as every write, and a read by `hostWord_reserved`. -/
theorem readOnlyAndReserved : Obligations.ReadOnlyAndReserved := by
  refine ⟨access_eq_ro_iff, fun addr w s ha hlt => ?_⟩
  have hgood := badAccess_false ha hlt
  refine ⟨fun hro => ⟨fun hidle => ?_, fun hbusy => hostWrite_of_busy hgood w hbusy⟩, fun hres => ?_⟩
  · rw [hostWrite_of_idle hgood w hidle, storeAt_of_no_rw w hro]
  · rw [hostRead_of_good hgood, hostWord_reserved ha ((mapFind_eq_none s.cfg addr).mpr hres)]

end Sys2Proof.Machine

/-! PROOFS of the statement about the command start (30_encoding.md R111, 60_exceptions.md R279). First one law for each
way a command start can end, and the decoder against the words of R101. -/

namespace Sys2Proof.Machine

/-- The clauses of 30_encoding.md R101 by the decoder's own fields of the word. -/
theorem legalWord_iff_fields (w : Word) :
    legalWord w ↔ reservedField w = 0 ∧ opcField w ∈ opcodes ∧
      (if opcField w = 0x02 then 1 ≤ (widthField w).toNat ∧ (widthField w).toNat ≤ 128 else widthField w = 0) ∧
      (opcField w ∈ [0x03, 0x08, 0x0A, 0x10, 0x20] → appendField w = false) := Iff.rfl

/-- A legal word decodes: its W and A are those its opcode asks for (30_encoding.md R98, R99, R101). -/
theorem decodeWord_of_legalWord {w : Word} (h : legalWord w) : ∃ i, decodeWord w = .instr i := by
  obtain ⟨hres, hopc, hwidth, happ⟩ := (legalWord_iff_fields w).mp h
  rw [← packWord_fields w hres, decodeWord_packWord]
  generalize opcField w = opc, widthField w = width, appendField w = append at *
  by_cases hencfix : opc = 0x02
  · subst hencfix
    exact ⟨_, if_pos hwidth⟩
  · rw [if_neg hencfix] at hwidth
    subst hwidth
    by_cases hplain : opc ∈ [0x03, 0x08, 0x0A, 0x10, 0x20]
    · obtain rfl := happ hplain
      simp only [List.mem_cons, List.not_mem_nil, or_false] at hplain
      rcases hplain with rfl | rfl | rfl | rfl | rfl <;> exact ⟨_, rfl⟩
    · have hfree : opc ∈ [0x01, 0x04, 0x09, 0x0B, 0x0C] := by
        simp only [opcodes, List.mem_cons, List.not_mem_nil, or_false] at hopc hplain ⊢
        tauto
      simp only [List.mem_cons, List.not_mem_nil, or_false] at hfree
      rcases hfree with rfl | rfl | rfl | rfl | rfl <;> exact ⟨_, rfl⟩

/-- A word that decodes is legal in the words of 30_encoding.md R101. -/
theorem legalWord_of_decodeWord {w : Word} {i : Instr} (h : decodeWord w = .instr i) : legalWord w := by
  have hres := reservedField_of_decodeWord h
  rw [legalWord_iff_fields]
  rcases decodeWord_cases h with ⟨ho, hw, -⟩ | ⟨ho, hw, -⟩ | ⟨ho, hw, ha, -⟩ | ⟨ho, hw, -⟩ | ⟨ho, hw, ha, -⟩ |
    ⟨ho, hw, -⟩ | ⟨ho, hw, ha, -⟩ | ⟨ho, hw, -⟩ | ⟨ho, hw, -⟩ | ⟨ho, hw, ha, -⟩ | ⟨ho, hw, ha, -⟩ <;>
    simp [*, opcodes]

/-- The words that decode are the legal ones (30_encoding.md R101). -/
theorem decode_instr_iff_legalWord (w : Word) : (∃ i, decode (wordBytes w) = .instr i) ↔ legalWord w := by
  rw [decode_wordBytes]
  exact ⟨fun ⟨_, h⟩ => legalWord_of_decodeWord h, decodeWord_of_legalWord⟩

/-- Among the words that decode, VERIFY is the one with opcode 0x20 (30_encoding.md R97). -/
theorem eq_verify_iff_opcField {w : Word} {i : Instr} (h : decodeWord w = .instr i) :
    i = .verify ↔ opcField w = 0x20 := by
  rcases decodeWord_cases h with ⟨ho, -, rfl⟩ | ⟨ho, -, rfl⟩ | ⟨ho, -, -, rfl⟩ | ⟨ho, -, rfl⟩ | ⟨ho, -, -, rfl⟩ |
    ⟨ho, -, rfl⟩ | ⟨ho, -, -, rfl⟩ | ⟨ho, -, rfl⟩ | ⟨ho, -, rfl⟩ | ⟨ho, -, -, rfl⟩ | ⟨ho, -, -, rfl⟩ <;>
    simp [ho]

/-- The start of a word that decodes: VERIFY begins with its length check, every other command with EXEC. -/
theorem startCommand_of_instr {w : Word} {i : Instr} (h : decode (wordBytes w) = .instr i) (s : State) :
    startCommand w s = { beginCommand w s with phase := if i = .verify then .vLen else .exec } := by
  rw [startCommand, h]
  cases i <;> rfl

/-- The start of a word that does not decode is an error completion (60_exceptions.md R279). -/
theorem startCommand_of_reject {w : Word} {why : Reject} (h : decode (wordBytes w) = .reject why) (s : State) :
    startCommand w s = raiseError .illegalCommand 0 { beginCommand w s with phase := .idle } := by
  rw [startCommand, h]

/-- The start of a legal word, with the phase by its opcode (30_encoding.md R111). -/
theorem startCommand_of_legalWord {w : Word} (h : legalWord w) (s : State) :
    startCommand w s = { beginCommand w s with phase := if opcField w = 0x20 then .vLen else .exec } := by
  obtain ⟨i, hi⟩ := (decode_instr_iff_legalWord w).mpr h
  rw [startCommand_of_instr hi]
  simp only [eq_verify_iff_opcField ((decode_wordBytes w).symm.trans hi)]

/-- The start of an illegal word (60_exceptions.md R279). -/
theorem startCommand_of_not_legalWord {w : Word} (h : ¬ legalWord w) (s : State) :
    startCommand w s = raiseError .illegalCommand 0 { beginCommand w s with phase := .idle } := by
  cases hd : decode (wordBytes w) with
  | instr i => exact absurd ((decode_instr_iff_legalWord w).mp ⟨i, hd⟩) h
  | reject why => exact startCommand_of_reject hd s

/-- A write of CTRL while idle is a command start (30_encoding.md R111). -/
theorem hostWrite_ctrl_of_idle (w : Word) {s : State} (hb : s.status.busy = false) :
    hostWrite 0x0000 w s = .next { startCommand w s with hostResp := .written } := by
  rw [hostWrite_of_idle (by decide) w hb, storeAt_reg s .ctrl 0 w (by decide) (by simp [Reg.base, Reg.size]), storeReg]

/-- Settles O38: an idle write of CTRL is a command start, which goes by `legalWord`; a busy one is as every busy
write. -/
theorem commandStart : Obligations.CommandStart := by
  intro w s
  refine ⟨fun hidle hlegal => ?_, fun hidle hillegal => ?_, hostWrite_of_busy (by decide) w⟩
  · rw [hostWrite_ctrl_of_idle w hidle, startCommand_of_legalWord hlegal]
    rfl
  · rw [hostWrite_ctrl_of_idle w hidle, startCommand_of_not_legalWord hillegal]
    rfl

end Sys2Proof.Machine

/-! PROOFS of the statements about the codec functions (40_bytecodec.md). First the bytes of `be` one by one, and the two
ways `strip` meets the head of a sequence, from which every law of `strip` follows by induction on the bytes. -/

namespace Sys2Proof.Machine

/-- Byte `k` of an encoding, counted from the most significant one (40_bytecodec.md R133). -/
theorem getD_be (v : Nat) {w k : Nat} (hk : k < w) :
    (be v w).getD k 0 = BitVec.ofNat 8 (v >>> (8 * (w - 1 - k))) := by
  induction w generalizing k with
  | zero => omega
  | succ w ih =>
    cases k with
    | zero => rfl
    | succ k =>
      rw [be, List.getD_cons_succ, ih (by omega)]
      congr 3
      omega

/-- The head of an encoding that the value fits is 0 exactly where one byte less would do. -/
theorem leadingByte_eq_zero_iff {v w : Nat} (h : v < 256 ^ (w + 1)) :
    BitVec.ofNat 8 (v >>> (8 * w)) = 0 ↔ v < 256 ^ w := by
  have hdiv : v / 256 ^ w < 256 := Nat.div_lt_of_lt_mul (by rwa [pow_succ] at h)
  have hbyte : (BitVec.ofNat 8 (v >>> (8 * w))).toNat = v / 256 ^ w := by
    rw [BitVec.toNat_ofNat, Nat.shiftRight_eq_div_pow, pow_mul]
    exact Nat.mod_eq_of_lt hdiv
  rw [← BitVec.toNat_inj, hbyte]
  exact Nat.div_eq_zero_iff_lt (by positivity)

theorem unbe_zero_cons (bs : List Byte) : unbe (0 :: bs) = unbe bs := by
  simp [unbe_cons]

/-- Stripping skips a zero at the head; for the zero alone too, `strip []` being one zero byte in the model. -/
theorem strip_zero_cons (bs : List Byte) : strip (0 :: bs) = strip bs := rfl

theorem strip_cons_of_ne_zero {b : Byte} (hb : b ≠ 0) (bs : List Byte) : strip (b :: bs) = b :: bs := by
  rw [strip, List.dropWhile_cons_of_neg (by simpa using hb)]

/-- Stripping keeps the value. -/
theorem unbe_strip (bs : List Byte) : unbe (strip bs) = unbe bs := by
  induction bs with
  | nil => rfl
  | cons b bs ih =>
    by_cases hb : b = 0
    · rw [hb, strip_zero_cons, ih, unbe_zero_cons]
    · rw [strip_cons_of_ne_zero hb]

theorem lt_pow_minlen (v : Nat) : v < 256 ^ minlen v := (minlen_le_iff v _ (minlen_pos v)).mp le_rfl

/-- The minimal encoding has nothing to strip: its head is nonzero, or it is one byte. -/
theorem strip_be_minlen (v : Nat) : strip (be v (minlen v)) = be v (minlen v) := by
  obtain ⟨m, hm⟩ := Nat.exists_eq_add_of_le' (minlen_pos v)
  have hlt := lt_pow_minlen v
  rw [hm] at hlt ⊢
  rw [be]
  by_cases hhead : BitVec.ofNat 8 (v >>> (8 * m)) = 0
  · have hv : v < 256 ^ m := (leadingByte_eq_zero_iff hlt).mp hhead
    obtain rfl : m = 0 := by
      by_contra hm0
      have := (minlen_le_iff v m (by omega)).mpr hv
      omega
    rw [hhead]
    rfl
  · exact strip_cons_of_ne_zero hhead _

/-- Stripping any encoding gives the minimal one: each width above the minimal adds one zero at the head. -/
theorem strip_be {v w : Nat} (h : minlen v ≤ w) : strip (be v w) = be v (minlen v) := by
  induction w, h using Nat.le_induction with
  | base => exact strip_be_minlen v
  | succ w hw ih =>
    have hv : v < 256 ^ w := (minlen_le_iff v w ((minlen_pos v).trans hw)).mp hw
    have hhead := (leadingByte_eq_zero_iff (hv.trans (Nat.pow_lt_pow_succ (by decide)))).mpr hv
    rw [be, hhead, strip_zero_cons, ih]

/-- The value is the positional sum (40_bytecodec.md R131). -/
theorem unbe_eq_sum (bs : List Byte) :
    unbe bs = ∑ k ∈ Finset.range bs.length, (bs.getD k 0).toNat * 256 ^ (bs.length - 1 - k) := by
  induction bs with
  | nil => rfl
  | cons b bs ih =>
    rw [unbe_cons, ih, List.length_cons, Finset.sum_range_succ', add_comm]
    congr 1
    refine Finset.sum_congr rfl fun k _ => ?_
    rw [List.getD_cons_succ, show bs.length + 1 - 1 - (k + 1) = bs.length - 1 - k by omega]

/-- Settles O5: (a) and (b) by the two directions of the coding, (c) by `strip_be`, (d) by `unbe_strip`. -/
theorem codecLaws : Obligations.CodecLaws := by
  refine ⟨fun v hv => ?_, fun bs hbs => ?_, fun v w r hw hfit hr => ?_, fun bs _ => unbe_strip bs,
    fun v w r hw hr => ?_⟩
  · have hlt : v < 256 ^ 32 := hv.trans_eq (by norm_num only)
    exact ⟨be v 32, (encodeFixed_eq_some v 32 _ (by decide)).mpr ⟨hlt, rfl⟩, unbe_be_of_lt hlt⟩
  · exact (encodeFixed_eq_some _ _ _ hbs).mpr ⟨unbe_lt bs, (be_unbe bs).symm⟩
  · obtain ⟨-, rfl⟩ := (encodeFixed_eq_some v w r hw).mp hr
    exact (encodeFixed_eq_some _ _ _ (minlen_pos v)).mpr ⟨lt_pow_minlen v, strip_be hfit⟩
  · obtain ⟨-, rfl⟩ := (encodeFixed_eq_some v w r hw).mp hr
    exact length_be v w

/-- Settles O6: failure by `minlen_le_iff`, and the bytes by `getD_be`. -/
theorem encodeFixedBytes : Obligations.EncodeFixedBytes := by
  intro v w hw
  have hfit := minlen_le_iff v w hw
  have hlong : minlen v > w ↔ 256 ^ w ≤ v := by rw [gt_iff_lt, ← not_le, hfit, not_lt]
  refine ⟨hlong, fun h => (encodeFixed_eq_none v w hw).mpr (hlong.mp h), fun h => ⟨be v w, ?_, length_be v w, ?_⟩⟩
  · exact (encodeFixed_eq_some v w _ hw).mpr ⟨hfit.mp h, rfl⟩
  · intro k hk
    rw [getD_be v hk, BitVec.toNat_ofNat]

/-- Settles O7: the least width by `minlen_le_iff`, and the length of the stripped encoding by `strip_be`. -/
theorem minimalLength : Obligations.MinimalLength := by
  refine ⟨by decide, fun v _ => ⟨minlen_pos v, lt_pow_minlen v, fun n hn => (minlen_le_iff v n hn).mpr⟩, ?_⟩
  intro v n hn hv
  rw [strip_be ((minlen_le_iff v n hn).mpr hv), length_be]

/-- Settles O9, by the positional sum and the bound of `unbe`. -/
theorem bigEndianValue : Obligations.BigEndianValue :=
  ⟨unbe_eq_sum, unbe_zero_cons, unbe_lt, unbe_nil⟩

end Sys2Proof.Machine

/-! PROOFS of the statements about the point codec (41_pointcodec.md). First what each decoder answers at every length. -/

namespace Sys2Proof.Machine

/-- Thirty-two bytes decode to their value (41_pointcodec.md R160). -/
theorem sdecode_of_length {bs : List Byte} (h : bs.length = 32) : sdecode bs = some (unbe bs) := if_pos h

/-- Any other length is a FormatError (41_pointcodec.md R160). -/
theorem sdecode_of_length_ne {bs : List Byte} (h : bs.length ≠ 32) : sdecode bs = none := if_neg h

/-- Sixty-four bytes decode to the point whose register image they are (41_pointcodec.md R162). -/
theorem g1decode_of_length {bs : List Byte} (h : bs.length = 64) : g1decode bs = some (g1OfImage bs) := if_pos h

/-- Any other length is a FormatError (41_pointcodec.md R162). -/
theorem g1decode_of_length_ne {bs : List Byte} (h : bs.length ≠ 64) : g1decode bs = none := if_neg h

/-- Decoding undoes the encoding of every point, on the curve or not (41_pointcodec.md R171). -/
theorem g1decode_enc1 (p : G1) : g1decode (enc1 p) = some p := by
  rw [g1decode_of_length (length_enc1 p), g1OfImage_enc1]

/-- The 32-byte encoding decodes to the value encoded, with no bound but the field's (41_pointcodec.md R171). -/
theorem sdecode_of_encodeFixed {v : Nat} {r : List Byte} (h : encodeFixed v 32 = some r) : sdecode r = some v := by
  obtain ⟨hlt, rfl⟩ := (encodeFixed_eq_some v 32 r (by decide)).mp h
  rw [sdecode_of_length (length_be v 32), unbe_be_of_lt hlt]

/-- Settles O10: the round trips by `g1decode_enc1` and `sdecode_of_encodeFixed`, where the encoding succeeds by law (a)
of the codec, and the failures by the length of the input. -/
theorem pointCodecLaws : Obligations.PointCodecLaws := by
  obtain ⟨hencodes, -⟩ := codecLaws
  refine ⟨g1decode_enc1, fun v hv => ?_, fun _ => sdecode_of_length_ne, fun _ => g1decode_of_length_ne⟩
  obtain ⟨r, hr, -⟩ := hencodes v hv
  exact ⟨r, hr, sdecode_of_encodeFixed hr⟩

end Sys2Proof.Machine

/-! PROOFS of the statements about VERIFY's phases and the verifier's registers (43_verifier.md). First VERIFY's action
in each phase, and what the reading of a pairing response answers. -/

namespace Sys2Proof.Machine

theorem exec_verify_of_vLen {s : State} (h : s.phase = .vLen) : exec .verify s = phaseLen s := by
  rw [exec, execVerify, h]

theorem exec_verify_of_vRange {s : State} (h : s.phase = .vRange) : exec .verify s = phaseRange s := by
  rw [exec, execVerify, h]

theorem exec_verify_of_vLcinit {s : State} (h : s.phase = .vLcinit) : exec .verify s = phaseLcinit s := by
  rw [exec, execVerify, h]

theorem exec_verify_of_vSmul {s : State} (h : s.phase = .vSmul) :
    exec .verify s = enginePhase issueSmul consumeSmul s := by
  rw [exec, execVerify, h]

theorem exec_verify_of_vAdd {s : State} (h : s.phase = .vAdd) :
    exec .verify s = enginePhase issueAdd consumeAdd s := by
  rw [exec, execVerify, h]

theorem exec_verify_of_vNeg {s : State} (h : s.phase = .vNeg) : exec .verify s = phaseNeg s := by
  rw [exec, execVerify, h]

theorem exec_verify_of_vPair {s : State} (h : s.phase = .vPair) :
    exec .verify s = enginePhase issuePair consumePair s := by
  rw [exec, execVerify, h]

/-- Outside its phases VERIFY has no action (log 13). -/
theorem exec_verify_of_not_ofVerify {s : State} (h : s.phase.ofVerify = false) :
    exec .verify s = .fault .noPhaseAction := by
  rw [exec, execVerify]
  cases hph : s.phase with
  | idle | exec => rfl
  | _ => rw [hph] at h; cases h

section

variable {issue consume : State → Host.Outcome State Fault Refusal} {s : State}

/-- While the engine has not answered, a phase with a request has no effect (42_engine_interface.md R190). -/
theorem enginePhase_of_waiting (hw : s.status.waiteng = true) (hv : s.rspValid = false) :
    enginePhase issue consume s = .next s := by
  rw [enginePhase, if_pos hw, if_neg (Bool.eq_false_iff.mp hv)]

theorem enginePhase_of_answered (hw : s.status.waiteng = true) (hv : s.rspValid = true) :
    enginePhase issue consume s = consume s := by
  rw [enginePhase, if_pos hw, if_pos hv]

end

/-- Thirty-two bytes of value 1 are true (42_engine_interface.md R199). -/
theorem readBool_one {bs : List Byte} (hlen : bs.length = 32) (hv : unbe bs = 1) : readBool (.ok bs) = .value true :=
  if_pos ⟨hlen, hv⟩

/-- Thirty-two bytes of value 0 are false (42_engine_interface.md R199). -/
theorem readBool_zero {bs : List Byte} (hlen : bs.length = 32) (hv : unbe bs = 0) :
    readBool (.ok bs) = .value false := by
  rw [readBool, if_neg (by omega), if_pos ⟨hlen, hv⟩]

/-- Any other bytes are a ProviderError (42_engine_interface.md R199). -/
theorem readBool_other {bs : List Byte} (h : ¬ (bs.length = 32 ∧ (unbe bs = 1 ∨ unbe bs = 0))) :
    readBool (.ok bs) = .error .providerError := by
  rw [readBool, if_neg (by tauto), if_neg (by tauto)]

theorem consumePair_of_value {s : State} {ok : Bool} (h : readBool s.rsp = .value ok) :
    consumePair s = .next (complete (setValid ok (consumeResponse s))) := by
  rw [consumePair, h]

theorem consumePair_of_error {s : State} {e : ErrorClass} (h : readBool s.rsp = .error e) :
    consumePair s = .next (raiseHere e s) := by
  rw [consumePair, h]

/-- An error in V_PAIR saves that phase's code and IDX in ERRINFO (60_exceptions.md R276). -/
theorem raiseHere_of_vPair {s : State} (h : s.phase = .vPair) (e : ErrorClass) :
    raiseHere e s = errorState e (0x1600 ||| s.idx.setWidth 32) s := by
  rw [raiseHere_eq, errinfoOf_eq, h]
  rfl

/-- Settles O31: the consume step by what `readBool` answers for each response. -/
theorem pairingVerdict : Obligations.PairingVerdict := by
  intro s hph hw
  rw [exec_verify_of_vPair hph]
  refine ⟨enginePhase_of_waiting hw, fun hv => ?_⟩
  rw [enginePhase_of_answered hw hv]
  refine ⟨fun bs hr hlen h1 => ?_, fun bs hr hlen h0 => ?_, fun bs hr hother => ?_, fun hr => ?_⟩
  · exact consumePair_of_value (hr ▸ readBool_one hlen h1)
  · exact consumePair_of_value (hr ▸ readBool_zero hlen h0)
  · rw [← raiseHere_of_vPair hph]
    exact consumePair_of_error (hr ▸ readBool_other hother)
  · rw [← raiseHere_of_vPair hph]
    exact consumePair_of_error (by rw [hr, readBool])

/-- Settles O33: each phase by its own case lemma of Laws/Step; the invariant bounds IDX in V_RANGE and V_ADD. -/
theorem phaseGraph : Obligations.PhaseGraph := by
  rintro s t ⟨-, ⟨hnpub, -, -⟩, -, -, -, ⟨-, hrange, hloop, -, -⟩, -, -⟩ hv h
  have hraise : ∀ e, e ≠ .none → (raiseHere e s).phase = .idle ∧ (raiseHere e s).status.err ≠ .none :=
    fun e he => ⟨rfl, he⟩
  cases hph : s.phase with
  | idle | exec => rw [hph] at hv; cases hv
  | vLen =>
    rw [exec_verify_of_vLen hph] at h
    obtain ⟨-, ⟨-, rfl⟩ | ⟨-, rfl⟩⟩ := phaseLen_cases h
    · exact .inl (hraise _ (by decide))
    · simp
  | vRange =>
    rw [exec_verify_of_vRange hph] at h
    obtain ⟨hidx, -⟩ := hrange hph
    obtain ⟨heq, rfl⟩ | ⟨hne, -, -, ⟨-, rfl⟩ | ⟨-, rfl⟩⟩ := phaseRange_cases h
    · simp [heq]
    · exact .inl (hraise _ (by decide))
    · have hlt : s.idx.toNat < s.npub.toNat := by omega
      have hsucc := toNat_idx_succ s.idx _ hlt hnpub
      simpa [hph, hlt, -BitVec.toNat_add] using hsucc
  | vLcinit =>
    rw [exec_verify_of_vLcinit hph] at h
    obtain ⟨p, -, rfl⟩ := phaseLcinit_cases h
    rcases Nat.eq_zero_or_pos s.npub.toNat with h0 | hpos
    · simp [h0]
    · simp [hpos]
  | vSmul =>
    rw [exec_verify_of_vSmul hph] at h
    obtain ⟨-, h⟩ | ⟨hw, -, rfl⟩ | ⟨-, -, h⟩ := enginePhase_cases h
    · obtain ⟨-, -, p, -, rfl⟩ := issueSmul_cases h
      simp [hph]
    · simp [hph, hw]
    · obtain ⟨e, he, rfl⟩ | ⟨p, -, rfl⟩ := consumeSmul_cases h
      · exact .inl (hraise e (readPoint_error he))
      · simp
  | vAdd =>
    rw [exec_verify_of_vAdd hph] at h
    have hidx := hloop (.inr hph)
    obtain ⟨-, h⟩ | ⟨hw, -, rfl⟩ | ⟨-, -, h⟩ := enginePhase_cases h
    · obtain ⟨-, rfl⟩ := issueAdd_cases h
      simp [hph]
    · simp [hph, hw]
    · obtain ⟨e, he, rfl⟩ | ⟨p, -, ⟨hmore, rfl⟩ | ⟨hlast, rfl⟩⟩ := consumeAdd_cases h
      · exact .inl (hraise e (readPoint_error he))
      · have hsucc := toNat_idx_succ s.idx _ hidx hnpub
        simpa [hmore, -BitVec.toNat_add] using hsucc
      · have heq : s.idx.toNat + 1 = s.npub.toNat := by omega
        simp [heq]
  | vNeg =>
    rw [exec_verify_of_vNeg hph] at h
    obtain ⟨-, rfl⟩ := phaseNeg_cases h
    simp
  | vPair =>
    rw [exec_verify_of_vPair hph] at h
    obtain ⟨-, h⟩ | ⟨hw, -, rfl⟩ | ⟨-, -, h⟩ := enginePhase_cases h
    · obtain ⟨-, rfl⟩ := issuePair_cases h
      simp [hph]
    · simp [hph, hw]
    · obtain ⟨e, he, rfl⟩ | ⟨ok, -, rfl⟩ := consumePair_cases h
      · exact .inl (hraise e (readBool_error he))
      · simp

/-- Settles O21, by the value of `toNat_negate_y`: a remainder is below BASE_P, so the difference is at least 1. -/
theorem negateValue : Obligations.NegateValue := by
  intro baseP p hlow hhigh
  refine ⟨fun hp => by rw [hp, negate, if_pos ⟨rfl, rfl⟩], fun hp => ?_⟩
  have hy := toNat_negate_y baseP p hp hhigh
  have hmod : p.y.toNat % baseP < baseP := Nat.mod_lt _ (by omega)
  exact ⟨by rw [negate_of_ne baseP p hp], hy, by omega, by omega⟩

/-- Settles O26: the key's first point goes to VKX, and its marks are those of `setVkx`. -/
theorem accumulatorInitPhase : Obligations.AccumulatorInitPhase := by
  intro s hph p hp
  rw [exec_verify_of_vLcinit hph, phaseLcinit, hp]
  exact ⟨_, rfl, rfl, rfl, rfl, nowWritten_markWritten .vkx 0 64 { s with vkx := p }, rfl⟩

/-! The two units are separate (43_verifier.md R238): changing the other unit's registers commutes with every operation
of a unit, and so with its steps. -/

/-- The step `g` neither reads nor writes what `f` changes: changing the state before it is changing it after, and it
stops for the same reason. -/
def CommutesWith (f : State → State) (g : State → Host.Outcome State Fault Refusal) : Prop :=
  ∀ s, g (f s) = mapNext f (g s)

/-- Reading operands looks at the written marks only: where `f` keeps them, it goes on to the changed state. -/
theorem readThen_mapNext {f : State → State} {s t t' : State} {ops : List Operand}
    (hf : (f s).written = s.written) (ht : t' = f t) : readThen ops (f s) t' = mapNext f (readThen ops s t) := by
  have hmarks : ∀ o : Operand, o.isWritten (f s) = o.isWritten s := fun o => by
    rw [Operand.isWritten, allWritten, hf]
    rfl
  simp only [readThen, hmarks, ht]
  cases ops.find? (fun o => !o.isWritten s) <;> rfl

section

variable {p : G1} {q : G2} {v : WideInt} {cin cout : Memory} {cinlen coutlen : Word} {s : State}

@[simp] theorem withCodecRegs_status : (withCodecRegs p q v cin cout cinlen coutlen s).status = s.status := rfl
@[simp] theorem withCodecRegs_phase : (withCodecRegs p q v cin cout cinlen coutlen s).phase = s.phase := rfl
@[simp] theorem withCodecRegs_idx : (withCodecRegs p q v cin cout cinlen coutlen s).idx = s.idx := rfl
@[simp] theorem withCodecRegs_rspValid : (withCodecRegs p q v cin cout cinlen coutlen s).rspValid = s.rspValid := rfl
@[simp] theorem withCodecRegs_rsp : (withCodecRegs p q v cin cout cinlen coutlen s).rsp = s.rsp := rfl
@[simp] theorem withCodecRegs_cfg : (withCodecRegs p q v cin cout cinlen coutlen s).cfg = s.cfg := rfl

theorem phaseLen_withCodecRegs : CommutesWith (withCodecRegs p q v cin cout cinlen coutlen) phaseLen := by
  refine fun _ => readThen_mapNext rfl ?_
  rw [apply_ite (withCodecRegs p q v cin cout cinlen coutlen)]
  rfl

theorem phaseRange_withCodecRegs : CommutesWith (withCodecRegs p q v cin cout cinlen coutlen) phaseRange := by
  intro s
  rw [phaseRange, phaseRange, apply_ite (mapNext _), apply_ite (mapNext _)]
  refine if_congr Iff.rfl rfl (if_congr Iff.rfl (readThen_mapNext rfl ?_) rfl)
  rw [apply_ite (withCodecRegs p q v cin cout cinlen coutlen)]
  rfl

theorem phaseLcinit_withCodecRegs : CommutesWith (withCodecRegs p q v cin cout cinlen coutlen) phaseLcinit := by
  intro s
  rw [phaseLcinit, phaseLcinit, withCodecRegs_cfg]
  cases s.cfg.vk.ic[0]? <;> rfl

theorem issueSmul_withCodecRegs : CommutesWith (withCodecRegs p q v cin cout cinlen coutlen) issueSmul := by
  intro s
  rw [issueSmul, issueSmul, withCodecRegs_cfg, withCodecRegs_idx]
  cases s.cfg.vk.ic[s.idx.toNat + 1]? with
  | none => rfl
  | some pt =>
    dsimp only
    rw [apply_ite (mapNext _)]
    exact if_congr Iff.rfl (readThen_mapNext rfl rfl) rfl

theorem consumeSmul_withCodecRegs : CommutesWith (withCodecRegs p q v cin cout cinlen coutlen) consumeSmul := by
  intro s
  rw [consumeSmul, consumeSmul, withCodecRegs_rsp]
  cases readPoint s.rsp <;> rfl

theorem issueAdd_withCodecRegs : CommutesWith (withCodecRegs p q v cin cout cinlen coutlen) issueAdd :=
  fun _ => readThen_mapNext rfl rfl

theorem consumeAdd_withCodecRegs : CommutesWith (withCodecRegs p q v cin cout cinlen coutlen) consumeAdd := by
  intro s
  rw [consumeAdd, consumeAdd, withCodecRegs_rsp]
  cases readPoint s.rsp with
  | error e => rfl
  | value pt =>
    dsimp only
    rw [apply_ite (mapNext _)]
    rfl

theorem phaseNeg_withCodecRegs : CommutesWith (withCodecRegs p q v cin cout cinlen coutlen) phaseNeg :=
  fun _ => readThen_mapNext rfl rfl

theorem issuePair_withCodecRegs : CommutesWith (withCodecRegs p q v cin cout cinlen coutlen) issuePair :=
  fun _ => readThen_mapNext rfl rfl

theorem consumePair_withCodecRegs : CommutesWith (withCodecRegs p q v cin cout cinlen coutlen) consumePair := by
  intro s
  rw [consumePair, consumePair, withCodecRegs_rsp]
  cases readBool s.rsp <;> rfl

/-- A phase with an engine request commutes where its two steps do: WAITENG and RSP_VALID are no codec registers. -/
theorem enginePhase_withCodecRegs {issue consume : State → Host.Outcome State Fault Refusal}
    (hissue : CommutesWith (withCodecRegs p q v cin cout cinlen coutlen) issue)
    (hconsume : CommutesWith (withCodecRegs p q v cin cout cinlen coutlen) consume) :
    CommutesWith (withCodecRegs p q v cin cout cinlen coutlen) (enginePhase issue consume) := by
  intro s
  rw [enginePhase, enginePhase, withCodecRegs_status, withCodecRegs_rspValid, hissue s, hconsume s,
    apply_ite (mapNext _), apply_ite (mapNext _)]
  rfl

/-- VERIFY has no business with the codec's registers (43_verifier.md R238). -/
theorem exec_verify_withCodecRegs :
    CommutesWith (withCodecRegs p q v cin cout cinlen coutlen) (exec .verify) := by
  intro s
  have hphase : (withCodecRegs p q v cin cout cinlen coutlen s).phase = s.phase := withCodecRegs_phase
  cases h : s.phase <;> rw [h] at hphase
  case idle | exec =>
    rw [exec_verify_of_not_ofVerify (by rw [hphase]; rfl), exec_verify_of_not_ofVerify (by rw [h]; rfl)]
    rfl
  case vLen =>
    rw [exec_verify_of_vLen hphase, exec_verify_of_vLen h]
    exact phaseLen_withCodecRegs s
  case vRange =>
    rw [exec_verify_of_vRange hphase, exec_verify_of_vRange h]
    exact phaseRange_withCodecRegs s
  case vLcinit =>
    rw [exec_verify_of_vLcinit hphase, exec_verify_of_vLcinit h]
    exact phaseLcinit_withCodecRegs s
  case vSmul =>
    rw [exec_verify_of_vSmul hphase, exec_verify_of_vSmul h]
    exact enginePhase_withCodecRegs issueSmul_withCodecRegs consumeSmul_withCodecRegs s
  case vAdd =>
    rw [exec_verify_of_vAdd hphase, exec_verify_of_vAdd h]
    exact enginePhase_withCodecRegs issueAdd_withCodecRegs consumeAdd_withCodecRegs s
  case vNeg =>
    rw [exec_verify_of_vNeg hphase, exec_verify_of_vNeg h]
    exact phaseNeg_withCodecRegs s
  case vPair =>
    rw [exec_verify_of_vPair hphase, exec_verify_of_vPair h]
    exact enginePhase_withCodecRegs issuePair_withCodecRegs consumePair_withCodecRegs s

end

section

variable {a : G1} {b : G2} {c : G1} {pub : Vector Field 64} {npub : Word} {vkx term nega : G1} {s : State}

@[simp] theorem withVerifierRegs_v : (withVerifierRegs a b c pub npub vkx term nega s).v = s.v := rfl

@[simp] theorem cinContent_withVerifierRegs :
    cinContent (withVerifierRegs a b c pub npub vkx term nega s) = cinContent s := rfl

theorem putCout_withVerifierRegs (append : Bool) (r : List Byte) :
    putCout append r (withVerifierRegs a b c pub npub vkx term nega s) =
      withVerifierRegs a b c pub npub vkx term nega (putCout append r s) := by
  rw [putCout, putCout, apply_ite (withVerifierRegs a b c pub npub vkx term nega),
    apply_ite (withVerifierRegs a b c pub npub vkx term nega)]
  rfl

theorem putEncodedV_withVerifierRegs (append : Bool) (w : Nat) :
    putEncodedV append w (withVerifierRegs a b c pub npub vkx term nega s) =
      withVerifierRegs a b c pub npub vkx term nega (putEncodedV append w s) := by
  rw [putEncodedV, putEncodedV, withVerifierRegs_v]
  cases encodeFixed s.v.toNat w with
  | none => rfl
  | some r => exact putCout_withVerifierRegs append r

/-- A codec command and NEG have no business with the verifier's registers (43_verifier.md R238). -/
theorem exec_single_withVerifierRegs {i : Instr} (hi : singleStep i = true) :
    CommutesWith (withVerifierRegs a b c pub npub vkx term nega) (exec i) := by
  intro s
  cases i with
  | strip append =>
    refine readThen_mapNext rfl ?_
    rw [apply_ite (withVerifierRegs a b c pub npub vkx term nega), ← putCout_withVerifierRegs]
    rfl
  | encfix append width => exact readThen_mapNext rfl (putEncodedV_withVerifierRegs append width.toNat)
  | senc append => exact readThen_mapNext rfl (putEncodedV_withVerifierRegs append 32)
  | concat append => exact readThen_mapNext rfl (putCout_withVerifierRegs append (cinContent s))
  | g1enc append => exact readThen_mapNext rfl (putCout_withVerifierRegs append (enc1 s.p))
  | g2enc append => exact readThen_mapNext rfl (putCout_withVerifierRegs append (enc2 s.q))
  | sdec =>
    refine readThen_mapNext rfl ?_
    rw [cinContent_withVerifierRegs]
    cases sdecode (cinContent s) <;> rfl
  | g1dec =>
    refine readThen_mapNext rfl ?_
    rw [cinContent_withVerifierRegs]
    cases g1decode (cinContent s) <;> rfl
  | decuint => exact readThen_mapNext rfl rfl
  | neg => exact readThen_mapNext rfl rfl
  | verify | engAdd | engSmul | engPair => cases hi

end

/-- Settles O52: VERIFY commutes with the codec's registers, and the single-step commands with the verifier's. -/
theorem unitsAreSeparate : Obligations.UnitsAreSeparate :=
  ⟨fun s _ _ _ _ _ _ _ => exec_verify_withCodecRegs s,
    fun _ s _ _ _ _ _ _ _ _ hi => exec_single_withVerifierRegs hi s⟩

end Sys2Proof.Machine

/-! PROOFS of the statements about errors and the parameters (60_exceptions.md). First the fields of the STATUS word
(10_state.md R24). -/

namespace Sys2Proof.Machine

/-- Bit 1 of the STATUS word is DONE. -/
theorem done_word (st : Status) : st.word.getLsbD 1 = st.done := by
  simp only [Status.word, BitVec.getLsbD_append]
  simp

/-- Bit 2 of the STATUS word is VALID. -/
theorem valid_word (st : Status) : st.word.getLsbD 2 = st.valid := by
  simp only [Status.word, BitVec.getLsbD_append]
  simp

/-- Bit 4 of the STATUS word is WAITENG. -/
theorem waiteng_word (st : Status) : st.word.getLsbD 4 = st.waiteng := by
  simp only [Status.word, BitVec.getLsbD_append]
  simp

/-- Bits 15:8 of the STATUS word are the code of ERR: the six fields under it make eight bits. -/
theorem err_word (st : Status) : st.word.extractLsb' 8 8 = st.err.code := by
  rw [Status.word]
  iterate 6 rw [BitVec.extractLsb'_append_eq_of_le (by decide)]
  exact BitVec.extractLsb'_append_eq_right

/-- Settles O39: the states by `raiseError_eq` and `raiseHere_eq`, ERRINFO by `errinfoOf_eq`, and STATUS by the fields
of its word. -/
theorem errorCompletion : Obligations.ErrorCompletion := by
  intro e info s
  refine ⟨raiseError_eq e info s, by rw [raiseHere_eq, errinfoOf_eq], err_word _, ?_, waiteng_word _, rfl⟩
  ext i hi
  rw [BitVec.getElem_extractLsb', Nat.zero_add]
  interval_cases i
  · rw [busy_word]
    simp
  · rw [done_word]
    simp
  · rw [valid_word]
    simp

/-! The parameters: each operation that chooses between updates keeps them, and so each agent's step. -/

/-- The start of a command, legal or not, keeps the parameters. -/
@[simp] theorem startCommand_cfg (w : Word) (s : State) : (startCommand w s).cfg = s.cfg := by
  cases h : decode (wordBytes w) with
  | instr i => rw [startCommand_of_instr h, beginCommand_cfg]
  | reject why => rw [startCommand_of_reject h, raiseError_cfg, beginCommand_cfg]

theorem storeBounded_cfg (r : Reg) (bound : Nat) (w : Word) {stored s : State} (h : stored.cfg = s.cfg) :
    (storeBounded r bound w stored s).cfg = s.cfg := by
  rw [storeBounded]
  split_ifs
  · exact h
  · rfl

/-- No register the host can name holds a parameter: its store goes to that register and its marks. -/
@[simp] theorem storeReg_cfg (r : Reg) (k : Nat) (w : Word) (s : State) : (storeReg r k w s).cfg = s.cfg := by
  cases r with
  | ctrl => exact startCommand_cfg w s
  | npub | cinlen | coutlen => exact storeBounded_cfg _ _ _ rfl
  | _ => rfl

@[simp] theorem storeAt_cfg (off : Nat) (w : Word) (s : State) : (storeAt off w s).cfg = s.cfg := by
  rcases storeAt_cases off w s with h | ⟨r, -, -, -, h⟩
  · rw [h]
  · rw [h, storeReg_cfg]

/-- No host access changes a parameter (60_exceptions.md R291). -/
theorem hostStep_cfg {s t : State} (h : hostStep s = .next t) : t.cfg = s.cfg := by
  obtain rfl | ⟨_, _, rfl, -⟩ | ⟨_, _, _, -, -, -, ⟨-, rfl⟩ | ⟨-, rfl⟩⟩ := hostStep_cases h
  · rfl
  · rfl
  · rfl
  · exact storeAt_cfg _ _ _

@[simp] theorem answerRequest_cfg (sel : Byte) (s : State) : (answerRequest sel s).cfg = s.cfg := by
  rw [answerRequest]
  split_ifs <;> rfl

@[simp] theorem putCout_cfg (append : Bool) (r : List Byte) (s : State) : (putCout append r s).cfg = s.cfg := by
  rw [putCout]
  split_ifs <;> rfl

@[simp] theorem putEncodedV_cfg (append : Bool) (w : Nat) (s : State) : (putEncodedV append w s).cfg = s.cfg := by
  rw [putEncodedV]
  cases encodeFixed s.v.toNat w with
  | none => rfl
  | some r => exact putCout_cfg append r s

/-- A phase with an engine request keeps the parameters where its two steps do. -/
theorem enginePhase_cfg {issue consume : State → Host.Outcome State Fault Refusal} {s t : State}
    (h : enginePhase issue consume s = .next t) (hissue : issue s = .next t → t.cfg = s.cfg)
    (hconsume : consume s = .next t → t.cfg = s.cfg) : t.cfg = s.cfg := by
  obtain ⟨-, h⟩ | ⟨-, -, rfl⟩ | ⟨-, -, h⟩ := enginePhase_cases h
  · exact hissue h
  · rfl
  · exact hconsume h

/-- No phase of VERIFY changes a parameter (60_exceptions.md R291). -/
theorem exec_verify_cfg {s t : State} (h : exec .verify s = .next t) : t.cfg = s.cfg := by
  cases hph : s.phase with
  | idle | exec =>
    rw [exec_verify_of_not_ofVerify (by rw [hph]; rfl)] at h
    cases h
  | vLen =>
    rw [exec_verify_of_vLen hph] at h
    obtain ⟨-, ⟨-, rfl⟩ | ⟨-, rfl⟩⟩ := phaseLen_cases h <;> rfl
  | vRange =>
    rw [exec_verify_of_vRange hph] at h
    obtain ⟨-, rfl⟩ | ⟨-, -, -, ⟨-, rfl⟩ | ⟨-, rfl⟩⟩ := phaseRange_cases h <;> rfl
  | vLcinit =>
    rw [exec_verify_of_vLcinit hph] at h
    obtain ⟨_, -, rfl⟩ := phaseLcinit_cases h
    rfl
  | vSmul =>
    rw [exec_verify_of_vSmul hph] at h
    refine enginePhase_cfg h (fun hi => ?_) (fun hc => ?_)
    · obtain ⟨-, -, _, -, rfl⟩ := issueSmul_cases hi
      rfl
    · obtain ⟨_, -, rfl⟩ | ⟨_, -, rfl⟩ := consumeSmul_cases hc <;> rfl
  | vAdd =>
    rw [exec_verify_of_vAdd hph] at h
    refine enginePhase_cfg h (fun hi => ?_) (fun hc => ?_)
    · obtain ⟨-, rfl⟩ := issueAdd_cases hi
      rfl
    · obtain ⟨_, -, rfl⟩ | ⟨_, -, ⟨-, rfl⟩ | ⟨-, rfl⟩⟩ := consumeAdd_cases hc <;> rfl
  | vNeg =>
    rw [exec_verify_of_vNeg hph] at h
    obtain ⟨-, rfl⟩ := phaseNeg_cases h
    rfl
  | vPair =>
    rw [exec_verify_of_vPair hph] at h
    refine enginePhase_cfg h (fun hi => ?_) (fun hc => ?_)
    · obtain ⟨-, rfl⟩ := issuePair_cases hi
      rfl
    · obtain ⟨_, -, rfl⟩ | ⟨_, -, rfl⟩ := consumePair_cases hc <;> rfl

/-- No command and no engine request changes a parameter, in any state (60_exceptions.md R291). -/
theorem exec_cfg {i : Instr} {s t : State} (h : exec i s = .next t) : t.cfg = s.cfg := by
  cases i with
  | strip append =>
    obtain ⟨-, rfl⟩ := readThen_eq_next h
    split_ifs
    · rfl
    · exact putCout_cfg append _ s
  | encfix append width =>
    obtain ⟨-, rfl⟩ := readThen_eq_next h
    exact putEncodedV_cfg append _ s
  | senc append =>
    obtain ⟨-, rfl⟩ := readThen_eq_next h
    exact putEncodedV_cfg append _ s
  | concat append | g1enc append | g2enc append =>
    obtain ⟨-, rfl⟩ := readThen_eq_next h
    exact putCout_cfg append _ s
  | sdec | g1dec =>
    obtain ⟨-, rfl⟩ := readThen_eq_next h
    split <;> rfl
  | decuint | neg =>
    obtain ⟨-, rfl⟩ := readThen_eq_next h
    rfl
  | verify => exact exec_verify_cfg h
  | engAdd | engSmul | engPair =>
    cases h
    exact answerRequest_cfg _ s

/-- The sequencer's step changes no parameter. -/
theorem runPhase_cfg {s t : State} (h : runPhase s = .next t) : t.cfg = s.cfg := by
  cases hph : s.phase with
  | idle =>
    rw [runPhase, hph] at h
    cases h
    rfl
  | exec =>
    rw [runPhase, hph] at h
    dsimp only at h
    rw [runCommand] at h
    cases hd : decode (wordBytes s.ctrl) with
    | instr i =>
      rw [hd] at h
      exact exec_cfg h
    | reject why =>
      rw [hd] at h
      cases h
  | _ =>
    rw [runPhase, hph] at h
    exact exec_verify_cfg h

@[simp] theorem afterTurn_cfg (s : State) : (afterTurn s).cfg = s.cfg := rfl

/-- Settles O50: an agent's step starts from `s` without its turn, and reset keeps the parameters by definition
(70_reset_and_hazards.md R312). -/
theorem parametersNeverChange : Obligations.ParametersNeverChange := by
  intro s t h
  obtain rfl | ⟨-, rfl⟩ | h | ⟨-, rfl⟩ | ⟨-, h⟩ := step_cases h
  · rfl
  · rfl
  · rw [hostStep_cfg h, afterTurn_cfg]
  · rw [answerRequest_cfg, tick_cfg, afterTurn_cfg]
  · rw [runPhase_cfg h, tick_cfg, afterTurn_cfg]

end Sys2Proof.Machine

/-! PROOFS of the statements about reset and about the host's writes while a command runs (70_reset_and_hazards.md).
First the STATUS bit HAZ: each operation keeps it, and so does every step of the sequencer and of the engine. -/

namespace Sys2Proof.Machine

/-- Every next state that an action gives holds the HAZ it started from. -/
def KeepsHaz (g : State → Host.Outcome State Fault Refusal) : Prop :=
  ∀ ⦃s t : State⦄, g s = .next t → t.status.haz = s.status.haz

theorem haz_of_readThen {ops : List Operand} {s t u : State} (h : readThen ops s t = .next u)
    (ht : t.status.haz = s.status.haz) : u.status.haz = s.status.haz := by
  obtain ⟨-, rfl⟩ := readThen_eq_next h
  exact ht

theorem putCout_haz (append : Bool) (r : List Byte) (s : State) :
    (putCout append r s).status.haz = s.status.haz := by
  rw [putCout]
  split_ifs <;> rfl

theorem putEncodedV_haz (append : Bool) (w : Nat) (s : State) :
    (putEncodedV append w s).status.haz = s.status.haz := by
  rw [putEncodedV]
  cases encodeFixed s.v.toNat w with
  | none => rfl
  | some r => exact putCout_haz append r s

/-- The answer step writes the response and RSP_VALID only (42_engine_interface.md R190). -/
@[simp] theorem answerRequest_status (sel : Byte) (s : State) : (answerRequest sel s).status = s.status := by
  rw [answerRequest]
  split_ifs <;> rfl

theorem phaseLen_keepsHaz : KeepsHaz phaseLen := by
  intro s t h
  obtain ⟨-, ⟨-, rfl⟩ | ⟨-, rfl⟩⟩ := phaseLen_cases h <;> rfl

theorem phaseRange_keepsHaz : KeepsHaz phaseRange := by
  intro s t h
  obtain ⟨-, rfl⟩ | ⟨-, -, -, ⟨-, rfl⟩ | ⟨-, rfl⟩⟩ := phaseRange_cases h <;> rfl

theorem phaseLcinit_keepsHaz : KeepsHaz phaseLcinit := by
  intro s t h
  obtain ⟨_, -, rfl⟩ := phaseLcinit_cases h
  rfl

theorem issueSmul_keepsHaz : KeepsHaz issueSmul := by
  intro s t h
  obtain ⟨-, -, _, -, rfl⟩ := issueSmul_cases h
  rfl

theorem consumeSmul_keepsHaz : KeepsHaz consumeSmul := by
  intro s t h
  obtain ⟨_, -, rfl⟩ | ⟨_, -, rfl⟩ := consumeSmul_cases h <;> rfl

theorem issueAdd_keepsHaz : KeepsHaz issueAdd := fun _ _ h => haz_of_readThen h rfl

theorem consumeAdd_keepsHaz : KeepsHaz consumeAdd := by
  intro s t h
  obtain ⟨_, -, rfl⟩ | ⟨_, -, ⟨-, rfl⟩ | ⟨-, rfl⟩⟩ := consumeAdd_cases h <;> rfl

theorem phaseNeg_keepsHaz : KeepsHaz phaseNeg := fun _ _ h => haz_of_readThen h rfl

theorem issuePair_keepsHaz : KeepsHaz issuePair := fun _ _ h => haz_of_readThen h rfl

theorem consumePair_keepsHaz : KeepsHaz consumePair := by
  intro s t h
  obtain ⟨_, -, rfl⟩ | ⟨_, -, rfl⟩ := consumePair_cases h <;> rfl

/-- A phase with an engine request keeps HAZ where its two steps do; while it waits it changes nothing. -/
theorem enginePhase_keepsHaz {issue consume : State → Host.Outcome State Fault Refusal} (hissue : KeepsHaz issue)
    (hconsume : KeepsHaz consume) : KeepsHaz (enginePhase issue consume) := by
  intro s t h
  obtain ⟨-, h⟩ | ⟨-, -, rfl⟩ | ⟨-, -, h⟩ := enginePhase_cases h
  · exact hissue h
  · rfl
  · exact hconsume h

theorem exec_verify_keepsHaz : KeepsHaz (exec .verify) := by
  intro s t h
  cases hph : s.phase with
  | idle | exec =>
    rw [exec_verify_of_not_ofVerify (by rw [hph]; rfl)] at h
    cases h
  | vLen => exact phaseLen_keepsHaz (exec_verify_of_vLen hph ▸ h)
  | vRange => exact phaseRange_keepsHaz (exec_verify_of_vRange hph ▸ h)
  | vLcinit => exact phaseLcinit_keepsHaz (exec_verify_of_vLcinit hph ▸ h)
  | vSmul => exact enginePhase_keepsHaz issueSmul_keepsHaz consumeSmul_keepsHaz (exec_verify_of_vSmul hph ▸ h)
  | vAdd => exact enginePhase_keepsHaz issueAdd_keepsHaz consumeAdd_keepsHaz (exec_verify_of_vAdd hph ▸ h)
  | vNeg => exact phaseNeg_keepsHaz (exec_verify_of_vNeg hph ▸ h)
  | vPair => exact enginePhase_keepsHaz issuePair_keepsHaz consumePair_keepsHaz (exec_verify_of_vPair hph ▸ h)

/-- No command and no engine request changes HAZ: both completions leave it to the host (60_exceptions.md R276). -/
theorem exec_keepsHaz (i : Instr) : KeepsHaz (exec i) := by
  intro s t h
  cases i with
  | strip append =>
    refine haz_of_readThen h ?_
    split_ifs
    · rfl
    · exact putCout_haz append _ s
  | encfix append width => exact haz_of_readThen h (putEncodedV_haz append width.toNat s)
  | senc append => exact haz_of_readThen h (putEncodedV_haz append 32 s)
  | concat append | g1enc append | g2enc append => exact haz_of_readThen h (putCout_haz append _ s)
  | sdec | g1dec =>
    refine haz_of_readThen h ?_
    split <;> rfl
  | decuint | neg => exact haz_of_readThen h rfl
  | verify => exact exec_verify_keepsHaz h
  | engAdd | engSmul | engPair =>
    cases h
    rw [answerRequest_status]

/-- What the sequencer's step can do: nothing, or an instruction's action. -/
theorem runPhase_cases {s t : State} (h : runPhase s = .next t) : t = s ∨ ∃ i, exec i s = .next t := by
  cases hph : s.phase with
  | idle =>
    rw [runPhase, hph] at h
    cases h
    exact .inl rfl
  | exec =>
    rw [runPhase, hph] at h
    dsimp only at h
    rw [runCommand] at h
    cases hd : decode (wordBytes s.ctrl) with
    | instr i =>
      rw [hd] at h
      exact .inr ⟨i, h⟩
    | reject why =>
      rw [hd] at h
      cases h
  | _ =>
    rw [runPhase, hph] at h
    exact .inr ⟨.verify, h⟩

theorem runPhase_keepsHaz : KeepsHaz runPhase := by
  intro s t h
  obtain rfl | ⟨i, hi⟩ := runPhase_cases h
  · rfl
  · exact exec_keepsHaz i hi

/-! The host's store: only a write of CTRL reaches STATUS. -/

@[simp] theorem startCommand_ctrl (w : Word) (s : State) : (startCommand w s).ctrl = w := by
  cases h : decode (wordBytes w) with
  | instr i => rw [startCommand_of_instr h, beginCommand_ctrl]
  | reject why => rw [startCommand_of_reject h, raiseError_ctrl, beginCommand_ctrl]

theorem storeBounded_status (r : Reg) (bound : Nat) (w : Word) {stored s : State} (h : stored.status = s.status) :
    (storeBounded r bound w stored s).status = s.status := by
  rw [storeBounded]
  split_ifs
  · exact h
  · rfl

/-- The store of any register but CTRL leaves STATUS (20_memory.md R69). -/
theorem storeReg_status {r : Reg} (hr : r ≠ .ctrl) (k : Nat) (w : Word) (s : State) :
    (storeReg r k w s).status = s.status := by
  cases r with
  | ctrl => exact absurd rfl hr
  | npub | cinlen | coutlen => exact storeBounded_status _ _ _ rfl
  | _ => rfl

/-- A store of an aligned word leaves STATUS, or it is the store of CTRL, at offset 0 (20_memory.md R65). -/
theorem storeAt_status_or_ctrl {off : Nat} (ha : off % 4 = 0) (w : Word) (s : State) :
    (storeAt off w s).status = s.status ∨ (off = 0 ∧ (storeAt off w s).ctrl = w) := by
  rcases storeAt_cases off w s with hs | ⟨r, -, -, hhi, hs⟩
  · exact .inl (by rw [hs])
  · rw [hs]
    by_cases hr : r = .ctrl
    · subst hr
      have hlt : off < 4 := hhi
      exact .inr ⟨by omega, startCommand_ctrl w s⟩
    · exact .inl (storeReg_status hr _ w s)

/-- The host's step clears HAZ only as a write of CTRL while idle (70_reset_and_hazards.md R316). -/
theorem hostStep_haz {s t : State} (h : hostStep s = .next t) (hz : s.status.haz = true) :
    t.status.haz = true ∨
      (s.status.busy = false ∧ ∃ w rest, s.hostProg = .wr 0x0000 w :: rest ∧ t.ctrl = w) := by
  obtain rfl | ⟨_, _, rfl, -⟩ | ⟨addr, w, rest, hp, ha, -, ⟨-, rfl⟩ | ⟨hidle, rfl⟩⟩ := hostStep_cases h
  · exact .inl hz
  · exact .inl hz
  · exact .inl rfl
  · rcases storeAt_status_or_ctrl ha w { s with hostProg := rest } with hs | ⟨rfl, hc⟩
    · exact .inl ((congrArg Status.haz hs).trans hz)
    · exact .inr ⟨hidle, w, rest, hp, hc⟩

/-- Settles O47: the write itself is `hostWrite_of_busy`; afterwards the sequencer and the engine keep HAZ, and the host
loses it only by `hostStep_haz`. -/
theorem writeWhileBusy : Obligations.WriteWhileBusy := by
  refine ⟨fun addr w s hb ha hlt => hostWrite_of_busy (badAccess_false ha hlt) w hb, fun s t h hz => ?_⟩
  obtain rfl | ⟨hr, -⟩ | h | ⟨-, rfl⟩ | ⟨-, h⟩ := step_cases h
  · exact .inl hz
  · exact .inr (.inl hr)
  · exact (hostStep_haz h hz).imp_right .inr
  · rw [answerRequest_status]
    exact .inl hz
  · exact .inl ((runPhase_keepsHaz h).trans hz)

/-! Reset. -/

/-- A turn of the reset input resets the block, whatever it was doing (70_reset_and_hazards.md R310). -/
theorem step_of_reset {s : State} {ts : List Turn} (h : s.turns = .reset :: ts) :
    step s = .next (resetBlock { s with turns := ts }) := by
  rw [step, agentStep, h]
  rfl

/-- STATUS reads 0 at its reset value (10_state.md R49). -/
theorem word_zero : Status.zero.word = 0 := by decide

/-- Settles O49: the step is `resetBlock`, whose block state is that of `State.reset` and whose parameters are those of
`s`. -/
theorem resetState : Obligations.ResetState := by
  refine ⟨fun s ts hts => ⟨_, step_of_reset hts, ?_⟩, ?_⟩
  · exact ⟨rfl, word_zero, rfl, rfl, rfl, rfl, rfl, rfl, rfl, Memory.read_nil, rfl⟩
  · exact ⟨rfl, word_zero, rfl, rfl, rfl, rfl, rfl, rfl, rfl, Memory.read_nil⟩

end Sys2Proof.Machine

/-! PROOFS of the statements about the encodings (30_encoding.md sections 1 to 3). -/

namespace Sys2Proof.Machine

/-- What a command word decodes to is admitted by its encoding, and packs to that word (30_encoding.md R97, R107). -/
theorem encode_of_decodeWord {w : Word} {i : Instr} (h : decodeWord w = .instr i) :
    i.wellFormed = true ∧ encode i = wordBytes w := by
  have hpack := packWord_fields w (reservedField_of_decodeWord h)
  obtain ⟨ho, hw, rfl⟩ | ⟨ho, hw, rfl⟩ | ⟨ho, hw, ha, rfl⟩ | ⟨ho, hw, rfl⟩ | ⟨ho, hw, ha, rfl⟩ | ⟨ho, hw, rfl⟩ |
    ⟨ho, hw, ha, rfl⟩ | ⟨ho, hw, rfl⟩ | ⟨ho, hw, rfl⟩ | ⟨ho, hw, ha, rfl⟩ | ⟨ho, hw, ha, rfl⟩ := decodeWord_cases h
  case inr.inl =>
    rw [ho] at hpack
    exact ⟨by simpa [Instr.wellFormed] using hw, congrArg wordBytes hpack⟩
  all_goals
    simp only [*] at hpack
    exact ⟨rfl, congrArg wordBytes hpack⟩

/-- What a selector decodes to is a request, and its encoding is that selector (30_encoding.md R105). -/
theorem encode_of_decodeSelector {sel : Byte} {i : Instr} (h : decodeSelector sel = .instr i) :
    i.wellFormed = true ∧ encode i = [sel] := by
  unfold decodeSelector at h
  split_ifs at h with hadd hsmul hpair <;> cases h
  · exact ⟨rfl, by rw [hadd]; rfl⟩
  · exact ⟨rfl, by rw [hsmul]; rfl⟩
  · exact ⟨rfl, by rw [hpair]; rfl⟩

/-- Settles O1: a command's bytes decode as the word it packs, whose fields `decodeWord_packWord` reads back. -/
theorem decodeOfEncode : Obligations.DecodeOfEncode := by
  intro i hi
  cases i with
  | engAdd | engSmul | engPair => rfl
  | encfix append width =>
    have hwidth : 1 ≤ width.toNat ∧ width.toNat ≤ Config.cinCap := by simpa [Instr.wellFormed] using hi
    rw [encode, decode_wordBytes, decodeWord_packWord]
    exact if_pos hwidth
  | _ =>
    rw [encode, decode_wordBytes, decodeWord_packWord]
    rfl

/-- Settles O2: only one byte and four bytes decode, as a selector and as a command word. -/
theorem encodeOfDecode : Obligations.EncodeOfDecode := by
  intro bs i h
  match bs, h with
  | [_], h => exact encode_of_decodeSelector h
  | [b0, b1, b2, b3], h =>
    rw [← wordBytes_wordOfBytes]
    exact encode_of_decodeWord h
  | [], h | [_, _], h | [_, _, _], h | _ :: _ :: _ :: _ :: _ :: _, h => cases h

/-- The width clause of 30_encoding.md R101 by the decoder's own fields of the word. -/
theorem legalWidth_iff_fields (w : Word) :
    legalWidth w ↔
      if opcField w = 0x02 then 1 ≤ (widthField w).toNat ∧ (widthField w).toNat ≤ 128 else widthField w = 0 := Iff.rfl

theorem decodeWord_of_reservedBits {w : Word} (h : reservedField w ≠ 0) : decodeWord w = .reject .reservedBits := if_pos h

theorem decodeWord_of_reservedOpcode {w : Word} (hres : reservedField w = 0) (hopc : opcField w ∉ opcodes) :
    decodeWord w = .reject .reservedOpcode := by
  rw [← packWord_fields w hres, decodeWord_packWord]
  simp only [opcodes, List.mem_cons, List.not_mem_nil, or_false, not_or] at hopc
  simp only [hopc, if_false]

theorem decodeAppendable_of_width {width : Byte} (h : width ≠ 0) (i : Instr) :
    decodeAppendable width i = .reject .badWidth := if_neg h

theorem decodePlain_of_width {width : Byte} (h : width ≠ 0) (append : Bool) (i : Instr) :
    decodePlain width append i = .reject .badWidth := if_pos h

theorem decodeWord_of_badWidth {w : Word} (hres : reservedField w = 0) (hopc : opcField w ∈ opcodes)
    (hwidth : ¬ legalWidth w) : decodeWord w = .reject .badWidth := by
  rw [legalWidth_iff_fields] at hwidth
  rw [← packWord_fields w hres, decodeWord_packWord]
  generalize opcField w = opc, widthField w = width, appendField w = append at *
  simp only [opcodes, List.mem_cons, List.not_mem_nil, or_false] at hopc
  rcases hopc with rfl | rfl | rfl | rfl | rfl | rfl | rfl | rfl | rfl | rfl | rfl
  case inr.inl => exact if_neg hwidth
  all_goals
    have hw : width ≠ 0 := hwidth
    simp [decodeAppendable_of_width hw, decodePlain_of_width hw]

/-- Where every clause but the append flag's holds, the opcode is one whose A must be 0 (30_encoding.md R99). -/
theorem decodeWord_of_badAppend {w : Word} (hres : reservedField w = 0) (hopc : opcField w ∈ opcodes)
    (hwidth : legalWidth w) (h : ¬ legalWord w) : decodeWord w = .reject .badAppend := by
  rw [legalWidth_iff_fields] at hwidth
  have happ : opcField w ∈ ([0x03, 0x08, 0x0A, 0x10, 0x20] : List Byte) ∧ appendField w = true := by
    rw [legalWord_iff_fields] at h
    by_contra hn
    exact h ⟨hres, hopc, hwidth, fun hm => Bool.eq_false_iff.mpr fun ha => hn ⟨hm, ha⟩⟩
  obtain ⟨hplain, ha⟩ := happ
  rw [← packWord_fields w hres, decodeWord_packWord, ha]
  generalize opcField w = opc, widthField w = width at *
  simp only [List.mem_cons, List.not_mem_nil, or_false] at hplain
  rcases hplain with rfl | rfl | rfl | rfl | rfl
  all_goals
    have hw : width = 0 := hwidth
    subst hw
    rfl

/-- Settles O3: a word decodes by `decode_instr_iff_legalWord`, and each failing clause has its own law. -/
theorem decodesIffLegal : Obligations.DecodesIffLegal := by
  intro w
  refine ⟨decode_instr_iff_legalWord w, ?_⟩
  rw [decode_wordBytes]
  exact ⟨decodeWord_of_reservedBits, decodeWord_of_reservedOpcode, decodeWord_of_badWidth, decodeWord_of_badAppend⟩

/-- Settles O4: the decoder on the thirteen samples. -/
theorem sampleWordsDecode : Obligations.SampleWordsDecode := by
  unfold Obligations.SampleWordsDecode
  decide

end Sys2Proof.Machine

/-! PROOFS of the statements about the invariant (10_state.md sections 3 to 6, 43_verifier.md section 3). First the part
of the invariant that the phase says nothing about, then what the two completions and each phase's step make of it. -/

namespace Sys2Proof.Machine

/-- What the invariant says in every phase alike: a legal configuration, legal lengths, canonical memories, and LASTOP
the opcode in CTRL. -/
def Steady (s : State) : Prop :=
  Config.wf s.cfg ∧ lengthsLegal s ∧ memoriesWf s ∧ s.status.lastop = opcField s.ctrl

section

variable {s t : State}

theorem steady_of_inv (h : Inv s) : Steady s := by
  obtain ⟨hcfg, hlen, hmem, ⟨-, -, -, -, hop⟩, -⟩ := h
  exact ⟨hcfg, hlen, hmem, hop⟩

/-- Marking bytes below the key ROM keeps the marks canonical. -/
theorem steady_markWritten (h : Steady s) {off n : Nat} (hn : off + n ≤ 0x1000) : Steady (markWritten off n s) := by
  obtain ⟨hcfg, hlen, ⟨hcin, hcinb, hcout, hcoutb, hw, hwb⟩, hop⟩ := h
  refine ⟨hcfg, hlen, ⟨hcin, hcinb, hcout, hcoutb, ?_, ?_⟩, hop⟩
  · rw [markWritten_written]
    exact Memory.wf_writeBytes _ _ _ hw
  · rw [markWritten_written]
    exact Memory.below_writeBytes _ _ _ _ (by rw [List.length_replicate]; exact hn) hwb

theorem steady_storeCout (h : Steady s) {k : Nat} {r : List Byte} (hk : k + r.length ≤ Config.coutCap) :
    Steady (storeCout k r s) := by
  obtain ⟨hcfg, ⟨hnpub, hcinlen, -⟩, ⟨hcin, hcinb, hcout, hcoutb, hw⟩, hop⟩ := h
  have hcap : Config.coutCap = 768 := rfl
  have hbase : Reg.base .cout = 0x0400 := rfl
  have hlen : Reg.base .coutlen + 4 ≤ 0x1000 := by decide
  refine steady_markWritten (steady_markWritten
    (s := { s with cout := s.cout.writeBytes k r, coutlen := BitVec.ofNat 32 (k + r.length) })
    ⟨hcfg, ⟨hnpub, hcinlen, ?_⟩, ⟨hcin, hcinb, ?_, ?_, hw⟩, hop⟩ ?_) hlen
  · rw [BitVec.toNat_ofNat]
    exact (Nat.mod_le _ _).trans hk
  · exact Memory.wf_writeBytes _ _ _ hcout
  · exact Memory.below_writeBytes _ _ _ _ hk hcoutb
  · omega

theorem steady_setV (h : Steady s) (n : Nat) : Steady (setV n s) :=
  steady_markWritten (s := { s with v := BitVec.ofNat 1024 n }) h (by decide)

theorem steady_setP (h : Steady s) (p : G1) : Steady (setP p s) :=
  steady_markWritten (s := { s with p := p }) h (by decide)

theorem steady_setVkx (h : Steady s) (p : G1) : Steady (setVkx p s) :=
  steady_markWritten (s := { s with vkx := p }) h (by decide)

theorem steady_setTerm (h : Steady s) (p : G1) : Steady (setTerm p s) :=
  steady_markWritten (s := { s with term := p }) h (by decide)

theorem steady_setNega (h : Steady s) (p : G1) : Steady (setNega p s) :=
  steady_markWritten (s := { s with nega := p }) h (by decide)

/-- With no request outstanding and no answer held, the engine port is as the invariant asks. -/
theorem portLegal_of_quiet (hw : s.status.waiteng = false) (hv : s.rspValid = false) : portLegal s := by
  simp [portLegal, hw, hv]

/-- In a phase that makes no request the engine port is quiet (42_engine_interface.md R190). -/
theorem quiet_of_phaseCall (h : Inv s) (hc : phaseCall s = none) : s.status.waiteng = false ∧ s.rspValid = false := by
  obtain ⟨-, -, -, -, -, -, -, hcall, hrsp⟩ := h
  rw [hc] at hcall
  have hw : s.status.waiteng = false := Bool.eq_false_iff.mpr fun hw => by cases hcall hw
  exact ⟨hw, Bool.eq_false_iff.mpr fun hv => by rw [(hrsp hv).1] at hw; cases hw⟩

/-- A phase that makes no request. -/
theorem phaseCall_of_phase (h : s.phase ∈ [Phase.idle, .exec, .vLen, .vRange, .vLcinit, .vNeg]) : phaseCall s = none := by
  simp only [List.mem_cons, List.not_mem_nil, or_false] at h
  rcases h with h | h | h | h | h | h <;> rw [phaseCall, h]

/-- The invariant where no command runs. -/
theorem inv_of_idle (h : Steady s) (hph : s.phase = .idle) (hbusy : s.status.busy = false)
    (hvalid : s.status.valid = true → s.status.done = true ∧ s.status.err = .none ∧ s.status.lastop = 0x20)
    (hinfo : s.status.err = .none → s.errinfo = 0) (hw : s.status.waiteng = false) (hv : s.rspValid = false) :
    Inv s := by
  obtain ⟨hcfg, hlen, hmem, hop⟩ := h
  refine ⟨hcfg, hlen, hmem, ⟨?_, ?_, hvalid, hinfo, hop⟩, ⟨?_, ?_⟩, ⟨?_, ?_, ?_, ?_, ?_⟩, ?_, portLegal_of_quiet hw hv⟩
  all_goals simp [hph, hbusy, Phase.pastLength, Phase.pastRange, Phase.pastInit, Phase.ofVerify, Phase.blockReads,
    blockWritten]

/-- While a command runs, STATUS shows nothing but BUSY (30_encoding.md R111). -/
theorem running_of_inv (h : Inv s) (hph : s.phase ≠ .idle) :
    s.status.busy = true ∧ s.status.done = false ∧ s.status.valid = false ∧ s.status.err = .none ∧ s.errinfo = 0 := by
  obtain ⟨-, -, -, ⟨hbusy, hrun, -, hinfo, -⟩, -⟩ := h
  have hb := hbusy.mpr hph
  obtain ⟨hdone, hvalid, herr⟩ := hrun hb
  exact ⟨hb, hdone, hvalid, herr, hinfo herr⟩

/-- No command runs exactly while PHASE is IDLE (10_state.md R24, R30). -/
theorem busy_eq_false_iff (h : Inv s) : s.status.busy = false ↔ s.phase = .idle := by
  obtain ⟨-, -, -, ⟨hbusy, -⟩, -⟩ := h
  rw [← Bool.not_eq_true, hbusy, not_not]

/-- An error completion keeps the invariant. -/
theorem inv_raiseError (h : Steady s) {e : ErrorClass} (he : e ≠ .none) (info : Word) : Inv (raiseError e info s) :=
  inv_of_idle h rfl rfl (fun hv => (by cases hv)) (fun hn => absurd hn he) rfl rfl

theorem inv_raiseHere (h : Inv s) {e : ErrorClass} (he : e ≠ .none) : Inv (raiseHere e s) :=
  inv_raiseError (steady_of_inv h) he _

/-- A normal completion gives the invariant where there is no error, and VALID only after VERIFY. -/
theorem inv_complete (h : Steady s) (herr : s.status.err = .none) (hinfo : s.errinfo = 0)
    (hvalid : s.status.valid = true → s.status.lastop = 0x20) (hv : s.rspValid = false) : Inv (complete s) :=
  inv_of_idle h rfl rfl (fun hval => ⟨rfl, herr, hvalid hval⟩) (fun _ => hinfo) rfl hv

/-! The single-step commands. -/

/-- A command word that decodes names VERIFY or a command of one step (30_encoding.md R110). -/
theorem singleStep_of_decodeWord {w : Word} {i : Instr} (h : decodeWord w = .instr i) (hi : i ≠ .verify) :
    singleStep i = true := by
  rcases decodeWord_cases h with ⟨-, -, rfl⟩ | ⟨-, -, rfl⟩ | ⟨-, -, -, rfl⟩ | ⟨-, -, rfl⟩ | ⟨-, -, -, rfl⟩ |
    ⟨-, -, rfl⟩ | ⟨-, -, -, rfl⟩ | ⟨-, -, rfl⟩ | ⟨-, -, rfl⟩ | ⟨-, -, -, rfl⟩ | ⟨-, -, -, rfl⟩
  case inr.inr.inr.inr.inr.inr.inr.inr.inr.inr => exact absurd rfl hi
  all_goals rfl

/-- In EXEC the word in CTRL is a single-step command, with operands its encoding admits. -/
theorem command_of_exec (h : Inv s) (hph : s.phase = .exec) :
    ∃ i, decode (wordBytes s.ctrl) = .instr i ∧ singleStep i = true ∧ i.wellFormed = true := by
  obtain ⟨-, -, -, -, ⟨hexec, -⟩, -⟩ := h
  have hc := hexec hph
  rw [ctrlSingleStep] at hc
  cases hd : decode (wordBytes s.ctrl) with
  | instr i =>
    rw [hd] at hc
    exact ⟨i, rfl, hc, (encodeOfDecode _ _ hd).1⟩
  | reject why =>
    rw [hd] at hc
    cases hc

/-- The EXEC step of a command keeps the invariant, by what `exec_single_cases` lets it do. -/
theorem inv_exec_single {i : Instr} (h : Inv s) (hph : s.phase = .exec) (hi : singleStep i = true)
    (hw : i.wellFormed = true) (he : exec i s = .next t) : Inv t := by
  have hst := steady_of_inv h
  obtain ⟨-, ⟨-, hcin, -⟩, -⟩ := id hst
  obtain ⟨-, -, hvalid, herr, hinfo⟩ := running_of_inv h (by rw [hph]; decide)
  obtain ⟨-, hv⟩ := quiet_of_phaseCall h (phaseCall_of_phase (by rw [hph]; decide))
  have hval : s.status.valid = true → s.status.lastop = 0x20 := fun hn => by rw [hvalid] at hn; cases hn
  obtain ⟨u, hu, hcases⟩ := exec_single_cases (s := s) hi hw hcin
  rw [hu] at he
  obtain ⟨-, rfl⟩ := readThen_eq_next he
  obtain ⟨e, hne, rfl⟩ | ⟨k, r, hk, rfl⟩ | ⟨n, rfl⟩ | ⟨p, rfl⟩ := hcases
  · exact inv_raiseHere h hne
  · exact inv_complete (steady_storeCout hst hk) herr hinfo hval hv
  · exact inv_complete (steady_setV hst n) herr hinfo hval hv
  · exact inv_complete (steady_setP hst p) herr hinfo hval hv

/-! VERIFY. -/

/-- What V_LEN and V_RANGE have established: the number of inputs, and each below SCALAR_R (43_verifier.md R227, R228). -/
def InputsLegal (s : State) : Prop :=
  s.npub.toNat + 1 = s.cfg.vk.ic.length ∧ (inputsOf s).all (fun f => decide (f.toNat < s.cfg.scalarR)) = true

theorem inputsLegal_of_inv (h : Inv s) (hph : s.phase.pastRange = true) : InputsLegal s := by
  obtain ⟨-, -, -, -, -, ⟨hlen, -, -, hall, -⟩, -⟩ := h
  refine ⟨hlen ?_, hall hph⟩
  rw [Phase.pastRange, Bool.and_eq_true] at hph
  obtain ⟨hpast, -⟩ := hph
  exact hpast

theorem verifyLegal_of_pastRange (hph : s.phase.pastRange = true) (hin : InputsLegal s)
    (hidx : s.phase = .vSmul ∨ s.phase = .vAdd → s.idx.toNat < s.npub.toNat) : verifyLegal s :=
  ⟨fun _ => hin.1, fun hr => (by rw [hr] at hph; cases hph), hidx, fun _ => hin.2,
    fun hl => (by rw [hl] at hph; cases hph)⟩

/-- Which of VKX, TERM and NEGA the block has written, phase by phase (10_state.md R48). -/
theorem blockWritten_iff (s : State) :
    blockWritten s ↔ (s.phase.pastInit = true → bytesWritten s .vkx 0 64) ∧ (s.phase = .vAdd → bytesWritten s .term 0 64) ∧
      (s.phase = .vPair → bytesWritten s .nega 0 64) := by
  simp only [blockWritten, Phase.blockReads, List.all_append, Bool.and_eq_true, and_assoc]
  refine and_congr ?_ (and_congr ?_ ?_)
  all_goals
    split_ifs with hp
    · simp [hp, isWritten_iff]
    · simp [hp]

/-- A step of VERIFY that leads on keeps the invariant where it leaves CTRL, ERRINFO and STATUS but WAITENG, and the
target's own facts hold. -/
theorem inv_of_verify (h : Inv s) (hs : s.phase.ofVerify = true) (ht : t.phase.ofVerify = true)
    (hctrl : t.ctrl = s.ctrl) (hinfo : t.errinfo = s.errinfo)
    (hstatus : t.status = { s.status with waiteng := t.status.waiteng }) (hst : Steady t) (hv : verifyLegal t)
    (hb : blockWritten t) (hp : portLegal t) : Inv t := by
  obtain ⟨hbusy, hdone, hvalid, herr, hzero⟩ := running_of_inv h (fun hi => by rw [hi] at hs; cases hs)
  obtain ⟨-, -, -, -, ⟨-, hcmd⟩, -⟩ := h
  obtain ⟨hcfg, hlen, hmem, hop⟩ := hst
  have hne : t.phase ≠ .idle := fun hi => by rw [hi] at ht; cases ht
  refine ⟨hcfg, hlen, hmem, ⟨⟨fun _ => hne, fun _ => ?_⟩, fun _ => ?_, fun hval => ?_, fun _ => ?_, hop⟩,
    ⟨fun he => ?_, fun _ => ?_⟩, hv, hb, hp⟩
  · rw [hstatus]; exact hbusy
  · rw [hstatus]; exact ⟨hdone, hvalid, herr⟩
  · rw [hstatus] at hval; rw [show s.status.valid = true from hval] at hvalid; cases hvalid
  · rw [hinfo, hzero]
  · rw [he] at ht; cases ht
  · rw [hctrl]; exact hcmd hs

/-- Marking does not take marks away. -/
theorem bytesWritten_markWritten {r : Reg} {k n : Nat} (off m : Nat) (h : bytesWritten s r k n) :
    bytesWritten (markWritten off m s) r k n := by
  refine bytesWritten_mono (fun o ho => ?_) h
  rw [read_markWritten]
  split_ifs
  · rfl
  · exact ho

theorem bytesWritten_markWritten_self (r : Reg) (n : Nat) : bytesWritten (markWritten r.base n s) r 0 n := by
  intro o h1 h2
  rw [read_markWritten, if_pos ⟨h1, h2⟩]

/-- An issue step keeps the invariant where it makes the phase's own request. -/
theorem inv_issueRequest (h : Inv s) (hs : s.phase.ofVerify = true) {call : EngineCall} (hc : phaseCall s = some call) :
    Inv (issueRequest call s) := by
  have hst := steady_of_inv h
  obtain ⟨-, -, -, -, -, hv, hb, -⟩ := id h
  exact inv_of_verify h hs hs rfl rfl rfl hst hv hb ⟨fun _ => hc, fun hr => by cases hr⟩

/-- V_LEN keeps the invariant. -/
theorem inv_phaseLen (h : Inv s) (hph : s.phase = .vLen) (he : phaseLen s = .next t) : Inv t := by
  have hst := steady_of_inv h
  obtain ⟨hw, hv⟩ := quiet_of_phaseCall h (phaseCall_of_phase (by rw [hph]; decide))
  obtain ⟨-, ⟨-, rfl⟩ | ⟨hlen, rfl⟩⟩ := phaseLen_cases he
  · exact inv_raiseHere h (by decide)
  · exact inv_of_verify h (by rw [hph]; rfl) rfl rfl rfl rfl hst
      ⟨fun _ => hlen, fun _ => ⟨Nat.zero_le _, rfl⟩, by simp, fun hp => (by cases hp), fun hl => (by cases hl)⟩ rfl
      (portLegal_of_quiet hw hv)

/-- V_RANGE keeps the invariant: each input that is in range lengthens the checked part by one. -/
theorem inv_phaseRange (h : Inv s) (hph : s.phase = .vRange) (he : phaseRange s = .next t) : Inv t := by
  have hst := steady_of_inv h
  obtain ⟨hw, hv⟩ := quiet_of_phaseCall h (phaseCall_of_phase (by rw [hph]; decide))
  have hofv : s.phase.ofVerify = true := by rw [hph]; rfl
  obtain ⟨-, ⟨hnpub, -, -⟩, -, -, -, ⟨hlen, hrange, -, -, -⟩, -, -⟩ := id h
  obtain ⟨hidx, hpre⟩ := hrange hph
  have hlen := hlen (by rw [hph]; rfl)
  obtain ⟨heq, rfl⟩ | ⟨hne, -, -, ⟨-, rfl⟩ | ⟨hok, rfl⟩⟩ := phaseRange_cases he
  · rw [heq, ← length_inputsOf, List.take_length] at hpre
    exact inv_of_verify h hofv rfl rfl rfl rfl hst
      (verifyLegal_of_pastRange rfl ⟨hlen, hpre⟩ (by simp)) rfl (portLegal_of_quiet hw hv)
  · exact inv_raiseHere h (by decide)
  · have hlt : s.idx.toNat < s.npub.toNat := by omega
    have hsucc := toNat_idx_succ s.idx _ hlt hnpub
    refine inv_of_verify h hofv hofv rfl rfl rfl hst ⟨fun _ => hlen, fun _ => ⟨?_, ?_⟩, ?_, ?_, ?_⟩
      ((blockWritten_iff _).mpr (by simp [hph, Phase.pastInit, Phase.pastRange])) (portLegal_of_quiet hw hv)
    · show (s.idx + 1).toNat ≤ s.npub.toNat
      omega
    · show ((inputsOf s).take (s.idx + 1).toNat).all _ = true
      rw [hsucc, List.take_add_one, getElem?_inputsOf s _ hlt, List.all_append, hpre]
      simpa using hok
    all_goals simp [hph, Phase.pastRange]

/-- V_LCINIT keeps the invariant. -/
theorem inv_phaseLcinit (h : Inv s) (hph : s.phase = .vLcinit) (he : phaseLcinit s = .next t) : Inv t := by
  have hst := steady_of_inv h
  obtain ⟨hw, hv⟩ := quiet_of_phaseCall h (phaseCall_of_phase (by rw [hph]; decide))
  have hin := inputsLegal_of_inv h (by rw [hph]; rfl)
  have hofv : s.phase.ofVerify = true := by rw [hph]; rfl
  obtain ⟨p, -, rfl⟩ := phaseLcinit_cases he
  have hvkx : bytesWritten (setVkx p s) .vkx 0 64 := bytesWritten_markWritten_self (s := { s with vkx := p }) .vkx 64
  by_cases hn : s.npub.toNat > 0
  · simp only [hn, if_true]
    exact inv_of_verify h hofv rfl rfl rfl rfl (steady_setVkx hst p)
      (verifyLegal_of_pastRange rfl hin (fun _ => hn)) ((blockWritten_iff _).mpr ⟨fun _ => hvkx, by simp, by simp⟩)
      (portLegal_of_quiet hw hv)
  · simp only [hn, if_false]
    exact inv_of_verify h hofv rfl rfl rfl rfl (steady_setVkx hst p)
      (verifyLegal_of_pastRange rfl hin (by simp)) ((blockWritten_iff _).mpr ⟨fun _ => hvkx, by simp, by simp⟩)
      (portLegal_of_quiet hw hv)

/-- V_SMUL keeps the invariant. -/
theorem inv_phaseSmul (h : Inv s) (hph : s.phase = .vSmul) (he : enginePhase issueSmul consumeSmul s = .next t) :
    Inv t := by
  have hst := steady_of_inv h
  have hofv : s.phase.ofVerify = true := by rw [hph]; rfl
  have hin := inputsLegal_of_inv h (by rw [hph]; rfl)
  obtain ⟨-, -, -, -, -, ⟨-, -, hidx, -, -⟩, hb, -⟩ := id h
  obtain ⟨hvkx, -, -⟩ := (blockWritten_iff s).mp hb
  obtain ⟨-, hi⟩ | ⟨-, -, rfl⟩ | ⟨-, -, hc⟩ := enginePhase_cases he
  · obtain ⟨-, -, p, hp, rfl⟩ := issueSmul_cases hi
    exact inv_issueRequest h hofv (by simp only [phaseCall, hph, hp])
  · exact h
  · obtain ⟨e, hr, rfl⟩ | ⟨p, -, rfl⟩ := consumeSmul_cases hc
    · exact inv_raiseHere h (readPoint_error hr)
    · refine inv_of_verify h hofv rfl rfl rfl rfl (steady_setTerm (s := consumeResponse s) hst p)
        (verifyLegal_of_pastRange rfl hin (fun _ => hidx (.inl hph))) ((blockWritten_iff _).mpr ⟨fun _ => ?_, fun _ => ?_,
          by simp⟩) (portLegal_of_quiet rfl rfl)
      · exact bytesWritten_markWritten (s := { consumeResponse s with term := p }) _ _ (hvkx (by rw [hph]; rfl))
      · exact bytesWritten_markWritten_self (s := { consumeResponse s with term := p }) .term 64

/-- V_ADD keeps the invariant. -/
theorem inv_phaseAdd (h : Inv s) (hph : s.phase = .vAdd) (he : enginePhase issueAdd consumeAdd s = .next t) :
    Inv t := by
  have hst := steady_of_inv h
  have hofv : s.phase.ofVerify = true := by rw [hph]; rfl
  have hin := inputsLegal_of_inv h (by rw [hph]; rfl)
  obtain ⟨-, ⟨hnpub, -⟩, -, -, -, ⟨-, -, hidx, -, -⟩, -, -⟩ := id h
  have hidx := hidx (.inr hph)
  obtain ⟨-, hi⟩ | ⟨-, -, rfl⟩ | ⟨-, -, hc⟩ := enginePhase_cases he
  · obtain ⟨-, rfl⟩ := issueAdd_cases hi
    exact inv_issueRequest h hofv (by simp only [phaseCall, hph])
  · exact h
  · obtain ⟨e, hr, rfl⟩ | ⟨p, -, hnext⟩ := consumeAdd_cases hc
    · exact inv_raiseHere h (readPoint_error hr)
    · have hst' : Steady (setVkx p (consumeResponse s)) := steady_setVkx (s := consumeResponse s) hst p
      have hvkx : bytesWritten (setVkx p (consumeResponse s)) .vkx 0 64 :=
        bytesWritten_markWritten_self (s := { consumeResponse s with vkx := p }) .vkx 64
      obtain ⟨hmore, rfl⟩ | ⟨-, rfl⟩ := hnext
      · refine inv_of_verify h hofv rfl rfl rfl rfl hst' (verifyLegal_of_pastRange rfl hin (fun _ => ?_))
          ((blockWritten_iff _).mpr ⟨fun _ => hvkx, by simp, by simp⟩) (portLegal_of_quiet rfl rfl)
        show (s.idx + 1).toNat < s.npub.toNat
        rwa [toNat_idx_succ s.idx _ hidx hnpub]
      · exact inv_of_verify h hofv rfl rfl rfl rfl hst' (verifyLegal_of_pastRange rfl hin (by simp))
          ((blockWritten_iff _).mpr ⟨fun _ => hvkx, by simp, by simp⟩) (portLegal_of_quiet rfl rfl)

/-- V_NEG keeps the invariant. -/
theorem inv_phaseNeg (h : Inv s) (hph : s.phase = .vNeg) (he : phaseNeg s = .next t) : Inv t := by
  have hst := steady_of_inv h
  have hin := inputsLegal_of_inv h (by rw [hph]; rfl)
  obtain ⟨hw, hv⟩ := quiet_of_phaseCall h (phaseCall_of_phase (by rw [hph]; decide))
  obtain ⟨-, -, -, -, -, -, hb, -⟩ := id h
  obtain ⟨hvkx, -, -⟩ := (blockWritten_iff s).mp hb
  obtain ⟨-, rfl⟩ := phaseNeg_cases he
  refine inv_of_verify h (by rw [hph]; rfl) rfl rfl rfl rfl (steady_setNega hst _)
    (verifyLegal_of_pastRange rfl hin (by simp)) ((blockWritten_iff _).mpr ⟨fun _ => ?_, by simp, fun _ => ?_⟩)
    (portLegal_of_quiet hw hv)
  · exact bytesWritten_markWritten (s := { s with nega := _ }) _ _ (hvkx (by rw [hph]; rfl))
  · exact bytesWritten_markWritten_self (s := { s with nega := _ }) .nega 64

/-- V_PAIR keeps the invariant: VALID is set by VERIFY only. -/
theorem inv_phasePair (h : Inv s) (hph : s.phase = .vPair) (he : enginePhase issuePair consumePair s = .next t) :
    Inv t := by
  have hst := steady_of_inv h
  have hofv : s.phase.ofVerify = true := by rw [hph]; rfl
  obtain ⟨-, -, -, herr, hinfo⟩ := running_of_inv h (by rw [hph]; decide)
  obtain ⟨-, -, -, ⟨-, -, -, -, hop⟩, ⟨-, hcmd⟩, -⟩ := id h
  have hopc : opcField s.ctrl = 0x20 :=
    (eq_verify_iff_opcField ((decode_wordBytes s.ctrl).symm.trans (hcmd hofv))).mp rfl
  obtain ⟨-, hi⟩ | ⟨-, -, rfl⟩ | ⟨-, -, hc⟩ := enginePhase_cases he
  · obtain ⟨-, rfl⟩ := issuePair_cases hi
    exact inv_issueRequest h hofv (by simp only [phaseCall, hph])
  · exact h
  · obtain ⟨e, hr, rfl⟩ | ⟨ok, -, rfl⟩ := consumePair_cases hc
    · exact inv_raiseHere h (readBool_error hr)
    · exact inv_complete (s := setValid ok (consumeResponse s)) hst herr hinfo (fun _ => hop.trans hopc) rfl

/-- Every phase of VERIFY keeps the invariant. -/
theorem inv_exec_verify (h : Inv s) (he : exec .verify s = .next t) : Inv t := by
  cases hph : s.phase with
  | idle | exec =>
    rw [exec_verify_of_not_ofVerify (by rw [hph]; rfl)] at he
    cases he
  | vLen => exact inv_phaseLen h hph (exec_verify_of_vLen hph ▸ he)
  | vRange => exact inv_phaseRange h hph (exec_verify_of_vRange hph ▸ he)
  | vLcinit => exact inv_phaseLcinit h hph (exec_verify_of_vLcinit hph ▸ he)
  | vSmul => exact inv_phaseSmul h hph (exec_verify_of_vSmul hph ▸ he)
  | vAdd => exact inv_phaseAdd h hph (exec_verify_of_vAdd hph ▸ he)
  | vNeg => exact inv_phaseNeg h hph (exec_verify_of_vNeg hph ▸ he)
  | vPair => exact inv_phasePair h hph (exec_verify_of_vPair hph ▸ he)

/-! The agents. -/

/-- In EXEC the sequencer runs the command in CTRL. -/
theorem runPhase_of_exec {i : Instr} (hph : s.phase = .exec) (hd : decode (wordBytes s.ctrl) = .instr i) :
    runPhase s = exec i s := by
  rw [runPhase, hph]
  show runCommand s = _
  rw [runCommand, hd]

theorem runPhase_of_ofVerify (h : s.phase.ofVerify = true) : runPhase s = exec .verify s := by
  cases hph : s.phase with
  | idle | exec => rw [hph] at h; cases h
  | _ => rw [runPhase, hph]

/-- The sequencer's step keeps the invariant. -/
theorem inv_runPhase (h : Inv s) (he : runPhase s = .next t) : Inv t := by
  cases hph : s.phase with
  | idle =>
    rw [runPhase, hph] at he
    cases he
    exact h
  | exec =>
    obtain ⟨i, hd, hi, hw⟩ := command_of_exec h hph
    exact inv_exec_single h hph hi hw (runPhase_of_exec hph hd ▸ he)
  | _ => exact inv_exec_verify h (runPhase_of_ofVerify (by rw [hph]; rfl) ▸ he)

/-- The engine's answer to the request in the port keeps the invariant. -/
theorem inv_answerRequest (h : Inv s) : Inv (answerRequest s.reqSel s) := by
  obtain ⟨hcfg, hlen, hmem, hst, hcmd, hv, hb, hcall, -⟩ := id h
  rw [answerRequest]
  split_ifs with hen
  · rw [engineEnabled, Bool.and_eq_true] at hen
    exact ⟨hcfg, hlen, hmem, hst, hcmd, hv, hb, hcall, fun _ => ⟨hen.1, rfl⟩⟩
  · exact h

/-- The state after a reset meets the invariant, whatever went before (10_state.md R49). -/
theorem inv_resetBlock (h : Inv s) : Inv (resetBlock s) := by
  obtain ⟨hcfg, -⟩ := h
  have hlen : lengthsLegal State.reset := by decide
  have hmem : memoriesWf State.reset := by decide
  exact inv_of_idle ⟨hcfg, hlen, hmem, rfl⟩ rfl rfl (fun hv => (by cases hv)) (fun _ => rfl) rfl rfl

/-- The start of a command gives the invariant, for every word (30_encoding.md R111, 60_exceptions.md R279). -/
theorem inv_startCommand (h : Inv s) (hph : s.phase = .idle) (w : Word) : Inv (startCommand w s) := by
  obtain ⟨hcfg, hlen, hmem, -⟩ := steady_of_inv h
  obtain ⟨-, hv⟩ := quiet_of_phaseCall h (phaseCall_of_phase (by rw [hph]; decide))
  have hst : ∀ ph, Steady { beginCommand w s with phase := ph } := fun _ => ⟨hcfg, hlen, hmem, rfl⟩
  cases hd : decode (wordBytes w) with
  | reject why =>
    rw [startCommand_of_reject hd]
    exact inv_raiseError (hst .idle) (by decide) 0
  | instr i =>
    rw [startCommand_of_instr hd]
    by_cases hi : i = .verify
    · rw [if_pos hi]
      subst hi
      exact ⟨hcfg, hlen, hmem, ⟨by simp [startStatus], by simp [startStatus, Status.zero],
        fun hval => (by cases hval), fun _ => rfl, rfl⟩, ⟨by simp, fun _ => hd⟩, ⟨by simp [Phase.pastLength], by simp, by simp,
          by simp [Phase.pastRange, Phase.pastLength], fun _ => rfl⟩, rfl, portLegal_of_quiet rfl hv⟩
    · rw [if_neg hi]
      have hsingle := singleStep_of_decodeWord ((decode_wordBytes w).symm.trans hd) hi
      refine ⟨hcfg, hlen, hmem, ⟨by simp [startStatus], by simp [startStatus, Status.zero],
        fun hval => (by cases hval), fun _ => rfl, rfl⟩, ⟨fun _ => ?_, fun hp => by cases hp⟩, ⟨?_, by simp, by simp,
          ?_, by simp⟩, rfl, portLegal_of_quiet rfl hv⟩
      · rw [ctrlSingleStep]
        show (match decode (wordBytes w) with | .instr i => singleStep i | .reject _ => false) = true
        rw [hd]
        exact hsingle
      · intro hp; cases hp
      · intro hp; cases hp

/-- A store to an idle block that leaves the control registers alone keeps the invariant. -/
theorem inv_of_idle_store (h : Inv s) (hph : s.phase = .idle) (hst : Steady t) (hph' : t.phase = s.phase)
    (hstatus : t.status = s.status) (hinfo : t.errinfo = s.errinfo) (hrsp : t.rspValid = s.rspValid) : Inv t := by
  obtain ⟨hw, hv⟩ := quiet_of_phaseCall h (phaseCall_of_phase (by rw [hph]; decide))
  have hbusy := (busy_eq_false_iff h).mpr hph
  obtain ⟨-, -, -, ⟨-, -, hvalid, herr, -⟩, -⟩ := h
  refine inv_of_idle hst (hph'.trans hph) ?_ ?_ ?_ ?_ (hrsp.trans hv)
  all_goals rw [hstatus]
  · exact hbusy
  · exact hvalid
  · rwa [hinfo]
  · exact hw

/-- The store of any register but CTRL is a store of data: the control registers of the block stay (20_memory.md R67 to
R69). -/
theorem storeReg_eq {r : Reg} (hr : r ≠ .ctrl) (k : Nat) (w : Word) (s : State) :
    storeReg r k w s = { s with
      npub := (storeReg r k w s).npub, cinlen := (storeReg r k w s).cinlen, coutlen := (storeReg r k w s).coutlen
      a := (storeReg r k w s).a, b := (storeReg r k w s).b, c := (storeReg r k w s).c, pub := (storeReg r k w s).pub
      p := (storeReg r k w s).p, q := (storeReg r k w s).q, v := (storeReg r k w s).v, cin := (storeReg r k w s).cin
      written := (storeReg r k w s).written } := by
  have bounded : ∀ (r : Reg) (bound : Nat) (stored : State),
      storeBounded r bound w stored s = s ∨ storeBounded r bound w stored s = markWritten r.base 4 stored := by
    intro r bound stored
    rw [storeBounded]
    split_ifs
    · exact .inr rfl
    · exact .inl rfl
  cases r with
  | ctrl => exact absurd rfl hr
  | npub | cinlen | coutlen =>
    rw [storeReg]
    rcases bounded _ _ _ with h | h
    · rw [h]
    · rw [h]
      rfl
  | _ => rfl

/-- The registers the host may write end below the key ROM (20_memory.md R65). -/
theorem rw_below_rom {r : Reg} (cfg : Config) (hr : r.access = .rw) : r.base + r.size cfg ≤ 0x1000 := by
  cases r with
  | status | errinfo | phase | idx | nic | npubmax | vkver | nega | vkx | term | cout | alfa1 | beta2 | gamma2 | delta2
  | ic => cases hr
  | _ => simp [Reg.base, Reg.size, Config.npubMax]

/-- A store to a bounded register keeps the length legal, since a larger value is ignored (20_memory.md R68). -/
theorem steady_storeBounded (h : Steady s) {r : Reg} (hr : r.base + 4 ≤ 0x1000) {bound : Nat} {w : Word} {stored : State}
    (hs : w.toNat ≤ bound → Steady stored) : Steady (storeBounded r bound w stored s) := by
  rw [storeBounded]
  split_ifs with hw
  · exact steady_markWritten (hs hw) hr
  · exact h

/-- The store of a word inside any register but CTRL. -/
theorem steady_storeReg (h : Steady s) {r : Reg} (hr : r ≠ .ctrl) (hrw : r.access = .rw) {k : Nat}
    (hk : k + 4 ≤ r.size s.cfg) (w : Word) : Steady (storeReg r k w s) := by
  have hrom := rw_below_rom s.cfg hrw
  have hmark : r.base + k + 4 ≤ 0x1000 := by omega
  obtain ⟨hcfg, ⟨hnpub, hcinlen, hcoutlen⟩, ⟨hcin, hcinb, hmem⟩, hop⟩ := id h
  cases r with
  | ctrl => exact absurd rfl hr
  | npub => exact steady_storeBounded h (by decide) fun hw => ⟨hcfg, ⟨hw, hcinlen, hcoutlen⟩, ⟨hcin, hcinb, hmem⟩, hop⟩
  | cinlen => exact steady_storeBounded h (by decide) fun hw => ⟨hcfg, ⟨hnpub, hw, hcoutlen⟩, ⟨hcin, hcinb, hmem⟩, hop⟩
  | coutlen => exact steady_storeBounded h (by decide) fun hw => ⟨hcfg, ⟨hnpub, hcinlen, hw⟩, ⟨hcin, hcinb, hmem⟩, hop⟩
  | cin =>
    exact steady_markWritten (s := { s with cin := s.cin.writeBytes k (wordBytes w) }) ⟨hcfg, ⟨hnpub, hcinlen, hcoutlen⟩,
      ⟨Memory.wf_writeBytes _ _ _ hcin, Memory.below_writeBytes _ _ _ _ hk hcinb, hmem⟩, hop⟩ hmark
  | a => exact steady_markWritten (s := { s with a := pokeG1 s.a k w }) h hmark
  | b => exact steady_markWritten (s := { s with b := pokeG2 s.b k w }) h hmark
  | c => exact steady_markWritten (s := { s with c := pokeG1 s.c k w }) h hmark
  | p => exact steady_markWritten (s := { s with p := pokeG1 s.p k w }) h hmark
  | q => exact steady_markWritten (s := { s with q := pokeG2 s.q k w }) h hmark
  | v => exact steady_markWritten (s := { s with v := pokeV s.v k w }) h hmark
  | pub =>
    exact steady_markWritten
      (s := { s with pub := s.pub.setIfInBounds (k / 32) (pokeField (s.pub[k / 32]?.getD 0) (k % 32) w) }) h hmark
  | _ => cases hrw

/-- A word's bytes all lie in the register its first one lies in. -/
theorem word_in_reg {cfg : Config} {r : Reg} {off : Nat} (ha : off % 4 = 0) (hlo : r.base ≤ off)
    (hhi : off < r.base + r.size cfg) : off - r.base + 4 ≤ r.size cfg := by
  obtain ⟨hbase, hsize⟩ := four_dvd_reg cfg r
  omega

/-- A store to the idle block keeps the invariant. -/
theorem inv_storeAt (h : Inv s) (hph : s.phase = .idle) {off : Nat} (ha : off % 4 = 0) (w : Word) :
    Inv (storeAt off w s) := by
  rcases storeAt_cases off w s with hs | ⟨r, hrw, hlo, hhi, hs⟩
  · rwa [hs]
  · rw [hs]
    by_cases hr : r = .ctrl
    · subst hr
      exact inv_startCommand h hph w
    · have heq := storeReg_eq hr (off - r.base) w s
      exact inv_of_idle_store h hph (steady_storeReg (steady_of_inv h) hr hrw (word_in_reg ha hlo hhi) w)
        (by rw [heq]) (by rw [heq]) (by rw [heq]) (by rw [heq])

/-- The host's step keeps the invariant. -/
theorem inv_hostStep (h : Inv s) (he : hostStep s = .next t) : Inv t := by
  obtain rfl | ⟨_, _, rfl, -⟩ | ⟨addr, w, rest, -, ha, -, ⟨-, rfl⟩ | ⟨hidle, rfl⟩⟩ := hostStep_cases he
  · exact h
  · exact h
  · exact h
  · exact inv_storeAt (s := { s with hostProg := rest }) h ((busy_eq_false_iff h).mp hidle) ha w

/-- Settles O54: the invariant says nothing of `turns` and the count, so each agent's step keeps it by its own lemma. -/
theorem invariantKept : Obligations.InvariantKept := by
  intro s t h he
  obtain rfl | ⟨-, rfl⟩ | he | ⟨-, rfl⟩ | ⟨-, he⟩ := step_cases he
  · exact h
  · exact inv_resetBlock (s := afterTurn s) h
  · exact inv_hostStep (s := afterTurn s) h he
  · exact inv_answerRequest (s := tick (afterTurn s)) h
  · exact inv_runPhase (s := tick (afterTurn s)) h he

/-- Settles O53: PHASE is IDLE and STATUS 0 after a reset, and the configuration is the default one (log 5). -/
theorem invariantAtReset : Obligations.InvariantAtReset := by
  have hcfg : Config.wf State.reset.cfg := by decide
  have hlen : lengthsLegal State.reset := by decide
  have hmem : memoriesWf State.reset := by decide
  exact inv_of_idle ⟨hcfg, hlen, hmem, rfl⟩ rfl rfl (fun hv => (by cases hv)) (fun _ => rfl) rfl rfl

end

end Sys2Proof.Machine

/-! PROOFS of the statement about where a run stops (60_exceptions.md R282, 70_reset_and_hazards.md R314). First one law
for each agent's step that says which stops it has. -/

namespace Sys2Proof.Machine

/-- An outcome that is a next state, or UnwrittenOperand for one of some operands that is not all written. -/
def StopsOnlyOn (ops : List Operand) (s : State) (out : Host.Outcome State Fault Refusal) : Prop :=
  (∃ t, out = .next t) ∨
    ∃ o ∈ ops, ¬ bytesWritten s o.reg o.first o.len ∧ out = .fault (.unwrittenOperand o.reg)

section

variable {s t : State} {ops ops' : List Operand} {out : Host.Outcome State Fault Refusal}

theorem stopsOnlyOn_readThen (ops : List Operand) (s t : State) : StopsOnlyOn ops s (readThen ops s t) := by
  obtain ⟨-, h⟩ | ⟨before, o, after, rfl, -, ho, h⟩ := readThen_cases ops s t
  · exact .inl ⟨t, h⟩
  · exact .inr ⟨o, by simp, ho, h⟩

/-- An operand that is not written stands for another that contains it. -/
theorem stopsOnlyOn_mono (h : StopsOnlyOn ops s out)
    (hops : ∀ o ∈ ops, ¬ bytesWritten s o.reg o.first o.len →
      ∃ o' ∈ ops', o'.reg = o.reg ∧ ¬ bytesWritten s o'.reg o'.first o'.len) : StopsOnlyOn ops' s out := by
  obtain ⟨t, h⟩ | ⟨o, ho, hn, h⟩ := h
  · exact .inl ⟨t, h⟩
  · obtain ⟨o', ho', hr, hn'⟩ := hops o ho hn
    exact .inr ⟨o', ho', hn', by rw [hr]; exact h⟩

theorem stopsOnlyOn_of_mem (h : StopsOnlyOn ops s out)
    (hops : ∀ o ∈ ops, ¬ bytesWritten s o.reg o.first o.len → o ∈ ops') : StopsOnlyOn ops' s out :=
  stopsOnlyOn_mono h fun o ho hn => ⟨o, hops o ho hn, rfl, hn⟩

/-- Part of what is written is written. -/
theorem bytesWritten_part {r : Reg} {k n k' n' : Nat} (h : bytesWritten s r k' n') (hk : k' ≤ k) (hn : k + n ≤ k' + n') :
    bytesWritten s r k n := fun o h1 h2 => h o (by omega) (by omega)

/-- PUB[k] is part of PUB[0..NPUB). -/
theorem stopsOnlyOn_pubReads {k : Nat} (hk : k < s.npub.toNat) (h : StopsOnlyOn (pubReads k) s out) :
    StopsOnlyOn (verifyReads s) s out := by
  have hpart : 32 * k + 32 ≤ 0 + 32 * s.npub.toNat := by omega
  refine stopsOnlyOn_mono h fun o ho hn => ⟨⟨.pub, 0, 32 * s.npub.toNat⟩, by simp [verifyReads], ?_⟩
  obtain rfl : o = ⟨.pub, 32 * k, 32⟩ := by simpa [pubReads] using ho
  exact ⟨rfl, fun hw => hn (bytesWritten_part hw (Nat.zero_le _) hpart)⟩

/-- A phase with an engine request stops only where its issue step does, its consume step giving a next state. -/
theorem stopsOnlyOn_enginePhase {issue consume : State → Host.Outcome State Fault Refusal}
    (hissue : StopsOnlyOn ops s (issue s)) (hconsume : ∃ t, consume s = .next t) :
    StopsOnlyOn ops s (enginePhase issue consume s) := by
  rw [enginePhase]
  split_ifs
  · exact .inl hconsume
  · exact .inl ⟨s, rfl⟩
  · exact hissue

theorem consumeSmul_total (s : State) : ∃ t, consumeSmul s = .next t := by
  rw [consumeSmul]
  cases readPoint s.rsp <;> exact ⟨_, rfl⟩

theorem consumeAdd_total (s : State) : ∃ t, consumeAdd s = .next t := by
  rw [consumeAdd]
  cases readPoint s.rsp with
  | error e => exact ⟨_, rfl⟩
  | value p =>
    dsimp only
    split_ifs <;> exact ⟨_, rfl⟩

theorem consumePair_total (s : State) : ∃ t, consumePair s = .next t := by
  rw [consumePair]
  cases readBool s.rsp <;> exact ⟨_, rfl⟩

/-- From a state that meets the invariant VERIFY stops only on what the host must have written: the entries it names are
there, and VKX, TERM and NEGA are written (43_verifier.md R223, 10_state.md R48). -/
theorem stopsOnlyOn_exec_verify (h : Inv s) (hofv : s.phase.ofVerify = true) :
    StopsOnlyOn (verifyReads s) s (exec .verify s) := by
  obtain ⟨⟨-, -, -, -, hic, -⟩, ⟨hnpub, -⟩, -, -, -, ⟨hlen, hrange, hidx, -⟩, hb, -⟩ := id h
  obtain ⟨hvkx, hterm, hnega⟩ := (blockWritten_iff s).mp hb
  cases hph : s.phase with
  | idle | exec => rw [hph] at hofv; cases hofv
  | vLen =>
    rw [exec_verify_of_vLen hph]
    exact stopsOnlyOn_of_mem (stopsOnlyOn_readThen [⟨.npub, 0, 4⟩] s _) (by simp [verifyReads])
  | vRange =>
    rw [exec_verify_of_vRange hph, phaseRange]
    obtain ⟨hle, -⟩ := hrange hph
    split_ifs with heq hlt
    · exact .inl ⟨_, rfl⟩
    · exact stopsOnlyOn_pubReads (by omega) (stopsOnlyOn_readThen _ s _)
    · exact stopsOnlyOn_pubReads (by omega) (stopsOnlyOn_readThen _ s _)
    · exact absurd hnpub (by omega)
  | vLcinit =>
    rw [exec_verify_of_vLcinit hph, phaseLcinit, List.getElem?_eq_getElem (by omega)]
    exact .inl ⟨_, rfl⟩
  | vSmul =>
    rw [exec_verify_of_vSmul hph]
    have hlt := hidx (.inl hph)
    have hlen := hlen (by rw [hph]; rfl)
    refine stopsOnlyOn_enginePhase ?_ (consumeSmul_total s)
    rw [issueSmul, List.getElem?_eq_getElem (by omega)]
    dsimp only
    rw [if_pos (by omega)]
    exact stopsOnlyOn_pubReads hlt (stopsOnlyOn_readThen _ s _)
  | vAdd =>
    rw [exec_verify_of_vAdd hph]
    refine stopsOnlyOn_enginePhase ?_ (consumeAdd_total s)
    refine stopsOnlyOn_of_mem (stopsOnlyOn_readThen addReads s _) fun o ho hn => ?_
    simp only [addReads, List.mem_cons, List.not_mem_nil, or_false] at ho
    obtain rfl | rfl := ho
    · exact absurd (hvkx (by rw [hph]; rfl)) hn
    · exact absurd (hterm hph) hn
  | vNeg =>
    rw [exec_verify_of_vNeg hph]
    exact stopsOnlyOn_of_mem (stopsOnlyOn_readThen [⟨.a, 0, 64⟩] s _) (by simp [verifyReads])
  | vPair =>
    rw [exec_verify_of_vPair hph]
    refine stopsOnlyOn_enginePhase ?_ (consumePair_total s)
    refine stopsOnlyOn_of_mem (stopsOnlyOn_readThen pairReads s _) fun o ho hn => ?_
    simp only [pairReads, List.mem_cons, List.not_mem_nil, or_false] at ho
    obtain rfl | rfl | rfl | rfl := ho
    · exact absurd (hnega hph) hn
    · simp [verifyReads]
    · exact absurd (hvkx (by rw [hph]; rfl)) hn
    · simp [verifyReads]

/-- The sequencer's step stops only on an operand of the command in CTRL. -/
theorem stopsOnlyOn_runPhase (h : Inv s) (hph : s.phase ≠ .idle) :
    ∃ i, decode (wordBytes s.ctrl) = .instr i ∧ StopsOnlyOn (commandReads s i) s (runPhase s) := by
  by_cases hexec : s.phase = .exec
  · obtain ⟨i, hd, hi, hw⟩ := command_of_exec h hexec
    obtain ⟨-, ⟨-, hcin, -⟩, -⟩ := steady_of_inv h
    obtain ⟨t, ht, -⟩ := exec_single_cases (s := s) hi hw hcin
    refine ⟨i, hd, ?_⟩
    rw [runPhase_of_exec hexec hd, ht]
    exact stopsOnlyOn_readThen _ s t
  · have hofv : s.phase.ofVerify = true := by
      cases hp : s.phase with
      | idle => exact absurd hp hph
      | exec => exact absurd hp hexec
      | _ => rfl
    obtain ⟨-, -, -, -, ⟨-, hcmd⟩, -⟩ := id h
    refine ⟨.verify, hcmd hofv, ?_⟩
    rw [runPhase_of_ofVerify hofv]
    exact stopsOnlyOn_exec_verify h hofv

/-- The host's step stops only by a bus error (20_memory.md R62, R63). -/
theorem hostStep_total (s : State) : (∃ t, hostStep s = .next t) ∨ ∃ addr, hostStep s = .fault (.busError addr) := by
  have read : ∀ addr u, (∃ t, hostRead addr u = .next t) ∨ ∃ a, hostRead addr u = .fault (.busError a) := by
    intro addr u
    cases hb : badAccess addr with
    | true => exact .inr ⟨addr, hostRead_of_bad hb u⟩
    | false => exact .inl ⟨_, hostRead_of_good hb u⟩
  have write : ∀ addr w u, (∃ t, hostWrite addr w u = .next t) ∨ ∃ a, hostWrite addr w u = .fault (.busError a) := by
    intro addr w u
    cases hb : badAccess addr with
    | true => exact .inr ⟨addr, hostWrite_of_bad hb w u⟩
    | false =>
      cases hbusy : u.status.busy with
      | true => exact .inl ⟨_, hostWrite_of_busy hb w hbusy⟩
      | false => exact .inl ⟨_, hostWrite_of_idle hb w hbusy⟩
  rw [hostStep]
  split
  · exact .inl ⟨s, rfl⟩
  · exact read _ _
  · exact write _ _ _
  · exact read _ _

/-- A step is some agent's, on the state without that agent's turn. -/
theorem step_eq_act (s : State) : ∃ u, step s = act u (afterTurn s) := by
  rw [step, agentStep]
  split
  · rename_i u ts hts
    exact ⟨u, by rw [afterTurn, hts]; rfl⟩
  · rename_i hts
    exact ⟨idleTurn s, by rw [afterTurn, hts, List.tail_nil, ← hts]⟩

/-- A sequencer that has a step is running a command (43_verifier.md R226). -/
theorem running_of_sequencerEnabled (h : sequencerEnabled s = true) : s.status.busy = true ∧ s.phase ≠ .idle := by
  simp only [sequencerEnabled, Bool.and_eq_true, Bool.not_eq_true', decide_eq_false_iff_not] at h
  obtain ⟨⟨hbusy, hph⟩, -⟩ := h
  exact ⟨hbusy, hph⟩

/-- Settles O55: the host stops by `hostStep_total`, the sequencer by `stopsOnlyOn_runPhase`, and no other agent stops. -/
theorem onlyDeclaredStops : Obligations.OnlyDeclaredStops := by
  intro s h
  obtain ⟨u, hu⟩ := step_eq_act s
  rw [hu]
  cases u with
  | host =>
    obtain hn | hf := hostStep_total (afterTurn s)
    · exact .inl hn
    · exact .inr (.inl hf)
  | sequencer =>
    rw [act]
    split_ifs with hen
    · obtain ⟨hbusy, hph⟩ := running_of_sequencerEnabled hen
      obtain ⟨i, hd, hstop⟩ := stopsOnlyOn_runPhase (s := tick (afterTurn s)) h hph
      exact hstop.imp_right fun ⟨o, ho, hn, hf⟩ => .inr ⟨i, o, hd, hbusy, ho, hn, hf⟩
    · exact .inl ⟨_, rfl⟩
  | engine =>
    rw [act]
    split_ifs
    · exact .inl ⟨_, runEngine_eq _⟩
    · exact .inl ⟨_, rfl⟩
  | reset => exact .inl ⟨_, rfl⟩

end

end Sys2Proof.Machine

/-! PROOFS of the statements about runs of VERIFY (43_verifier.md section 3). What a run is heading for is a function of
its state, which each step either leaves alone or shortens by the request it issues. First this function, and that at the
start of VERIFY it is the source's `verify` (R222). -/

namespace Sys2Proof.Machine

/-- ERRINFO of an error in a phase at an index (60_exceptions.md R276). -/
def errinfoAt (ph : Phase) (idx : Byte) : Word := (0 : BitVec 16) ++ ph.code ++ idx

/-- How a run of VERIFY ends: the engine calls it makes until then, what STATUS and ERRINFO show, and the values of VKX,
TERM and NEGA, each `none` where the run does not write it. -/
structure Ending where
  calls : List EngineCall
  err : ErrorClass
  valid : Bool
  errinfo : Word
  vkx : Option G1
  term : Option G1
  nega : Option G1

/-- The same ending with some calls before it. -/
def Ending.afterCalls (calls : List EngineCall) (e : Ending) : Ending := { e with calls := calls ++ e.calls }

@[simp] theorem Ending.afterCalls_nil (e : Ending) : e.afterCalls [] = e := rfl

theorem Ending.afterCalls_afterCalls (xs ys : List EngineCall) (e : Ending) :
    (e.afterCalls ys).afterCalls xs = e.afterCalls (xs ++ ys) := by
  simp [Ending.afterCalls]

/-- The ending from V_PAIR, by the pairing call (43_verifier.md R234, R235). -/
def pairEnding (cfg : Config) (call : EngineCall) (idx : Byte) (vkx : G1) (term : Option G1) (nega : G1) : Ending :=
  match readBool (engineOf cfg call) with
  | .error e => ⟨[call], e, false, errinfoAt .vPair idx, some vkx, term, some nega⟩
  | .value ok => ⟨[call], .none, ok, 0, some vkx, term, some nega⟩

/-- The ending from V_NEG (43_verifier.md R233). -/
def negEnding (cfg : Config) (a : G1) (b : G2) (c : G1) (idx : Byte) (vkx : G1) (term : Option G1) : Ending :=
  pairEnding cfg (finalCall cfg a b c vkx) idx vkx term (negate cfg.baseP a)

/-- The ending from V_ADD, `next` being the one from the new accumulator (43_verifier.md R232). -/
def addEnding (cfg : Config) (idx : Byte) (acc term : G1) (next : G1 → Ending) : Ending :=
  match readPoint (engineOf cfg (addCall acc term)) with
  | .error e => ⟨[addCall acc term], e, false, errinfoAt .vAdd idx, some acc, some term, none⟩
  | .value acc' => (next acc').afterCalls [addCall acc term]

/-- The ending from V_SMUL, `next` being the one from the new term (43_verifier.md R231). -/
def smulEnding (cfg : Config) (idx : Byte) (acc : G1) (term : Option G1) (p : G1) (k : Field) (next : G1 → Ending) :
    Ending :=
  match readPoint (engineOf cfg (smulCall p k)) with
  | .error e => ⟨[smulCall p k], e, false, errinfoAt .vSmul idx, some acc, term, none⟩
  | .value t => (next t).afterCalls [smulCall p k]

/-- The ending from the linear combination, over the pairs that are left. IDX stays at the last of them. -/
def loopEnding (cfg : Config) (last : Byte → G1 → Option G1 → Ending) :
    Byte → G1 → Option G1 → List (G1 × Field) → Ending
  | idx, acc, term, [] => last idx acc term
  | idx, acc, term, (p, k) :: rest =>
    smulEnding cfg idx acc term p k fun t =>
      addEnding cfg idx acc t fun acc' =>
        loopEnding cfg last (if rest = [] then idx else idx + 1) acc' (some t) rest

/-- The ending from V_LCINIT (43_verifier.md R230). -/
def initEnding (cfg : Config) (a : G1) (b : G2) (c : G1) (inputs : List Field) : Ending :=
  loopEnding cfg (negEnding cfg a b c) 0 (cfg.vk.ic.headD ⟨0, 0⟩) none (cfg.vk.ic.tail.zip inputs)

/-- The ending from V_RANGE, over the inputs that are left (43_verifier.md R228). -/
def rangeEnding (cfg : Config) (next : Ending) : Byte → List Field → Ending
  | _, [] => next
  | idx, f :: fs =>
    if cfg.scalarR ≤ f.toNat then ⟨[], .scalarFieldOverflow, false, errinfoAt .vRange idx, none, none, none⟩
    else rangeEnding cfg next (idx + 1) fs

/-- The ending of a VERIFY just started (43_verifier.md R227). -/
def startEnding (cfg : Config) (a : G1) (b : G2) (c : G1) (inputs : List Field) : Ending :=
  if inputs.length + 1 ≠ cfg.vk.ic.length then
    ⟨[], .inputLengthMismatch, false, errinfoAt .vLen 0, none, none, none⟩
  else rangeEnding cfg (initEnding cfg a b c inputs) 0 inputs

/-- An ending agrees with an outcome of the source's function: its calls, and what STATUS shows of the verdict. -/
def Ending.Agrees (e : Ending) (v : Verification) : Prop :=
  e.calls = v.calls ∧ e.err = v.verdict.err ∧ e.valid = v.verdict.isValid

theorem pairEnding_agrees (cfg : Config) (call : EngineCall) (idx : Byte) (vkx : G1) (term : Option G1) (nega : G1) :
    (pairEnding cfg call idx vkx term nega).Agrees ⟨[call], finalVerdict cfg call⟩ := by
  rw [pairEnding, finalVerdict]
  cases readBool (engineOf cfg call) with
  | error e => exact ⟨rfl, rfl, rfl⟩
  | value ok => cases ok <;> exact ⟨rfl, rfl, rfl⟩

/-- Where the linear combination fails, the loop ends with its calls and its error. -/
theorem loopEnding_of_error {cfg : Config} {last : Byte → G1 → Option G1 → Ending} {e : ErrorClass}
    (pairs : List (G1 × Field)) (idx : Byte) (acc : G1) (term : Option G1)
    (h : (linComb cfg acc pairs).2 = .error e) :
    (loopEnding cfg last idx acc term pairs).Agrees ⟨(linComb cfg acc pairs).1, .error e⟩ := by
  induction pairs generalizing idx acc term with
  | nil => cases h
  | cons pair rest ih =>
    obtain ⟨p, k⟩ := pair
    rw [linComb] at h ⊢
    rw [loopEnding, smulEnding]
    cases hs : readPoint (engineOf cfg (smulCall p k)) with
    | error e' =>
      rw [hs] at h
      cases h
      exact ⟨rfl, rfl, rfl⟩
    | value t =>
      rw [hs] at h
      dsimp only at h ⊢
      rw [addEnding]
      cases ha : readPoint (engineOf cfg (addCall acc t)) with
      | error e' =>
        rw [ha] at h
        cases h
        exact ⟨rfl, rfl, rfl⟩
      | value acc' =>
        rw [ha] at h
        obtain ⟨hcalls, herr, hvalid⟩ := ih (if rest = [] then idx else idx + 1) acc' (some t) h
        exact ⟨congrArg (fun cs => smulCall p k :: addCall acc t :: cs) hcalls, herr, hvalid⟩

/-- Where the linear combination has a value, the loop makes its calls and goes on from that value. -/
theorem loopEnding_of_value {cfg : Config} {last : Byte → G1 → Option G1 → Ending} {vkx : G1}
    (pairs : List (G1 × Field)) (idx : Byte) (acc : G1) (term : Option G1)
    (h : (linComb cfg acc pairs).2 = .value vkx) :
    ∃ idx' term', loopEnding cfg last idx acc term pairs = (last idx' vkx term').afterCalls (linComb cfg acc pairs).1 := by
  induction pairs generalizing idx acc term with
  | nil =>
    cases h
    exact ⟨idx, term, rfl⟩
  | cons pair rest ih =>
    obtain ⟨p, k⟩ := pair
    rw [linComb] at h ⊢
    rw [loopEnding, smulEnding]
    cases hs : readPoint (engineOf cfg (smulCall p k)) with
    | error e' =>
      rw [hs] at h
      cases h
    | value t =>
      rw [hs] at h
      dsimp only at h ⊢
      rw [addEnding]
      cases ha : readPoint (engineOf cfg (addCall acc t)) with
      | error e' =>
        rw [ha] at h
        cases h
      | value acc' =>
        rw [ha] at h
        obtain ⟨idx', term', hrest⟩ := ih (if rest = [] then idx else idx + 1) acc' (some t) h
        refine ⟨idx', term', ?_⟩
        dsimp only
        rw [hrest, Ending.afterCalls_afterCalls, Ending.afterCalls_afterCalls]
        rfl

/-- The range check ends the run at the first input out of range, and otherwise goes on. -/
theorem rangeEnding_eq (cfg : Config) (next : Ending) (inputs : List Field) (idx : Byte) :
    (inputs.any (fun f => decide (f.toNat ≥ cfg.scalarR)) = false ∧ rangeEnding cfg next idx inputs = next) ∨
    (inputs.any (fun f => decide (f.toNat ≥ cfg.scalarR)) = true ∧ ∃ k,
      rangeEnding cfg next idx inputs = ⟨[], .scalarFieldOverflow, false, errinfoAt .vRange k, none, none, none⟩) := by
  induction inputs generalizing idx with
  | nil => exact .inl ⟨rfl, rfl⟩
  | cons f fs ih =>
    rw [rangeEnding, List.any_cons]
    by_cases hf : cfg.scalarR ≤ f.toNat
    · exact .inr ⟨by simp [hf], idx, if_pos hf⟩
    · simpa [hf] using ih (idx + 1)

/-- The ending at the start is the outcome of the source's function (43_verifier.md R222, R236). -/
theorem startEnding_agrees (cfg : Config) (a : G1) (b : G2) (c : G1) (inputs : List Field) :
    (startEnding cfg a b c inputs).Agrees (verifyFunction cfg a b c inputs) := by
  rw [startEnding, verifyFunction]
  split_ifs with hlen hrange
  · exact ⟨rfl, rfl, rfl⟩
  · obtain ⟨hn, -⟩ | ⟨-, k, hk⟩ := rangeEnding_eq cfg (initEnding cfg a b c inputs) inputs 0
    · rw [hn] at hrange
      cases hrange
    · rw [hk]
      exact ⟨rfl, rfl, rfl⟩
  · obtain ⟨-, hnext⟩ | ⟨hy, -⟩ := rangeEnding_eq cfg (initEnding cfg a b c inputs) inputs 0
    · rw [hnext, initEnding]
      rcases hl : linComb cfg (cfg.vk.ic.headD ⟨0, 0⟩) (cfg.vk.ic.tail.zip inputs) with ⟨calls, vkx | e⟩
      · obtain ⟨idx', term', hend⟩ := loopEnding_of_value (last := negEnding cfg a b c) (cfg.vk.ic.tail.zip inputs) 0
          (cfg.vk.ic.headD ⟨0, 0⟩) none (vkx := vkx) (by rw [hl])
        obtain ⟨hcalls, herr, hvalid⟩ :=
          pairEnding_agrees cfg (finalCall cfg a b c vkx) idx' vkx term' (negate cfg.baseP a)
        rw [hend, hl]
        exact ⟨congrArg (calls ++ ·) hcalls, herr, hvalid⟩
      · have hfail := loopEnding_of_error (last := negEnding cfg a b c) (cfg.vk.ic.tail.zip inputs) 0
          (cfg.vk.ic.headD ⟨0, 0⟩) none (e := e) (by rw [hl])
        rwa [hl] at hfail
    · exact absurd hy hrange

end Sys2Proof.Machine

/-! What a state of a running VERIFY is heading for, and that a step of VERIFY keeps it but for the request it issues. -/

namespace Sys2Proof.Machine

/-- The pairs of an IC point and an input whose scalar_mul is not done, from entry `k` on. -/
def pairsFrom (s : State) (k : Nat) : List (G1 × Field) := (s.cfg.vk.ic.drop (k + 1)).zip ((inputsOf s).drop k)

/-- TERM where the phases after the linear combination know it: a key without inputs has no term. -/
def termOf (s : State) : Option G1 := if s.npub.toNat = 0 then none else some s.term

/-- The ending from the linear combination on, for the operands of a state. -/
def loopFrom (s : State) : Byte → G1 → Option G1 → List (G1 × Field) → Ending :=
  loopEnding s.cfg (negEnding s.cfg s.a s.b s.c)

/-- The ending that a state of VERIFY is heading for, as if the request of its phase were still to be issued. -/
def endingOf (s : State) : Ending :=
  match s.phase with
  | .vLen => startEnding s.cfg s.a s.b s.c (inputsOf s)
  | .vRange => rangeEnding s.cfg (initEnding s.cfg s.a s.b s.c (inputsOf s)) s.idx ((inputsOf s).drop s.idx.toNat)
  | .vLcinit => initEnding s.cfg s.a s.b s.c (inputsOf s)
  | .vSmul => loopFrom s s.idx s.vkx (if s.idx.toNat = 0 then none else some s.term) (pairsFrom s s.idx.toNat)
  | .vAdd =>
    addEnding s.cfg s.idx s.vkx s.term fun acc =>
      loopFrom s (if pairsFrom s (s.idx.toNat + 1) = [] then s.idx else s.idx + 1) acc (some s.term)
        (pairsFrom s (s.idx.toNat + 1))
  | .vNeg => negEnding s.cfg s.a s.b s.c s.idx s.vkx (termOf s)
  | .vPair => pairEnding s.cfg (pairCall s.cfg.pairLayout (g1Args s) (g2Args s)) s.idx s.vkx (termOf s) s.nega
  | .idle => ⟨[], .none, false, 0, none, none, none⟩
  | .exec => ⟨[], .none, false, 0, none, none, none⟩

/-- The ending that a state of VERIFY is heading for: an outstanding request has been made. -/
def aheadOf (s : State) : Ending :=
  if s.status.waiteng then { endingOf s with calls := (endingOf s).calls.tail } else endingOf s

/-- A state shows an ending: nothing is left to do, and STATUS, ERRINFO and what the run wrote are the ending's. -/
def Shows (e : Ending) (t : State) : Prop :=
  e.calls = [] ∧ t.status.done = true ∧ t.status.err = e.err ∧ t.status.valid = e.valid ∧ t.errinfo = e.errinfo ∧
    (∀ p, e.vkx = some p → t.vkx = p) ∧ (∀ p, e.term = some p → t.term = p) ∧ (∀ p, e.nega = some p → t.nega = p)

/-- A run of VERIFY that is heading for an ending, or has ended in it. -/
def Toward (e : Ending) (s : State) : Prop :=
  (s.phase.ofVerify = true ∧ aheadOf s = e) ∨ (s.phase = .idle ∧ Shows e s)

section

variable {s t : State}

theorem termOf_of_zero (h : s.npub.toNat = 0) : termOf s = none := if_pos h

theorem termOf_of_ne_zero (h : s.npub.toNat ≠ 0) : termOf s = some s.term := if_neg h

theorem endingOf_of_vLen (h : s.phase = .vLen) : endingOf s = startEnding s.cfg s.a s.b s.c (inputsOf s) := by
  rw [endingOf, h]

theorem endingOf_of_vRange (h : s.phase = .vRange) :
    endingOf s =
      rangeEnding s.cfg (initEnding s.cfg s.a s.b s.c (inputsOf s)) s.idx ((inputsOf s).drop s.idx.toNat) := by
  rw [endingOf, h]

theorem endingOf_of_vLcinit (h : s.phase = .vLcinit) : endingOf s = initEnding s.cfg s.a s.b s.c (inputsOf s) := by
  rw [endingOf, h]

theorem endingOf_of_vSmul (h : s.phase = .vSmul) :
    endingOf s =
      loopFrom s s.idx s.vkx (if s.idx.toNat = 0 then none else some s.term) (pairsFrom s s.idx.toNat) := by
  rw [endingOf, h]

theorem endingOf_of_vAdd (h : s.phase = .vAdd) :
    endingOf s = addEnding s.cfg s.idx s.vkx s.term fun acc =>
      loopFrom s (if pairsFrom s (s.idx.toNat + 1) = [] then s.idx else s.idx + 1) acc (some s.term)
        (pairsFrom s (s.idx.toNat + 1)) := by
  rw [endingOf, h]

theorem endingOf_of_vNeg (h : s.phase = .vNeg) :
    endingOf s = negEnding s.cfg s.a s.b s.c s.idx s.vkx (termOf s) := by
  rw [endingOf, h]

theorem endingOf_of_vPair (h : s.phase = .vPair) :
    endingOf s =
      pairEnding s.cfg (pairCall s.cfg.pairLayout (g1Args s) (g2Args s)) s.idx s.vkx (termOf s) s.nega := by
  rw [endingOf, h]

/-- The marks of two states differ in the block's own registers at most, and there by new marks: VKX, TERM and NEGA stand
at 0x0140 to 0x01FF (20_memory.md R65). -/
def OwnMarks (s t : State) : Prop :=
  ∀ o, t.written.read o = s.written.read o ∨ (0x0140 ≤ o ∧ o < 0x0200 ∧ t.written.read o = 1)

theorem ownMarks_refl (s : State) : OwnMarks s s := fun _ => .inl rfl

theorem ownMarks_markWritten (s : State) {off n : Nat} (hlo : 0x0140 ≤ off) (hhi : off + n ≤ 0x0200) :
    OwnMarks s (markWritten off n s) := by
  intro o
  rw [read_markWritten]
  split_ifs with h
  · exact .inr ⟨by omega, by omega, rfl⟩
  · exact .inl rfl

theorem ownMarks_setVkx (p : G1) (s : State) : OwnMarks s (setVkx p s) :=
  ownMarks_markWritten { s with vkx := p } (by decide) (by decide)

theorem ownMarks_setTerm (p : G1) (s : State) : OwnMarks s (setTerm p s) :=
  ownMarks_markWritten { s with term := p } (by decide) (by decide)

theorem ownMarks_setNega (p : G1) (s : State) : OwnMarks s (setNega p s) :=
  ownMarks_markWritten { s with nega := p } (by decide) (by decide)

/-- What a step of VERIFY writes at most: its own registers and their marks, STATUS, ERRINFO and the port. -/
theorem exec_verify_frame (h : exec .verify s = .next t) :
    t = { s with
      status := t.status, errinfo := t.errinfo, phase := t.phase, idx := t.idx, vkx := t.vkx, term := t.term
      nega := t.nega, reqSel := t.reqSel, reqPayload := t.reqPayload, rspValid := t.rspValid, written := t.written } ∧
    OwnMarks s t := by
  cases hph : s.phase with
  | idle | exec =>
    rw [exec_verify_of_not_ofVerify (by rw [hph]; rfl)] at h
    cases h
  | vLen =>
    rw [exec_verify_of_vLen hph] at h
    obtain ⟨-, ⟨-, rfl⟩ | ⟨-, rfl⟩⟩ := phaseLen_cases h <;> exact ⟨rfl, ownMarks_refl s⟩
  | vRange =>
    rw [exec_verify_of_vRange hph] at h
    obtain ⟨-, rfl⟩ | ⟨-, -, -, ⟨-, rfl⟩ | ⟨-, rfl⟩⟩ := phaseRange_cases h <;> exact ⟨rfl, ownMarks_refl s⟩
  | vLcinit =>
    rw [exec_verify_of_vLcinit hph] at h
    obtain ⟨p, -, rfl⟩ := phaseLcinit_cases h
    exact ⟨rfl, ownMarks_setVkx p s⟩
  | vSmul =>
    rw [exec_verify_of_vSmul hph] at h
    obtain ⟨-, h⟩ | ⟨-, -, rfl⟩ | ⟨-, -, h⟩ := enginePhase_cases h
    · obtain ⟨-, -, _, -, rfl⟩ := issueSmul_cases h
      exact ⟨rfl, ownMarks_refl s⟩
    · exact ⟨rfl, ownMarks_refl t⟩
    · obtain ⟨_, -, rfl⟩ | ⟨p, -, rfl⟩ := consumeSmul_cases h
      · exact ⟨rfl, ownMarks_refl s⟩
      · exact ⟨rfl, ownMarks_setTerm p (consumeResponse s)⟩
  | vAdd =>
    rw [exec_verify_of_vAdd hph] at h
    obtain ⟨-, h⟩ | ⟨-, -, rfl⟩ | ⟨-, -, h⟩ := enginePhase_cases h
    · obtain ⟨-, rfl⟩ := issueAdd_cases h
      exact ⟨rfl, ownMarks_refl s⟩
    · exact ⟨rfl, ownMarks_refl t⟩
    · obtain ⟨_, -, rfl⟩ | ⟨p, -, ⟨-, rfl⟩ | ⟨-, rfl⟩⟩ := consumeAdd_cases h
      · exact ⟨rfl, ownMarks_refl s⟩
      · exact ⟨rfl, ownMarks_setVkx p (consumeResponse s)⟩
      · exact ⟨rfl, ownMarks_setVkx p (consumeResponse s)⟩
  | vNeg =>
    rw [exec_verify_of_vNeg hph] at h
    obtain ⟨-, rfl⟩ := phaseNeg_cases h
    exact ⟨rfl, ownMarks_setNega _ s⟩
  | vPair =>
    rw [exec_verify_of_vPair hph] at h
    obtain ⟨-, h⟩ | ⟨-, -, rfl⟩ | ⟨-, -, h⟩ := enginePhase_cases h
    · obtain ⟨-, rfl⟩ := issuePair_cases h
      exact ⟨rfl, ownMarks_refl s⟩
    · exact ⟨rfl, ownMarks_refl t⟩
    · obtain ⟨_, -, rfl⟩ | ⟨_, -, rfl⟩ := consumePair_cases h <;> exact ⟨rfl, ownMarks_refl s⟩

/-- The inputs from entry `k` on begin with PUB[k]. -/
theorem inputsOf_drop {k : Nat} (hk : k < s.npub.toNat) :
    (inputsOf s).drop k = pubEntry s k :: (inputsOf s).drop (k + 1) := by
  have hin : k < (inputsOf s).length := by rwa [length_inputsOf]
  have hf := getElem?_inputsOf s k hk
  rw [List.getElem?_eq_getElem hin, Option.some.injEq] at hf
  rw [List.drop_eq_getElem_cons hin, hf]

/-- In the loop the pairs that are left begin with the entry of IDX. -/
theorem pairsFrom_of_lt {k : Nat} (hlen : s.npub.toNat + 1 = s.cfg.vk.ic.length) (hk : k < s.npub.toNat) :
    ∃ p, s.cfg.vk.ic[k + 1]? = some p ∧ pairsFrom s k = (p, pubEntry s k) :: pairsFrom s (k + 1) := by
  have hic : k + 1 < s.cfg.vk.ic.length := by omega
  refine ⟨s.cfg.vk.ic[k + 1], List.getElem?_eq_getElem hic, ?_⟩
  rw [pairsFrom, List.drop_eq_getElem_cons hic, inputsOf_drop hk, List.zip_cons_cons]
  rfl

theorem pairsFrom_of_le {k : Nat} (hk : s.npub.toNat ≤ k) : pairsFrom s k = [] := by
  rw [pairsFrom, List.drop_eq_nil_of_le (as := inputsOf s) (by rwa [length_inputsOf]), List.zip_nil_right]

/-- No pair is left exactly at the end of the inputs. -/
theorem pairsFrom_eq_nil_iff {k : Nat} (hlen : s.npub.toNat + 1 = s.cfg.vk.ic.length) :
    pairsFrom s k = [] ↔ ¬ k < s.npub.toNat := by
  refine ⟨fun h hk => ?_, fun h => pairsFrom_of_le (Nat.not_lt.mp h)⟩
  obtain ⟨p, -, hp⟩ := pairsFrom_of_lt hlen hk
  rw [hp] at h
  cases h

theorem aheadOf_of_quiet (hw : s.status.waiteng = false) : aheadOf s = endingOf s := by
  rw [aheadOf, hw]
  rfl

theorem aheadOf_of_waiting (hw : s.status.waiteng = true) :
    aheadOf s = { endingOf s with calls := (endingOf s).calls.tail } := if_pos hw

theorem issued_of_waiting (hw : s.status.waiteng = true) : issued s t = [] := by
  rw [issued, hw]
  rfl

theorem issued_of_not_waiting (hw : t.status.waiteng = false) : issued s t = [] := by
  rw [issued, hw, Bool.and_false]
  rfl

/-- The request of the current phase is the first call of what it is heading for. -/
theorem head_endingOf (h : Inv s) {call : EngineCall} (hc : phaseCall s = some call) :
    (endingOf s).calls = call :: (endingOf s).calls.tail := by
  obtain ⟨-, -, -, -, -, ⟨hlen, -, hidx, -⟩, -⟩ := h
  cases hph : s.phase with
  | vSmul =>
    obtain ⟨p, hp, hpairs⟩ := pairsFrom_of_lt (hlen (by rw [hph]; rfl)) (hidx (.inl hph))
    rw [phaseCall, hph] at hc
    simp only [hp, Option.some.injEq] at hc
    rw [endingOf_of_vSmul hph, hpairs, loopFrom, loopEnding, smulEnding, ← hc]
    cases readPoint (engineOf s.cfg (smulCall p (pubEntry s s.idx.toNat))) <;> rfl
  | vAdd =>
    rw [phaseCall, hph] at hc
    cases hc
    rw [endingOf_of_vAdd hph, addEnding]
    cases readPoint (engineOf s.cfg (addCall s.vkx s.term)) <;> rfl
  | vPair =>
    rw [phaseCall, hph] at hc
    cases hc
    rw [endingOf_of_vPair hph, pairEnding]
    cases readBool (engineOf s.cfg (pairCall s.cfg.pairLayout (g1Args s) (g2Args s))) <;> rfl
  | _ =>
    rw [phaseCall, hph] at hc
    cases hc

/-- What a step of VERIFY makes of what its state is heading for: the run goes on, with the request issued off the list,
or it has ended. -/
def Advances (s t : State) : Prop :=
  (t.phase.ofVerify = true ∧ aheadOf s = (aheadOf t).afterCalls (issued s t)) ∨
    (t.phase = .idle ∧ issued s t = [] ∧ Shows (aheadOf s) t)

/-- An issue step of the phase's request advances. -/
theorem advances_issueRequest (h : Inv s) (hofv : s.phase.ofVerify = true) (hw : s.status.waiteng = false)
    {call : EngineCall} (hc : phaseCall s = some call) : Advances s (issueRequest call s) := by
  refine .inl ⟨hofv, ?_⟩
  have hissued : issued s (issueRequest call s) = [call] := by
    rw [issued, hw]
    rfl
  have hsame : endingOf (issueRequest call s) = endingOf s := rfl
  rw [aheadOf_of_quiet hw, aheadOf_of_waiting rfl, hissued, hsame]
  have := head_endingOf h hc
  rw [Ending.afterCalls]
  dsimp only
  rw [List.singleton_append, ← this]

/-- While a request is outstanding, the response, once it is there, is the engine's to the phase's request. -/
theorem rsp_of_answered (h : Inv s) (hv : s.rspValid = true) {call : EngineCall} (hc : phaseCall s = some call) :
    s.rsp = engineOf s.cfg call := by
  obtain ⟨-, -, -, -, -, -, -, hcall, hrsp⟩ := h
  obtain ⟨hw, hr⟩ := hrsp hv
  have := hcall hw
  rw [hc, Option.some.injEq] at this
  rw [this]
  exact hr

/-- An error completion shows an ending with no call left, no verdict, the same error and place, and VKX, TERM and NEGA as
they are. -/
theorem shows_raiseHere {e : ErrorClass} {vkx term nega : Option G1} (hvkx : ∀ p, vkx = some p → s.vkx = p)
    (hterm : ∀ p, term = some p → s.term = p) (hnega : ∀ p, nega = some p → s.nega = p) :
    Shows ⟨[], e, false, errinfoAt s.phase s.idx, vkx, term, nega⟩ (raiseHere e s) :=
  ⟨rfl, rfl, rfl, rfl, rfl, hvkx, hterm, hnega⟩

/-- An error completion advances where the state is heading for it. -/
theorem advances_raiseHere {e : ErrorClass} {vkx term nega : Option G1}
    (ha : aheadOf s = ⟨[], e, false, errinfoAt s.phase s.idx, vkx, term, nega⟩) (hvkx : ∀ p, vkx = some p → s.vkx = p)
    (hterm : ∀ p, term = some p → s.term = p) (hnega : ∀ p, nega = some p → s.nega = p) :
    Advances s (raiseHere e s) :=
  .inr ⟨rfl, issued_of_not_waiting rfl, by rw [ha]; exact shows_raiseHere hvkx hterm hnega⟩

theorem advances_of_eq (hofv : t.phase.ofVerify = true) (hw : t.status.waiteng = false)
    (ha : aheadOf s = endingOf t) : Advances s t := by
  refine .inl ⟨hofv, ?_⟩
  rw [issued_of_not_waiting hw, Ending.afterCalls_nil, aheadOf_of_quiet hw, ha]

theorem advances_phaseLen (h : Inv s) (hph : s.phase = .vLen) (he : phaseLen s = .next t) : Advances s t := by
  obtain ⟨hw, -⟩ := quiet_of_phaseCall h (phaseCall_of_phase (by rw [hph]; decide))
  obtain ⟨-, -, -, -, -, ⟨-, -, -, -, hidx⟩, -⟩ := h
  have hahead := (aheadOf_of_quiet hw).trans (endingOf_of_vLen hph)
  rw [startEnding, length_inputsOf] at hahead
  obtain ⟨-, ⟨hne, rfl⟩ | ⟨heq, rfl⟩⟩ := phaseLen_cases he
  · rw [if_pos hne, ← hidx hph, ← hph] at hahead
    exact advances_raiseHere hahead (by simp) (by simp) (by simp)
  · rw [if_neg (not_not.mpr heq)] at hahead
    exact advances_of_eq rfl hw hahead

theorem advances_phaseRange (h : Inv s) (hph : s.phase = .vRange) (he : phaseRange s = .next t) : Advances s t := by
  obtain ⟨hw, -⟩ := quiet_of_phaseCall h (phaseCall_of_phase (by rw [hph]; decide))
  obtain ⟨-, ⟨hnpub, -⟩, -, -, -, ⟨-, hrange, -⟩, -⟩ := h
  obtain ⟨hle, -⟩ := hrange hph
  have hahead := (aheadOf_of_quiet hw).trans (endingOf_of_vRange hph)
  obtain ⟨heq, rfl⟩ | ⟨hne, -, -, hcheck⟩ := phaseRange_cases he
  · rw [heq, List.drop_eq_nil_of_le (length_inputsOf s).le, rangeEnding] at hahead
    exact advances_of_eq rfl hw hahead
  · have hlt : s.idx.toNat < s.npub.toNat := by omega
    rw [inputsOf_drop hlt, rangeEnding] at hahead
    obtain ⟨hbad, rfl⟩ | ⟨hok, rfl⟩ := hcheck
    · rw [if_pos hbad, ← hph] at hahead
      exact advances_raiseHere hahead (by simp) (by simp) (by simp)
    · rw [if_neg (Nat.not_le.mpr hok), ← toNat_idx_succ s.idx _ hlt hnpub] at hahead
      exact advances_of_eq (by rw [hph]; rfl) hw (hahead.trans (endingOf_of_vRange (s := { s with idx := s.idx + 1 }) hph).symm)

theorem advances_phaseLcinit (h : Inv s) (hph : s.phase = .vLcinit) (he : phaseLcinit s = .next t) :
    Advances s t := by
  obtain ⟨hw, -⟩ := quiet_of_phaseCall h (phaseCall_of_phase (by rw [hph]; decide))
  obtain ⟨p, hp, rfl⟩ := phaseLcinit_cases he
  have hhead : s.cfg.vk.ic.headD ⟨0, 0⟩ = p := by rw [List.headD_eq_head?_getD, List.head?_eq_getElem?, hp]; rfl
  have hpairs : s.cfg.vk.ic.tail.zip (inputsOf s) = pairsFrom s 0 := by rw [pairsFrom, List.drop_one, List.drop_zero]
  have hahead := (aheadOf_of_quiet hw).trans (endingOf_of_vLcinit hph)
  rw [initEnding, hhead, hpairs] at hahead
  by_cases hn : s.npub.toNat > 0
  · simp only [hn, if_true]
    exact advances_of_eq rfl hw hahead
  · simp only [hn, if_false]
    rw [pairsFrom_of_le (Nat.not_lt.mp hn), loopEnding] at hahead
    refine advances_of_eq rfl hw (hahead.trans ?_)
    have hzero : s.npub.toNat = 0 := by omega
    rw [endingOf_of_vNeg rfl, termOf_of_zero (by exact hzero)]
    rfl

theorem advances_phaseSmul (h : Inv s) (hph : s.phase = .vSmul) (hen : ¬ (s.status.waiteng = true ∧ s.rspValid = false))
    (he : enginePhase issueSmul consumeSmul s = .next t) : Advances s t := by
  have hofv : s.phase.ofVerify = true := by rw [hph]; rfl
  obtain ⟨-, -, -, -, -, ⟨hlen, -, hidx, -⟩, -⟩ := id h
  obtain ⟨p, hp, hpairs⟩ := pairsFrom_of_lt (hlen (by rw [hph]; rfl)) (hidx (.inl hph))
  have hcall : phaseCall s = some (smulCall p (pubEntry s s.idx.toNat)) := by simp only [phaseCall, hph, hp]
  obtain ⟨hw, hi⟩ | ⟨hw, hv, -⟩ | ⟨hw, hv, hc⟩ := enginePhase_cases he
  · obtain ⟨-, -, q, hq, rfl⟩ := issueSmul_cases hi
    rw [hp] at hq
    cases hq
    exact advances_issueRequest h hofv hw hcall
  · exact absurd ⟨hw, hv⟩ hen
  · have hahead := aheadOf_of_waiting hw
    rw [endingOf_of_vSmul hph, hpairs, loopFrom, loopEnding, smulEnding] at hahead
    obtain ⟨e, hr, rfl⟩ | ⟨x, hr, rfl⟩ := consumeSmul_cases hc
    all_goals rw [← rsp_of_answered h hv hcall, hr] at hahead
    · rw [← hph] at hahead
      exact advances_raiseHere hahead (by simp) (by simp) (by simp)
    · exact advances_of_eq rfl rfl hahead

theorem advances_phaseAdd (h : Inv s) (hph : s.phase = .vAdd) (hen : ¬ (s.status.waiteng = true ∧ s.rspValid = false))
    (he : enginePhase issueAdd consumeAdd s = .next t) : Advances s t := by
  have hofv : s.phase.ofVerify = true := by rw [hph]; rfl
  obtain ⟨-, ⟨hnpub, -⟩, -, -, -, ⟨hlen, -, hidx, -⟩, -⟩ := id h
  have hlen := hlen (by rw [hph]; rfl)
  have hidx := hidx (.inr hph)
  have hcall : phaseCall s = some (addCall s.vkx s.term) := by simp only [phaseCall, hph]
  obtain ⟨hw, hi⟩ | ⟨hw, hv, -⟩ | ⟨hw, hv, hc⟩ := enginePhase_cases he
  · obtain ⟨-, rfl⟩ := issueAdd_cases hi
    exact advances_issueRequest h hofv hw hcall
  · exact absurd ⟨hw, hv⟩ hen
  · have hahead := aheadOf_of_waiting hw
    rw [endingOf_of_vAdd hph, addEnding] at hahead
    obtain ⟨e, hr, rfl⟩ | ⟨x, hr, hnext⟩ := consumeAdd_cases hc
    all_goals rw [← rsp_of_answered h hv hcall, hr] at hahead
    · rw [← hph] at hahead
      exact advances_raiseHere hahead (by simp) (by simp) (by simp)
    · obtain ⟨hmore, rfl⟩ | ⟨hlast, rfl⟩ := hnext
      · rw [if_neg (mt (pairsFrom_eq_nil_iff hlen).mp (not_not.mpr hmore)),
          ← toNat_idx_succ s.idx _ hidx hnpub] at hahead
        refine advances_of_eq rfl rfl (hahead.trans ?_)
        rw [endingOf_of_vSmul rfl]
        dsimp only
        rw [if_neg (by rw [toNat_idx_succ s.idx _ hidx hnpub]; omega)]
        rfl
      · rw [(pairsFrom_eq_nil_iff hlen).mpr hlast, if_pos rfl] at hahead
        refine advances_of_eq rfl rfl (hahead.trans ?_)
        have hpos : s.npub.toNat ≠ 0 := by omega
        rw [endingOf_of_vNeg rfl, termOf_of_ne_zero (by exact hpos)]
        rfl

theorem advances_phaseNeg (h : Inv s) (hph : s.phase = .vNeg) (he : phaseNeg s = .next t) : Advances s t := by
  obtain ⟨hw, -⟩ := quiet_of_phaseCall h (phaseCall_of_phase (by rw [hph]; decide))
  obtain ⟨-, rfl⟩ := phaseNeg_cases he
  exact advances_of_eq rfl hw ((aheadOf_of_quiet hw).trans (endingOf_of_vNeg hph))

theorem advances_phasePair (h : Inv s) (hph : s.phase = .vPair) (hen : ¬ (s.status.waiteng = true ∧ s.rspValid = false))
    (he : enginePhase issuePair consumePair s = .next t) : Advances s t := by
  have hofv : s.phase.ofVerify = true := by rw [hph]; rfl
  obtain ⟨-, -, -, herr, hinfo⟩ := running_of_inv h (by rw [hph]; decide)
  have hcall : phaseCall s = some (pairCall s.cfg.pairLayout (g1Args s) (g2Args s)) := by simp only [phaseCall, hph]
  have hterm : ∀ q, termOf s = some q → s.term = q := by simp [termOf]
  obtain ⟨hw, hi⟩ | ⟨hw, hv, -⟩ | ⟨hw, hv, hc⟩ := enginePhase_cases he
  · obtain ⟨-, rfl⟩ := issuePair_cases hi
    exact advances_issueRequest h hofv hw hcall
  · exact absurd ⟨hw, hv⟩ hen
  · have hahead := aheadOf_of_waiting hw
    rw [endingOf_of_vPair hph, pairEnding, ← rsp_of_answered h hv hcall] at hahead
    obtain ⟨e, hr, rfl⟩ | ⟨ok, hr, rfl⟩ := consumePair_cases hc
    all_goals rw [hr] at hahead
    · rw [← hph] at hahead
      exact advances_raiseHere hahead (by simp) hterm (by simp)
    · refine .inr ⟨rfl, issued_of_not_waiting rfl, ?_⟩
      rw [hahead]
      exact ⟨rfl, rfl, herr, rfl, hinfo, by simp, hterm, by simp⟩

/-- Every step of VERIFY advances, but for the wait for an answer, in which the sequencer has no step. -/
theorem advances_exec_verify (h : Inv s) (hen : ¬ (s.status.waiteng = true ∧ s.rspValid = false))
    (he : exec .verify s = .next t) : Advances s t := by
  cases hph : s.phase with
  | idle | exec =>
    rw [exec_verify_of_not_ofVerify (by rw [hph]; rfl)] at he
    cases he
  | vLen => exact advances_phaseLen h hph (exec_verify_of_vLen hph ▸ he)
  | vRange => exact advances_phaseRange h hph (exec_verify_of_vRange hph ▸ he)
  | vLcinit => exact advances_phaseLcinit h hph (exec_verify_of_vLcinit hph ▸ he)
  | vSmul => exact advances_phaseSmul h hph hen (exec_verify_of_vSmul hph ▸ he)
  | vAdd => exact advances_phaseAdd h hph hen (exec_verify_of_vAdd hph ▸ he)
  | vNeg => exact advances_phaseNeg h hph (exec_verify_of_vNeg hph ▸ he)
  | vPair => exact advances_phasePair h hph hen (exec_verify_of_vPair hph ▸ he)

end

end Sys2Proof.Machine

/-! A run of VERIFY that no reset and no other command start disturbs keeps what it is heading for, however the agents
interleave; from this the statements about its outcome follow. -/

namespace Sys2Proof.Machine

/-- No reset comes, and the host starts no command. -/
def Undisturbed (s : State) : Prop := Turn.reset ∉ s.turns ∧ s.hostProg.all startsNothing = true

section

variable {s t : State}

/-- A store of an aligned word anywhere but CTRL leaves the block's own registers and the turns. -/
theorem storeAt_frame {off : Nat} (ha : off % 4 = 0) (hoff : off ≠ 0) (w : Word) (s : State) :
    storeAt off w s = { s with
      npub := (storeAt off w s).npub, cinlen := (storeAt off w s).cinlen, coutlen := (storeAt off w s).coutlen
      a := (storeAt off w s).a, b := (storeAt off w s).b, c := (storeAt off w s).c, pub := (storeAt off w s).pub
      p := (storeAt off w s).p, q := (storeAt off w s).q, v := (storeAt off w s).v, cin := (storeAt off w s).cin
      written := (storeAt off w s).written } := by
  obtain hs | ⟨r, -, -, hhi, hs⟩ := storeAt_cases off w s
  · rw [hs]
  · have hr : r ≠ .ctrl := by
      rintro rfl
      have hlt : off < 4 := hhi
      omega
    rw [hs]
    exact storeReg_eq hr _ w s

/-- What a host line that starts no command changes while a command runs: HAZ at most. -/
theorem hostStep_of_busy (hb : s.status.busy = true) (he : hostStep s = .next t) :
    ∃ haz prog resp, t = { s with status := { s.status with haz := haz }, hostProg := prog, hostResp := resp } ∧
      (prog = s.hostProg ∨ prog = s.hostProg.tail) := by
  obtain rfl | ⟨prog, resp, rfl, line, -, hprog⟩ | ⟨addr, w, rest, hp, -, -, ⟨-, rfl⟩ | ⟨hidle, -⟩⟩ := hostStep_cases he
  · exact ⟨_, _, _, rfl, .inl rfl⟩
  · exact ⟨_, _, _, rfl, hprog.imp And.left And.left⟩
  · exact ⟨_, _, _, rfl, .inr (by rw [hp]; rfl)⟩
  · rw [hb] at hidle
    cases hidle

/-- What a host line that starts no command changes while the block is idle: no control register but NPUB, CINLEN and
COUTLEN, and none of VKX, TERM and NEGA. -/
theorem hostStep_of_idle (hb : s.status.busy = false) (hprog : s.hostProg.all startsNothing = true)
    (he : hostStep s = .next t) :
    t.phase = s.phase ∧ t.status = s.status ∧ t.errinfo = s.errinfo ∧ t.vkx = s.vkx ∧ t.term = s.term ∧
      t.nega = s.nega ∧ t.turns = s.turns ∧ (t.hostProg = s.hostProg ∨ t.hostProg = s.hostProg.tail) := by
  obtain rfl | ⟨prog, resp, rfl, line, -, hprog'⟩ | ⟨addr, w, rest, hp, ha, -, ⟨hbusy, -⟩ | ⟨-, rfl⟩⟩ := hostStep_cases he
  · exact ⟨rfl, rfl, rfl, rfl, rfl, rfl, rfl, .inl rfl⟩
  · exact ⟨rfl, rfl, rfl, rfl, rfl, rfl, rfl, hprog'.imp And.left And.left⟩
  · rw [hb] at hbusy
    cases hbusy
  · have hne : addr ≠ 0 := by
      rw [hp, List.all_cons, Bool.and_eq_true] at hprog
      exact of_decide_eq_true hprog.1
    rw [storeAt_frame ha hne w { s with hostProg := rest }]
    exact ⟨rfl, rfl, rfl, rfl, rfl, rfl, rfl, .inr (by rw [hp]; rfl)⟩

/-- Taking a turn and a host line off leaves a run undisturbed. -/
theorem undisturbed_of_tail (hu : Undisturbed s) (hturns : t.turns = s.turns.tail)
    (hprog : t.hostProg = s.hostProg ∨ t.hostProg = s.hostProg.tail) : Undisturbed t := by
  obtain ⟨hreset, hall⟩ := hu
  refine ⟨?_, ?_⟩
  · rw [hturns]
    exact fun hm => hreset (List.mem_of_mem_tail hm)
  · obtain h | h := hprog <;> rw [h]
    · exact hall
    · exact List.all_eq_true.mpr fun l hl => List.all_eq_true.mp hall l (List.mem_of_mem_tail hl)

/-- A sequencer that has a step is not waiting for the engine (43_verifier.md R226). -/
theorem not_waiting_of_sequencerEnabled (h : sequencerEnabled s = true) :
    ¬ (s.status.waiteng = true ∧ s.rspValid = false) := by
  rintro ⟨hw, hv⟩
  simp [sequencerEnabled, hw, hv] at h

/-- The engine's answer changes the response only, which is no part of what a run is heading for. -/
theorem toward_answerRequest {e : Ending} (sel : Byte) (h : Toward e s) : Toward e (answerRequest sel s) := by
  rw [answerRequest]
  split_ifs
  · exact h
  · exact h

theorem answerRequest_turns (sel : Byte) (s : State) : (answerRequest sel s).turns = s.turns := by
  rw [answerRequest]
  split_ifs <;> rfl

theorem answerRequest_hostProg (sel : Byte) (s : State) : (answerRequest sel s).hostProg = s.hostProg := by
  rw [answerRequest]
  split_ifs <;> rfl

/-- VERIFY leaves the turns and the host's program alone. -/
theorem exec_verify_outside (h : exec .verify s = .next t) : t.turns = s.turns ∧ t.hostProg = s.hostProg := by
  obtain ⟨hframe, -⟩ := exec_verify_frame h
  rw [hframe]
  exact ⟨rfl, rfl⟩

/-- A step of an undisturbed run keeps what it is heading for, but for the request it issues. -/
theorem toward_step {e : Ending} (h : Inv s) (hu : Undisturbed s) (ht : Toward e s) (he : step s = .next t) :
    Undisturbed t ∧ ∃ e', e = e'.afterCalls (issued s t) ∧ Toward e' t := by
  have stays : ∀ u : State, u.status.waiteng = s.status.waiteng → Toward e u →
      ∃ e', e = e'.afterCalls (issued s u) ∧ Toward e' u := by
    intro u hw hu
    refine ⟨e, ?_, hu⟩
    cases hs : s.status.waiteng with
    | true => rw [issued_of_waiting hs, Ending.afterCalls_nil]
    | false => rw [issued_of_not_waiting (hw.trans hs), Ending.afterCalls_nil]
  obtain rfl | ⟨hr, -⟩ | he | ⟨-, rfl⟩ | ⟨hen, he⟩ := step_cases he
  · exact ⟨undisturbed_of_tail hu rfl (.inl rfl), stays _ rfl ht⟩
  · exact absurd (List.mem_of_mem_head? hr) hu.1
  · obtain ⟨hofv, ha⟩ | ⟨hph, hs⟩ := ht
    · obtain ⟨hb, -⟩ := running_of_inv h (fun hi => by rw [hi] at hofv; cases hofv)
      obtain ⟨haz, prog, resp, rfl, hprog⟩ := hostStep_of_busy (s := afterTurn s) hb he
      exact ⟨undisturbed_of_tail hu rfl hprog, stays _ rfl (.inl ⟨hofv, ha⟩)⟩
    · obtain ⟨hphase, hst, hinfo, hvkx, hterm, hnega, hturns, hprog⟩ :=
        hostStep_of_idle (s := afterTurn s) ((busy_eq_false_iff h).mpr hph) hu.2 he
      refine ⟨undisturbed_of_tail hu hturns hprog, stays _ (by rw [hst]; rfl) (.inr ⟨hphase.trans hph, ?_⟩)⟩
      rw [Shows, hst, hinfo, hvkx, hterm, hnega]
      exact hs
  · refine ⟨undisturbed_of_tail hu ?_ (.inl ?_), stays _ ?_ (toward_answerRequest (s := tick (afterTurn s)) _ ht)⟩
    · exact answerRequest_turns _ _
    · exact answerRequest_hostProg _ _
    · rw [answerRequest_status]
      rfl
  · obtain ⟨-, hne⟩ := running_of_sequencerEnabled hen
    obtain ⟨hofv, rfl⟩ | ⟨hph, -⟩ := ht
    · rw [runPhase_of_ofVerify (s := tick (afterTurn s)) hofv] at he
      have hadv := advances_exec_verify (s := tick (afterTurn s)) h (not_waiting_of_sequencerEnabled hen) he
      obtain ⟨hturns, hprog⟩ := exec_verify_outside he
      refine ⟨undisturbed_of_tail hu hturns (.inl hprog), ?_⟩
      obtain ⟨hofv', ha⟩ | ⟨hph', hissued, hshow⟩ := hadv
      · exact ⟨aheadOf t, ha, .inl ⟨hofv', rfl⟩⟩
      · refine ⟨aheadOf s, ?_, .inr ⟨hph', hshow⟩⟩
        rw [show issued s t = [] from hissued, Ending.afterCalls_nil]
    · exact absurd hph hne

/-! Runs. -/

theorem core_run_succ_of_next {M : Host.Core} {n : Nat} {s t : M.State} (h : M.step s = .next t) :
    M.run (n + 1) s = M.run n t := by
  rw [Host.Core.run, h]

theorem core_run_succ_of_fault {M : Host.Core} {n : Nat} {s : M.State} {r : M.Fault} (h : M.step s = .fault r) :
    M.run (n + 1) s = .fault r := by
  rw [Host.Core.run, h]

theorem core_run_succ_of_refused {M : Host.Core} {n : Nat} {s : M.State} {r : M.Refusal} (h : M.step s = .refused r) :
    M.run (n + 1) s = .refused r := by
  rw [Host.Core.run, h]

theorem run_succ_of_next {n : Nat} (h : step s = .next t) : run (n + 1) s = run n t :=
  core_run_succ_of_next (M := Sys2Proof.core) h

theorem run_succ_of_fault {n : Nat} {r : Fault} (h : step s = .fault r) : run (n + 1) s = .fault r :=
  core_run_succ_of_fault (M := Sys2Proof.core) h

theorem run_succ_of_refused {n : Nat} {r : Refusal} (h : step s = .refused r) : run (n + 1) s = .refused r :=
  core_run_succ_of_refused (M := Sys2Proof.core) h

theorem requests_succ_of_next {n : Nat} (h : step s = .next t) : requests (n + 1) s = issued s t ++ requests n t := by
  rw [requests, h]

/-- A run that gives a state began with a step that does. -/
theorem run_succ_eq_next {n : Nat} (h : run (n + 1) s = .next t) : ∃ u, step s = .next u ∧ run n u = .next t := by
  cases hs : step s with
  | next u => exact ⟨u, rfl, (run_succ_of_next hs).symm.trans h⟩
  | fault r => cases (run_succ_of_fault hs).symm.trans h
  | refused r => cases (run_succ_of_refused hs).symm.trans h

/-- An undisturbed run keeps what it is heading for, but for the requests it issues. -/
theorem toward_run {e : Ending} (n : Nat) (h : Inv s) (hu : Undisturbed s) (ht : Toward e s) (hr : run n s = .next t) :
    Inv t ∧ ∃ e', e = e'.afterCalls (requests n s) ∧ Toward e' t := by
  induction n generalizing s e with
  | zero =>
    cases hr
    exact ⟨h, e, rfl, ht⟩
  | succ n ih =>
    obtain ⟨u, hs, hr⟩ := run_succ_eq_next hr
    obtain ⟨hu', e', rfl, ht'⟩ := toward_step h hu ht hs
    obtain ⟨hinv, e'', rfl, ht''⟩ := ih (invariantKept s u h hs) hu' ht' hr
    refine ⟨hinv, e'', ?_, ht''⟩
    rw [requests_succ_of_next hs, Ending.afterCalls_afterCalls]

/-- An undisturbed VERIFY that is complete shows the ending of its start, and has made its calls. -/
theorem run_of_verify {n : Nat} (h : Inv s) (hph : s.phase = .vLen) (hu : Undisturbed s) (hr : run n s = .next t)
    (hb : t.status.busy = false) :
    requests n s = (startEnding s.cfg s.a s.b s.c (inputsOf s)).calls ∧
      Shows { startEnding s.cfg s.a s.b s.c (inputsOf s) with calls := [] } t := by
  obtain ⟨hw, -⟩ := quiet_of_phaseCall h (phaseCall_of_phase (by rw [hph]; decide))
  have hstart : Toward (startEnding s.cfg s.a s.b s.c (inputsOf s)) s :=
    .inl ⟨by rw [hph]; rfl, (aheadOf_of_quiet hw).trans (endingOf_of_vLen hph)⟩
  obtain ⟨hinv, e, he, ⟨hofv, -⟩ | ⟨-, hshow⟩⟩ := toward_run n h hu hstart hr
  · rw [(busy_eq_false_iff hinv).mp hb] at hofv
    cases hofv
  · rw [he]
    obtain ⟨hnil, hrest⟩ := hshow
    exact ⟨by rw [Ending.afterCalls, hnil, List.append_nil], rfl, hrest⟩

/-- Settles O57: the ending of the start is the outcome of the source's function, by `startEnding_agrees`. -/
theorem verifyUnderAnyInterleaving : Obligations.VerifyUnderAnyInterleaving := by
  intro s t n h hph hreset hprog hr hb
  obtain ⟨hcalls, -, hdone, herr, hvalid, -⟩ := run_of_verify h hph ⟨hreset, hprog⟩ hr hb
  obtain ⟨hc, he, hv⟩ := startEnding_agrees s.cfg s.a s.b s.c (inputsOf s)
  exact ⟨hdone, herr.trans he, hvalid.trans hv, hcalls.trans hc⟩

/-! Which of VKX, TERM and NEGA an ending names. -/

/-- An ending past V_LCINIT: VKX is named, and NEGA where there is no error or V_PAIR raised it. -/
def Ending.PastInit (e : Ending) : Prop :=
  e.vkx.isSome = true ∧ (e.err = .none ∨ e.errinfo.extractLsb' 8 8 = (0x16 : Byte) → e.nega.isSome = true)

theorem extractLsb'_errinfoAt (ph : Phase) (idx : Byte) : (errinfoAt ph idx).extractLsb' 8 8 = ph.code := by
  rw [errinfoAt, BitVec.extractLsb'_append_eq_of_le (by decide)]
  exact BitVec.extractLsb'_append_eq_right

theorem pairEnding_pastInit (cfg : Config) (call : EngineCall) (idx : Byte) (vkx : G1) (term : Option G1) (nega : G1) :
    (pairEnding cfg call idx vkx term nega).PastInit := by
  rw [pairEnding]
  cases readBool (engineOf cfg call) <;> exact ⟨rfl, fun _ => rfl⟩

/-- An error of the loop's own phases asks for no NEGA. -/
theorem pastInit_of_error {calls : List EngineCall} {e : ErrorClass} {ph : Phase} {idx : Byte} {vkx : G1}
    {term nega : Option G1} (he : e ≠ .none) (hph : ph.code ≠ 0x16) :
    (Ending.mk calls e false (errinfoAt ph idx) (some vkx) term nega).PastInit := by
  refine ⟨rfl, fun h => ?_⟩
  obtain h | h := h
  · exact absurd h he
  · exact absurd ((extractLsb'_errinfoAt ph idx).symm.trans h) hph

theorem loopEnding_pastInit {cfg : Config} {last : Byte → G1 → Option G1 → Ending}
    (hlast : ∀ idx acc term, (last idx acc term).PastInit) (pairs : List (G1 × Field)) (idx : Byte) (acc : G1)
    (term : Option G1) : (loopEnding cfg last idx acc term pairs).PastInit := by
  induction pairs generalizing idx acc term with
  | nil => exact hlast idx acc term
  | cons pair rest ih =>
    obtain ⟨p, k⟩ := pair
    rw [loopEnding, smulEnding]
    cases hs : readPoint (engineOf cfg (smulCall p k)) with
    | error e => exact pastInit_of_error (readPoint_error hs) (by decide)
    | value t =>
      dsimp only
      rw [addEnding]
      cases ha : readPoint (engineOf cfg (addCall acc t)) with
      | error e => exact pastInit_of_error (readPoint_error ha) (by decide)
      | value acc' => exact ih _ acc' (some t)

/-- Once TERM is known it stays so. -/
theorem loopEnding_term {cfg : Config} {last : Byte → G1 → Option G1 → Ending}
    (hlast : ∀ idx acc t, (last idx acc (some t)).term.isSome = true) (pairs : List (G1 × Field)) (idx : Byte)
    (acc t : G1) : (loopEnding cfg last idx acc (some t) pairs).term.isSome = true := by
  induction pairs generalizing idx acc t with
  | nil => exact hlast idx acc t
  | cons pair rest ih =>
    obtain ⟨p, k⟩ := pair
    rw [loopEnding, smulEnding]
    cases readPoint (engineOf cfg (smulCall p k)) with
    | error e => rfl
    | value t' =>
      dsimp only
      rw [addEnding]
      cases readPoint (engineOf cfg (addCall acc t')) with
      | error e => rfl
      | value acc' => exact ih _ acc' t'

/-- With a first input TERM is known but where its scalar_mul failed. -/
theorem loopEnding_first_term {cfg : Config} {last : Byte → G1 → Option G1 → Ending}
    (hlast : ∀ idx acc t, (last idx acc (some t)).term.isSome = true) {pairs : List (G1 × Field)} (hne : pairs ≠ [])
    (acc : G1) : (loopEnding cfg last 0 acc none pairs).errinfo = 0x1300 ∨
      (loopEnding cfg last 0 acc none pairs).term.isSome = true := by
  cases pairs with
  | nil => exact absurd rfl hne
  | cons pair rest =>
    obtain ⟨p, k⟩ := pair
    rw [loopEnding, smulEnding]
    cases readPoint (engineOf cfg (smulCall p k)) with
    | error e => exact .inl (show errinfoAt .vSmul 0 = 0x1300 by decide)
    | value t =>
      dsimp only
      rw [addEnding]
      cases readPoint (engineOf cfg (addCall acc t)) with
      | error e => exact .inr rfl
      | value acc' => exact .inr (loopEnding_term hlast rest _ acc' t)

theorem pairEnding_term (cfg : Config) (call : EngineCall) (idx : Byte) (vkx : G1) (term : Option G1) (nega : G1) :
    (pairEnding cfg call idx vkx term nega).term = term := by
  rw [pairEnding]
  cases readBool (engineOf cfg call) <;> rfl

/-- What the ending of a start names of VKX, TERM and NEGA. -/
theorem startEnding_names (cfg : Config) (a : G1) (b : G2) (c : G1) (inputs : List Field) :
    let e := startEnding cfg a b c inputs
    (e.err ≠ .inputLengthMismatch → e.err ≠ .scalarFieldOverflow → e.vkx.isSome = true) ∧
    (e.err ≠ .inputLengthMismatch → e.err ≠ .scalarFieldOverflow → inputs ≠ [] → e.errinfo ≠ 0x1300 →
      e.term.isSome = true) ∧
    (e.err = .none ∨ e.errinfo.extractLsb' 8 8 = (0x16 : Byte) → e.nega.isSome = true) := by
  dsimp only
  rw [startEnding]
  split_ifs with hlen
  · refine ⟨fun h => absurd rfl h, fun h => absurd rfl h, fun h => ?_⟩
    obtain h | h := h
    · cases h
    · rw [extractLsb'_errinfoAt] at h
      cases h
  · obtain ⟨-, hnext⟩ | ⟨-, k, hk⟩ := rangeEnding_eq cfg (initEnding cfg a b c inputs) inputs 0
    · rw [hnext, initEnding]
      obtain ⟨hvkx, hnega⟩ := loopEnding_pastInit (cfg := cfg) (last := negEnding cfg a b c)
        (fun idx acc term => pairEnding_pastInit ..) (cfg.vk.ic.tail.zip inputs) 0 (cfg.vk.ic.headD ⟨0, 0⟩) none
      refine ⟨fun _ _ => hvkx, fun _ _ hin hinfo => ?_, hnega⟩
      have hne : cfg.vk.ic.tail.zip inputs ≠ [] := by
        intro hz
        have hl := congrArg List.length hz
        have hpos := List.length_pos_iff.mpr hin
        rw [List.length_zip, List.length_tail, List.length_nil] at hl
        omega
      exact (loopEnding_first_term (fun idx acc t => by rw [negEnding, pairEnding_term]; rfl) hne _).resolve_left hinfo
    · rw [hk]
      refine ⟨fun _ h => absurd rfl h, fun _ h => absurd rfl h, fun h => ?_⟩
      obtain h | h := h
      · cases h
      · rw [extractLsb'_errinfoAt] at h
        cases h

/-- Two values of a register that an ending names are the same. -/
theorem eq_of_isSome {o : Option G1} {x y : G1} (h : o.isSome = true) (hx : ∀ p, o = some p → x = p)
    (hy : ∀ p, o = some p → y = p) : x = y := by
  obtain ⟨p, hp⟩ := Option.isSome_iff_exists.mp h
  rw [hx p hp, hy p hp]

/-- Settles O58: both runs show the one ending their operands give, and where `startEnding_names` a register they hold it
alike. -/
theorem outcomeDependsOnOperandsOnly : Obligations.OutcomeDependsOnOperandsOnly := by
  intro s s' t t' n n' h h' hph hph' hcfg ha hb hc hin hreset hreset' hprog hprog' hr hr' hbusy hbusy'
  obtain ⟨hcalls, -, -, herr, hvalid, hinfo, hvkx, hterm, hnega⟩ := run_of_verify h hph ⟨hreset, hprog⟩ hr hbusy
  obtain ⟨hcalls', -, -, herr', hvalid', hinfo', hvkx', hterm', hnega'⟩ :=
    run_of_verify h' hph' ⟨hreset', hprog'⟩ hr' hbusy'
  rw [← hcfg, ← ha, ← hb, ← hc, ← hin] at hcalls' herr' hvalid' hinfo' hvkx' hterm' hnega'
  obtain ⟨nvkx, nterm, nnega⟩ := startEnding_names s.cfg s.a s.b s.c (inputsOf s)
  refine ⟨herr.trans herr'.symm, hinfo.trans hinfo'.symm, hvalid.trans hvalid'.symm, hcalls.trans hcalls'.symm,
    fun h1 h2 => ?_, fun h1 h2 hpos h3 => ?_, fun h1 => ?_⟩
  · rw [herr] at h1 h2
    exact eq_of_isSome (nvkx h1 h2) hvkx hvkx'
  · rw [herr] at h1 h2
    rw [hinfo] at h3
    have hne : inputsOf s ≠ [] := List.length_pos_iff.mp (by rwa [length_inputsOf])
    exact eq_of_isSome (nterm h1 h2 hne h3) hterm hterm'
  · rw [herr, hinfo] at h1
    exact eq_of_isSome (nnega h1) hnega hnega'

end

end Sys2Proof.Machine

/-! PROOFS of the statements about whose step comes next (43_verifier.md R226, 42_engine_interface.md R190), about the
number of steps of a VERIFY (70_reset_and_hazards.md R322), and about an engine that never answers (R320). -/

namespace Sys2Proof.Machine

section

variable {s t : State}

/-- A turn in the list is taken off it and acted on. -/
theorem step_of_cons {u : Turn} {ts : List Turn} (h : s.turns = u :: ts) : step s = act u { s with turns := ts } := by
  rw [step, agentStep, h]

/-- With an empty list of turns the agents move in the order of log 9. -/
theorem step_of_nil (h : s.turns = []) : step s = act (idleTurn s) s := by
  rw [step, agentStep, h]

theorem sequencerEnabled_of (hb : s.status.busy = true) (hph : s.phase ≠ .idle)
    (hw : ¬ (s.status.waiteng = true ∧ s.rspValid = false)) : sequencerEnabled s = true := by
  rw [sequencerEnabled, hb, decide_eq_false hph]
  cases h1 : s.status.waiteng <;> cases h2 : s.rspValid <;> simp_all

theorem act_sequencer (h : sequencerEnabled s = true) : act .sequencer s = runPhase (tick s) := if_pos h

/-- The sequencer goes first (log 9). -/
theorem step_of_sequencerEnabled (hturns : s.turns = []) (h : sequencerEnabled s = true) :
    step s = runPhase (tick s) := by
  rw [step_of_nil hturns, idleTurn, if_pos h, act_sequencer h]

/-- A request without an answer, and an engine that answers: the engine moves and the sequencer does not. -/
theorem engineMoves_of_waiting (hw : s.status.waiteng = true) (hv : s.rspValid = false)
    (ha : s.cfg.engineAnswers = true) : sequencerEnabled s = false ∧ engineMoves s = true := by
  simp [sequencerEnabled, engineMoves, engineEnabled, hw, hv, ha]

theorem act_engine (h : engineMoves s = true) : act .engine s = runEngine (tick s) := if_pos h

theorem step_of_waiting (hturns : s.turns = []) (hw : s.status.waiteng = true) (hv : s.rspValid = false)
    (ha : s.cfg.engineAnswers = true) : step s = runEngine (tick s) := by
  obtain ⟨hseq, heng⟩ := engineMoves_of_waiting hw hv ha
  rw [step_of_nil hturns, idleTurn, hseq, if_neg (by decide), if_pos heng, act_engine heng]

theorem runEngine_of_decode {i : Instr} (h : decode [s.reqSel] = .instr i) : runEngine s = exec i s := by
  rw [runEngine, h]

/-- Settles O36: the agent whose step it is runs what it decodes, whether its turn is listed or it is next by log 9. -/
theorem stepRunsDecoded : Obligations.StepRunsDecoded := by
  refine ⟨fun s i hb hph hw hd => ?_, fun s hb hofv hw => ?_, fun s i hw hv ha hd => ?_⟩
  · have hen := sequencerEnabled_of hb (by rw [hph]; decide) hw
    refine ⟨fun hts => ?_, fun ts hts => ?_⟩
    · rw [step_of_sequencerEnabled hts hen]
      exact runPhase_of_exec (s := tick s) hph hd
    · rw [step_of_cons hts, act_sequencer (s := { s with turns := ts }) hen]
      exact runPhase_of_exec (s := tick { s with turns := ts }) hph hd
  · have hen := sequencerEnabled_of hb (fun hi => by rw [hi] at hofv; cases hofv) hw
    refine ⟨fun hts => ?_, fun ts hts => ?_⟩
    · rw [step_of_sequencerEnabled hts hen]
      exact runPhase_of_ofVerify (s := tick s) hofv
    · rw [step_of_cons hts, act_sequencer (s := { s with turns := ts }) hen]
      exact runPhase_of_ofVerify (s := tick { s with turns := ts }) hofv
  · refine ⟨fun hts => ?_, fun ts hts => ?_⟩
    · rw [step_of_waiting hts hw hv ha]
      exact runEngine_of_decode (s := tick s) hd
    · obtain ⟨-, heng⟩ := engineMoves_of_waiting hw hv ha
      rw [step_of_cons hts, act_engine (s := { s with turns := ts }) heng]
      exact runEngine_of_decode (s := tick { s with turns := ts }) hd

/-! How many steps are left. -/

/-- How far a request is: not issued, issued, answered. -/
def requestStage (s : State) : Nat := if s.status.waiteng then (if s.rspValid then 2 else 1) else 0

/-- The steps that a VERIFY without an error still takes: one for each input in V_RANGE, six for each pair, and the rest
(70_reset_and_hazards.md R322). -/
def stepsLeft (s : State) : Nat :=
  match s.phase with
  | .vLen => 7 * s.npub.toNat + 7
  | .vRange => s.npub.toNat - s.idx.toNat + (6 * s.npub.toNat + 6)
  | .vLcinit => 6 * s.npub.toNat + 5
  | .vSmul => 6 * (s.npub.toNat - s.idx.toNat) + 4 - requestStage s
  | .vAdd => 6 * (s.npub.toNat - s.idx.toNat) + 1 - requestStage s
  | .vNeg => 4
  | .vPair => 3 - requestStage s
  | .idle => 0
  | .exec => 0

theorem requestStage_of_quiet (h : s.status.waiteng = false) : requestStage s = 0 := by
  simp [requestStage, h]

theorem requestStage_of_waiting (hw : s.status.waiteng = true) (hv : s.rspValid = false) : requestStage s = 1 := by
  simp [requestStage, hw, hv]

theorem requestStage_of_answered (hw : s.status.waiteng = true) (hv : s.rspValid = true) : requestStage s = 2 := by
  simp [requestStage, hw, hv]

/-- A step of VERIFY with an action makes the steps that are left one fewer, or ends the run: with an error, or as the
last one. -/
def Shortens (s t : State) : Prop :=
  (t.phase.ofVerify = true ∧ stepsLeft t + 1 = stepsLeft s) ∨
    (t.phase = .idle ∧ (t.status.err = .none → stepsLeft s = 1))

theorem shortens_raiseHere {e : ErrorClass} (he : e ≠ .none) : Shortens s (raiseHere e s) :=
  .inr ⟨rfl, fun h => absurd h he⟩

theorem stepsLeft_of_vLen (h : s.phase = .vLen) : stepsLeft s = 7 * s.npub.toNat + 7 := by rw [stepsLeft, h]

theorem stepsLeft_of_vLcinit (h : s.phase = .vLcinit) : stepsLeft s = 6 * s.npub.toNat + 5 := by rw [stepsLeft, h]

theorem stepsLeft_of_vNeg (h : s.phase = .vNeg) : stepsLeft s = 4 := by rw [stepsLeft, h]

theorem stepsLeft_of_vSmul (h : s.phase = .vSmul) :
    stepsLeft s = 6 * (s.npub.toNat - s.idx.toNat) + 4 - requestStage s := by rw [stepsLeft, h]

theorem stepsLeft_of_vAdd (h : s.phase = .vAdd) :
    stepsLeft s = 6 * (s.npub.toNat - s.idx.toNat) + 1 - requestStage s := by rw [stepsLeft, h]

theorem stepsLeft_of_vPair (h : s.phase = .vPair) : stepsLeft s = 3 - requestStage s := by rw [stepsLeft, h]

theorem stepsLeft_of_vRange (h : s.phase = .vRange) :
    stepsLeft s = s.npub.toNat - s.idx.toNat + (6 * s.npub.toNat + 6) := by rw [stepsLeft, h]

theorem shortens_phaseLen (hph : s.phase = .vLen) (he : phaseLen s = .next t) : Shortens s t := by
  obtain ⟨-, ⟨-, rfl⟩ | ⟨-, rfl⟩⟩ := phaseLen_cases he
  · exact shortens_raiseHere (by decide)
  · refine .inl ⟨rfl, ?_⟩
    rw [stepsLeft_of_vRange rfl, stepsLeft_of_vLen hph]
    show s.npub.toNat - 0 + (6 * s.npub.toNat + 6) + 1 = _
    omega

theorem shortens_phaseRange (h : Inv s) (hph : s.phase = .vRange) (he : phaseRange s = .next t) : Shortens s t := by
  obtain ⟨-, ⟨hnpub, -⟩, -, -, -, ⟨-, hrange, -⟩, -⟩ := id h
  obtain ⟨hle, -⟩ := hrange hph
  obtain ⟨heq, rfl⟩ | ⟨hne, -, -, ⟨-, rfl⟩ | ⟨-, rfl⟩⟩ := phaseRange_cases he
  · refine .inl ⟨rfl, ?_⟩
    rw [stepsLeft_of_vRange hph, stepsLeft_of_vLcinit rfl]
    dsimp only
    omega
  · exact shortens_raiseHere (by decide)
  · have hsucc := toNat_idx_succ s.idx s.npub.toNat (by omega) hnpub
    refine .inl ⟨by rw [hph]; rfl, ?_⟩
    rw [stepsLeft_of_vRange hph, stepsLeft_of_vRange (s := { s with idx := s.idx + 1 }) hph]
    dsimp only
    omega

theorem shortens_phaseLcinit (h : Inv s) (hph : s.phase = .vLcinit) (he : phaseLcinit s = .next t) : Shortens s t := by
  obtain ⟨hw, -⟩ := quiet_of_phaseCall h (phaseCall_of_phase (by rw [hph]; decide))
  obtain ⟨p, -, rfl⟩ := phaseLcinit_cases he
  have hstage : ∀ ph, requestStage { setVkx p s with idx := 0, phase := ph } = 0 := fun _ => requestStage_of_quiet hw
  by_cases hn : s.npub.toNat > 0
  · simp only [hn, if_true]
    refine .inl ⟨rfl, ?_⟩
    rw [stepsLeft_of_vLcinit hph, stepsLeft_of_vSmul rfl, hstage]
    show 6 * (s.npub.toNat - 0) + 4 - 0 + 1 = _
    omega
  · simp only [hn, if_false]
    refine .inl ⟨rfl, ?_⟩
    rw [stepsLeft_of_vLcinit hph, stepsLeft_of_vNeg rfl]
    omega

theorem shortens_phaseSmul (h : Inv s) (hph : s.phase = .vSmul) (hen : ¬ (s.status.waiteng = true ∧ s.rspValid = false))
    (he : enginePhase issueSmul consumeSmul s = .next t) : Shortens s t := by
  obtain ⟨-, -, -, -, -, ⟨-, -, hidx, -⟩, -⟩ := id h
  have hlt := hidx (.inl hph)
  obtain ⟨hw, hi⟩ | ⟨hw, hv, -⟩ | ⟨hw, hv, hc⟩ := enginePhase_cases he
  · obtain ⟨-, -, p, -, rfl⟩ := issueSmul_cases hi
    refine .inl ⟨by rw [issueRequest_phase, hph]; rfl, ?_⟩
    rw [stepsLeft_of_vSmul hph, stepsLeft_of_vSmul (by rw [issueRequest_phase, hph]), requestStage_of_quiet hw,
      requestStage_of_waiting rfl rfl, issueRequest_npub, issueRequest_idx]
    omega
  · exact absurd ⟨hw, hv⟩ hen
  · obtain ⟨e, hr, rfl⟩ | ⟨p, -, rfl⟩ := consumeSmul_cases hc
    · exact shortens_raiseHere (readPoint_error hr)
    · refine .inl ⟨rfl, ?_⟩
      rw [stepsLeft_of_vSmul hph, stepsLeft_of_vAdd rfl, requestStage_of_answered hw hv, requestStage_of_quiet rfl]
      show 6 * (s.npub.toNat - s.idx.toNat) + 1 - 0 + 1 = _
      omega

theorem shortens_phaseAdd (h : Inv s) (hph : s.phase = .vAdd) (hen : ¬ (s.status.waiteng = true ∧ s.rspValid = false))
    (he : enginePhase issueAdd consumeAdd s = .next t) : Shortens s t := by
  obtain ⟨-, ⟨hnpub, -⟩, -, -, -, ⟨-, -, hidx, -⟩, -⟩ := id h
  have hlt := hidx (.inr hph)
  obtain ⟨hw, hi⟩ | ⟨hw, hv, -⟩ | ⟨hw, hv, hc⟩ := enginePhase_cases he
  · obtain ⟨-, rfl⟩ := issueAdd_cases hi
    refine .inl ⟨by rw [issueRequest_phase, hph]; rfl, ?_⟩
    rw [stepsLeft_of_vAdd hph, stepsLeft_of_vAdd (by rw [issueRequest_phase, hph]), requestStage_of_quiet hw,
      requestStage_of_waiting rfl rfl, issueRequest_npub, issueRequest_idx]
    omega
  · exact absurd ⟨hw, hv⟩ hen
  · obtain ⟨e, hr, rfl⟩ | ⟨p, -, ⟨hmore, rfl⟩ | ⟨hlast, rfl⟩⟩ := consumeAdd_cases hc
    · exact shortens_raiseHere (readPoint_error hr)
    · have hsucc := toNat_idx_succ s.idx s.npub.toNat hlt hnpub
      refine .inl ⟨rfl, ?_⟩
      rw [stepsLeft_of_vAdd hph, stepsLeft_of_vSmul rfl, requestStage_of_answered hw hv, requestStage_of_quiet rfl]
      show 6 * (s.npub.toNat - (s.idx + 1).toNat) + 4 - 0 + 1 = _
      omega
    · refine .inl ⟨rfl, ?_⟩
      rw [stepsLeft_of_vAdd hph, requestStage_of_answered hw hv]
      show 4 + 1 = _
      omega

theorem shortens_phaseNeg (h : Inv s) (hph : s.phase = .vNeg) (he : phaseNeg s = .next t) : Shortens s t := by
  obtain ⟨hw, -⟩ := quiet_of_phaseCall h (phaseCall_of_phase (by rw [hph]; decide))
  obtain ⟨-, rfl⟩ := phaseNeg_cases he
  refine .inl ⟨rfl, ?_⟩
  rw [stepsLeft_of_vPair rfl, requestStage_of_quiet (by exact hw), stepsLeft_of_vNeg hph]

theorem shortens_phasePair (hph : s.phase = .vPair) (hen : ¬ (s.status.waiteng = true ∧ s.rspValid = false))
    (he : enginePhase issuePair consumePair s = .next t) : Shortens s t := by
  obtain ⟨hw, hi⟩ | ⟨hw, hv, -⟩ | ⟨hw, hv, hc⟩ := enginePhase_cases he
  · obtain ⟨-, rfl⟩ := issuePair_cases hi
    refine .inl ⟨by rw [issueRequest_phase, hph]; rfl, ?_⟩
    rw [stepsLeft_of_vPair hph, stepsLeft_of_vPair (by rw [issueRequest_phase, hph]), requestStage_of_quiet hw,
      requestStage_of_waiting rfl rfl]
  · exact absurd ⟨hw, hv⟩ hen
  · obtain ⟨e, hr, rfl⟩ | ⟨ok, -, rfl⟩ := consumePair_cases hc
    · exact shortens_raiseHere (readBool_error hr)
    · exact .inr ⟨rfl, fun _ => by rw [stepsLeft_of_vPair hph, requestStage_of_answered hw hv]⟩

/-- Every step of VERIFY with an action shortens the run. -/
theorem shortens_exec_verify (h : Inv s) (hen : ¬ (s.status.waiteng = true ∧ s.rspValid = false))
    (he : exec .verify s = .next t) : Shortens s t := by
  cases hph : s.phase with
  | idle | exec =>
    rw [exec_verify_of_not_ofVerify (by rw [hph]; rfl)] at he
    cases he
  | vLen => exact shortens_phaseLen hph (exec_verify_of_vLen hph ▸ he)
  | vRange => exact shortens_phaseRange h hph (exec_verify_of_vRange hph ▸ he)
  | vLcinit => exact shortens_phaseLcinit h hph (exec_verify_of_vLcinit hph ▸ he)
  | vSmul => exact shortens_phaseSmul h hph hen (exec_verify_of_vSmul hph ▸ he)
  | vAdd => exact shortens_phaseAdd h hph hen (exec_verify_of_vAdd hph ▸ he)
  | vNeg => exact shortens_phaseNeg h hph (exec_verify_of_vNeg hph ▸ he)
  | vPair => exact shortens_phasePair hph hen (exec_verify_of_vPair hph ▸ he)

end

end Sys2Proof.Machine

/-! A VERIFY whose only company is an engine that answers: how it ends with written operands and without. -/

namespace Sys2Proof.Machine

/-- No turn is listed, the host has nothing to do, and the engine answers: the agents move in the order of log 9. -/
def Alone (s : State) : Prop := s.turns = [] ∧ s.hostProg = [] ∧ s.cfg.engineAnswers = true

/-- The operands that the phases up to here have found written (43_verifier.md R223). -/
def Seen (s : State) : Prop :=
  (s.phase.pastLength = true → bytesWritten s .npub 0 4) ∧
    (s.phase = .vRange → bytesWritten s .pub 0 (32 * s.idx.toNat)) ∧
    (s.phase.pastRange = true → bytesWritten s .pub 0 (32 * s.npub.toNat)) ∧
    (s.phase = .vPair → bytesWritten s .a 0 64) ∧
    (s.phase = .vPair → s.status.waiteng = true → bytesWritten s .b 0 128 ∧ bytesWritten s .c 0 64)

section

variable {s t : State}

theorem bytesWritten_of_ownMarks {r : Reg} {k n : Nat} (h : OwnMarks s t) (hw : bytesWritten s r k n) :
    bytesWritten t r k n := by
  refine bytesWritten_mono (fun o ho => ?_) hw
  obtain hs | ⟨-, -, h1⟩ := h o
  · rw [hs, ho]
  · exact h1

/-- Outside VKX, TERM and NEGA what was not written is still not. -/
theorem bytesWritten_of_ownMarks_outside {r : Reg} {k n : Nat} (h : OwnMarks s t)
    (hr : r.base + k + n ≤ 0x0140 ∨ 0x0200 ≤ r.base + k) (hw : bytesWritten t r k n) : bytesWritten s r k n := by
  intro o h1 h2
  obtain hs | ⟨hlo, hhi, -⟩ := h o
  · rw [← hs]
    exact hw o h1 h2
  · omega

/-- A step of VERIFY leaves it open whether VERIFY's operands are written. -/
theorem operandsWritten_of_ownMarks (h : OwnMarks s t) (hw : operandsWritten t (verifyReads s)) :
    operandsWritten s (verifyReads s) := by
  intro o ho
  refine bytesWritten_of_ownMarks_outside h ?_ (hw o ho)
  simp only [verifyReads, List.mem_cons, List.not_mem_nil, or_false] at ho
  obtain rfl | rfl | rfl | rfl | rfl := ho
  case inr.inr.inr.inr => exact .inr (by simp [Reg.base])
  all_goals exact .inl (by simp [Reg.base])

theorem operandsWritten_verifyReads_iff (s : State) :
    operandsWritten s (verifyReads s) ↔ bytesWritten s .npub 0 4 ∧ bytesWritten s .a 0 64 ∧ bytesWritten s .b 0 128 ∧
      bytesWritten s .c 0 64 ∧ bytesWritten s .pub 0 (32 * s.npub.toNat) := by
  simp [operandsWritten, verifyReads]

theorem operandsWritten_singleton (o : Operand) : operandsWritten s [o] ↔ bytesWritten s o.reg o.first o.len := by
  simp [operandsWritten]

/-- Two parts of a register that meet. -/
theorem bytesWritten_append {r : Reg} {m n : Nat} (h : bytesWritten s r 0 m) (h' : bytesWritten s r m n) :
    bytesWritten s r 0 (m + n) := by
  intro o h1 h2
  by_cases hm : o < r.base + 0 + m
  · exact h o h1 hm
  · exact h' o (by omega) (by omega)

/-- What a step of VERIFY lets its state find written: the operands of the phases it has left, and at an end without an
error all of them. -/
def SeesAll (s t : State) : Prop :=
  (t.phase.ofVerify = true → Seen t) ∧ (t.phase = .idle → t.status.err = .none → operandsWritten s (verifyReads s))

theorem seesAll_raiseHere {e : ErrorClass} (he : e ≠ .none) : SeesAll s (raiseHere e s) :=
  ⟨fun hv => (by cases hv), fun _ herr => absurd herr he⟩

/-- No step: the state goes on having seen what it has. -/
theorem seesAll_self (hs : Seen s) (hph : s.phase ≠ .idle) : SeesAll s s := ⟨fun _ => hs, fun hi => absurd hi hph⟩

/-- Past the range check a step keeps what was seen, and in V_PAIR without a request A is new. -/
theorem seesAll_pastRange (hs : Seen s) (hmarks : OwnMarks s t) (hpast : s.phase.pastRange = true)
    (hpast' : t.phase.pastRange = true) (hnpub : t.npub = s.npub) (ha : t.phase = .vPair → bytesWritten t .a 0 64)
    (hw : t.phase = .vPair → t.status.waiteng = false) : SeesAll s t := by
  obtain ⟨hlen, -, hpub, -, -⟩ := hs
  have hlen' : s.phase.pastLength = true := by
    rw [Phase.pastRange, Bool.and_eq_true] at hpast
    obtain ⟨h, -⟩ := hpast
    exact h
  refine ⟨fun _ => ⟨fun _ => bytesWritten_of_ownMarks hmarks (hlen hlen'), fun hr => ?_, fun _ => ?_, ha,
    fun hp hw' => ?_⟩, fun hi => ?_⟩
  · rw [hr] at hpast'
    cases hpast'
  · rw [hnpub]
    exact bytesWritten_of_ownMarks hmarks (hpub hpast)
  · rw [hw hp] at hw'
    cases hw'
  · rw [hi] at hpast'
    cases hpast'

/-- The same for a step into a phase before V_PAIR. -/
theorem seesAll_loop (hs : Seen s) (hmarks : OwnMarks s t) (hpast : s.phase.pastRange = true)
    (hph : t.phase ∈ [Phase.vSmul, .vAdd, .vNeg]) (hnpub : t.npub = s.npub) : SeesAll s t := by
  have hpast' : t.phase.pastRange = true ∧ t.phase ≠ .vPair := by
    simp only [List.mem_cons, List.not_mem_nil, or_false] at hph
    obtain h | h | h := hph <;> rw [h] <;> exact ⟨rfl, by decide⟩
  obtain ⟨hpast', hne⟩ := hpast'
  exact seesAll_pastRange hs hmarks hpast hpast' hnpub (fun hp => absurd hp hne) fun hp => absurd hp hne

theorem seesAll_phaseLen (he : phaseLen s = .next t) : SeesAll s t := by
  obtain ⟨hw, ⟨-, rfl⟩ | ⟨-, rfl⟩⟩ := phaseLen_cases he
  · exact seesAll_raiseHere (by decide)
  · refine ⟨fun _ => ⟨fun _ => (operandsWritten_singleton _).mp hw, fun _ o h1 h2 => ?_, ?_, ?_, ?_⟩, ?_⟩
    · exact absurd (h1.trans_lt h2) (Nat.lt_irrefl _)
    all_goals exact fun hp => by cases hp

theorem seesAll_phaseRange (h : Inv s) (hs : Seen s) (hph : s.phase = .vRange) (he : phaseRange s = .next t) :
    SeesAll s t := by
  obtain ⟨-, ⟨hnpub, -⟩, -, -, -, ⟨-, hrange, -⟩, -⟩ := id h
  obtain ⟨hle, -⟩ := hrange hph
  obtain ⟨hlen, hpart, -⟩ := id hs
  have hpart := hpart hph
  have hlen := hlen (by rw [hph]; rfl)
  obtain ⟨heq, rfl⟩ | ⟨hne, -, hw, ⟨-, rfl⟩ | ⟨-, rfl⟩⟩ := phaseRange_cases he
  · rw [heq] at hpart
    refine ⟨fun _ => ⟨fun _ => hlen, ?_, fun _ => hpart, ?_, ?_⟩, ?_⟩
    all_goals exact fun hp => by cases hp
  · exact seesAll_raiseHere (by decide)
  · have hsucc := toNat_idx_succ s.idx s.npub.toNat (by omega) hnpub
    have hnext : bytesWritten s .pub 0 (32 * s.idx.toNat + 32) :=
      bytesWritten_append hpart ((operandsWritten_singleton _).mp hw)
    refine ⟨fun _ => ⟨fun _ => hlen, fun _ => ?_, ?_, ?_, ?_⟩, ?_⟩
    · show bytesWritten s .pub 0 (32 * (s.idx + 1).toNat)
      rw [hsucc]
      exact hnext
    all_goals
      dsimp only
      rw [hph]
      exact fun hp => by cases hp

theorem seesAll_phaseLcinit (hs : Seen s) (hmarks : OwnMarks s t) (hph : s.phase = .vLcinit)
    (he : phaseLcinit s = .next t) : SeesAll s t := by
  obtain ⟨p, -, rfl⟩ := phaseLcinit_cases he
  refine seesAll_loop hs hmarks (by rw [hph]; rfl) ?_ rfl
  dsimp only
  split_ifs <;> decide

theorem seesAll_phaseSmul (hs : Seen s) (hmarks : OwnMarks s t) (hph : s.phase = .vSmul)
    (he : enginePhase issueSmul consumeSmul s = .next t) : SeesAll s t := by
  have hpast : s.phase.pastRange = true := by rw [hph]; rfl
  obtain ⟨-, hi⟩ | ⟨-, -, rfl⟩ | ⟨-, -, hc⟩ := enginePhase_cases he
  · obtain ⟨-, -, p, -, rfl⟩ := issueSmul_cases hi
    exact seesAll_loop hs hmarks hpast (by rw [issueRequest_phase, hph]; decide) rfl
  · exact seesAll_self hs (by rw [hph]; decide)
  · obtain ⟨e, hr, rfl⟩ | ⟨p, -, rfl⟩ := consumeSmul_cases hc
    · exact seesAll_raiseHere (readPoint_error hr)
    · exact seesAll_loop hs hmarks hpast (by simp) rfl

theorem seesAll_phaseAdd (hs : Seen s) (hmarks : OwnMarks s t) (hph : s.phase = .vAdd)
    (he : enginePhase issueAdd consumeAdd s = .next t) : SeesAll s t := by
  have hpast : s.phase.pastRange = true := by rw [hph]; rfl
  obtain ⟨-, hi⟩ | ⟨-, -, rfl⟩ | ⟨-, -, hc⟩ := enginePhase_cases he
  · obtain ⟨-, rfl⟩ := issueAdd_cases hi
    exact seesAll_loop hs hmarks hpast (by rw [issueRequest_phase, hph]; decide) rfl
  · exact seesAll_self hs (by rw [hph]; decide)
  · obtain ⟨e, hr, rfl⟩ | ⟨p, -, ⟨-, rfl⟩ | ⟨-, rfl⟩⟩ := consumeAdd_cases hc
    · exact seesAll_raiseHere (readPoint_error hr)
    · exact seesAll_loop hs hmarks hpast (by simp) rfl
    · exact seesAll_loop hs hmarks hpast (by simp) rfl

theorem seesAll_phaseNeg (h : Inv s) (hs : Seen s) (hmarks : OwnMarks s t) (hph : s.phase = .vNeg)
    (he : phaseNeg s = .next t) : SeesAll s t := by
  obtain ⟨hquiet, -⟩ := quiet_of_phaseCall h (phaseCall_of_phase (by rw [hph]; decide))
  obtain ⟨hw, rfl⟩ := phaseNeg_cases he
  exact seesAll_pastRange hs hmarks (by rw [hph]; rfl) rfl rfl
    (fun _ => bytesWritten_of_ownMarks hmarks ((operandsWritten_singleton _).mp hw)) fun _ => hquiet

theorem seesAll_phasePair (hs : Seen s) (hph : s.phase = .vPair) (he : enginePhase issuePair consumePair s = .next t) :
    SeesAll s t := by
  obtain ⟨hlen, hpart, hpub, ha, hbc⟩ := id hs
  obtain ⟨-, hi⟩ | ⟨-, -, rfl⟩ | ⟨hw, -, hc⟩ := enginePhase_cases he
  · obtain ⟨hw, rfl⟩ := issuePair_cases hi
    exact ⟨fun _ => ⟨hlen, hpart, hpub, ha, fun _ _ =>
      ⟨hw ⟨.b, 0, 128⟩ (by simp [pairReads]), hw ⟨.c, 0, 64⟩ (by simp [pairReads])⟩⟩,
      fun hi => by rw [issueRequest_phase, hph] at hi; cases hi⟩
  · exact seesAll_self hs (by rw [hph]; decide)
  · obtain ⟨e, hr, rfl⟩ | ⟨ok, -, rfl⟩ := consumePair_cases hc
    · exact seesAll_raiseHere (readBool_error hr)
    · obtain ⟨hb, hc⟩ := hbc hph hw
      exact ⟨fun hv => (by cases hv), fun _ _ => (operandsWritten_verifyReads_iff s).mpr
        ⟨hlen (by rw [hph]; rfl), ha hph, hb, hc, hpub (by rw [hph]; rfl)⟩⟩

/-- Every step of VERIFY finds the operands of its phase written. -/
theorem seen_exec_verify (h : Inv s) (hs : Seen s) (he : exec .verify s = .next t) : SeesAll s t := by
  obtain ⟨-, hmarks⟩ := exec_verify_frame he
  cases hph : s.phase with
  | idle | exec =>
    rw [exec_verify_of_not_ofVerify (by rw [hph]; rfl)] at he
    cases he
  | vLen => exact seesAll_phaseLen (exec_verify_of_vLen hph ▸ he)
  | vRange => exact seesAll_phaseRange h hs hph (exec_verify_of_vRange hph ▸ he)
  | vLcinit => exact seesAll_phaseLcinit hs hmarks hph (exec_verify_of_vLcinit hph ▸ he)
  | vSmul => exact seesAll_phaseSmul hs hmarks hph (exec_verify_of_vSmul hph ▸ he)
  | vAdd => exact seesAll_phaseAdd hs hmarks hph (exec_verify_of_vAdd hph ▸ he)
  | vNeg => exact seesAll_phaseNeg h hs hmarks hph (exec_verify_of_vNeg hph ▸ he)
  | vPair => exact seesAll_phasePair hs hph (exec_verify_of_vPair hph ▸ he)

end

end Sys2Proof.Machine

/-! The runs of a VERIFY alone with its engine, and the hang of one whose engine does not answer. -/

namespace Sys2Proof.Machine

section

variable {s t : State}

theorem undisturbed_of_alone (h : Alone s) : Undisturbed s := by
  obtain ⟨hturns, hprog, -⟩ := h
  rw [Undisturbed, hturns, hprog]
  exact ⟨List.not_mem_nil, rfl⟩

/-- The step of a VERIFY alone with its engine: the engine's while it is asked, and otherwise the sequencer's. -/
theorem step_of_alone (h : Inv s) (ha : Alone s) (hofv : s.phase.ofVerify = true) :
    (s.status.waiteng = true ∧ s.rspValid = false ∧ step s = .next (answerRequest s.reqSel (tick s))) ∨
    (¬ (s.status.waiteng = true ∧ s.rspValid = false) ∧ step s = exec .verify (tick s)) := by
  obtain ⟨hturns, -, hans⟩ := ha
  by_cases hw : s.status.waiteng = true ∧ s.rspValid = false
  · refine .inl ⟨hw.1, hw.2, ?_⟩
    rw [step_of_waiting hturns hw.1 hw.2 hans, runEngine_eq]
    rfl
  · obtain ⟨-, hseq, -⟩ := stepRunsDecoded
    obtain ⟨hb, -⟩ := running_of_inv h (fun hi => by rw [hi] at hofv; cases hofv)
    exact .inr ⟨hw, (hseq s hb hofv hw).1 hturns⟩

/-- The answer to an outstanding request. -/
theorem answerRequest_of_waiting (hw : s.status.waiteng = true) (hv : s.rspValid = false) (sel : Byte) :
    answerRequest sel s = { s with rsp := engineOf s.cfg ⟨sel, s.reqPayload⟩, rspValid := true } := by
  rw [answerRequest, engineEnabled, hw, hv]
  rfl

/-- The engine's answer is one of the steps that are left. -/
theorem shortens_of_answered (h : Inv s) (hofv : s.phase.ofVerify = true) (hw : s.status.waiteng = true)
    (hv : s.rspValid = false) (hph' : t.phase = s.phase) (hidx' : t.idx = s.idx) (hnpub' : t.npub = s.npub)
    (hw' : t.status.waiteng = true) (hv' : t.rspValid = true) : Shortens s t := by
  obtain ⟨-, -, -, -, -, ⟨-, -, hidx, -⟩, -, hcall, -⟩ := h
  refine .inl ⟨by rw [hph', hofv], ?_⟩
  cases hph : s.phase with
  | vSmul =>
    have hlt := hidx (.inl hph)
    rw [stepsLeft_of_vSmul hph, stepsLeft_of_vSmul (hph'.trans hph), requestStage_of_waiting hw hv,
      requestStage_of_answered hw' hv', hidx', hnpub']
    omega
  | vAdd =>
    have hlt := hidx (.inr hph)
    rw [stepsLeft_of_vAdd hph, stepsLeft_of_vAdd (hph'.trans hph), requestStage_of_waiting hw hv,
      requestStage_of_answered hw' hv', hidx', hnpub']
    omega
  | vPair =>
    rw [stepsLeft_of_vPair hph, stepsLeft_of_vPair (hph'.trans hph), requestStage_of_waiting hw hv,
      requestStage_of_answered hw' hv']
  | _ =>
    have := hcall hw
    rw [phaseCall_of_phase (by rw [hph]; decide)] at this
    cases this

/-- What a step of a VERIFY alone with its engine keeps, and that it shortens the run. -/
theorem next_of_alone (h : Inv s) (ha : Alone s) (hofv : s.phase.ofVerify = true) (he : step s = .next t) :
    Alone t ∧ Shortens s t ∧ OwnMarks s t ∧ verifyReads t = verifyReads s ∧
      (Seen s → (t.phase.ofVerify = true → Seen t) ∧
        (t.phase = .idle → t.status.err = .none → operandsWritten s (verifyReads s))) := by
  obtain ⟨hw, hv, hs⟩ | ⟨hw, hs⟩ := step_of_alone h ha hofv
  · rw [hs, answerRequest_of_waiting (s := tick s) hw hv] at he
    cases he
    exact ⟨ha, shortens_of_answered (s := tick s) h hofv hw hv rfl rfl rfl hw rfl, ownMarks_refl s, rfl, fun hseen => ⟨fun _ => hseen,
      fun hi => by rw [show s.phase = .idle from hi] at hofv; cases hofv⟩⟩
  · rw [hs] at he
    obtain ⟨hframe, hmarks⟩ := exec_verify_frame he
    refine ⟨?_, shortens_exec_verify (s := tick s) h hw he, hmarks, ?_, fun hseen => seen_exec_verify (s := tick s) h hseen he⟩
    · rw [hframe]
      exact ha
    · rw [hframe]
      rfl

/-- With written operands it has a next step. -/
theorem step_total_of_alone (h : Inv s) (ha : Alone s) (hofv : s.phase.ofVerify = true) :
    StopsOnlyOn (verifyReads s) s (step s) := by
  obtain ⟨-, -, hs⟩ | ⟨-, hs⟩ := step_of_alone h ha hofv
  · exact .inl ⟨_, hs⟩
  · rw [hs]
    exact stopsOnlyOn_exec_verify (s := tick s) h hofv

theorem next_of_written {ops : List Operand} {out : Host.Outcome State Fault Refusal} (hw : operandsWritten s ops)
    (h : StopsOnlyOn ops s out) : ∃ t, out = .next t :=
  h.resolve_right fun ⟨o, ho, hn, _⟩ => hn (hw o ho)

theorem stepsLeft_pos (h : Inv s) (hofv : s.phase.ofVerify = true) : 1 ≤ stepsLeft s := by
  have hstage : requestStage s ≤ 2 := by
    rw [requestStage]
    split_ifs <;> omega
  obtain ⟨-, -, -, -, -, ⟨-, -, hidx, -⟩, -⟩ := h
  rw [stepsLeft]
  cases hph : s.phase with
  | idle | exec => rw [hph] at hofv; cases hofv
  | vAdd =>
    have := hidx (.inr hph)
    dsimp only
    omega
  | _ =>
    dsimp only
    omega

/-- A block that is idle and alone stays as it is. -/
theorem step_of_idle_alone (h : Inv s) (hph : s.phase = .idle) (ha : Alone s) : step s = .next s := by
  obtain ⟨hturns, hprog, -⟩ := ha
  obtain ⟨hw, -⟩ := quiet_of_phaseCall h (phaseCall_of_phase (by rw [hph]; decide))
  have hturn : idleTurn s = .host := by
    simp [idleTurn, sequencerEnabled, engineMoves, engineEnabled, hph, hw]
  rw [step_of_nil hturns, hturn, act, hostStep, hprog]

/-- A VERIFY with written operands is complete after the steps that are left. -/
theorem run_of_written (n : Nat) (h : Inv s) (ha : Alone s) (hph : s.phase.ofVerify = true ∨ s.phase = .idle)
    (hw : s.phase.ofVerify = true → operandsWritten s (verifyReads s)) (hn : stepsLeft s ≤ n) :
    ∃ t, run n s = .next t ∧ t.status.busy = false := by
  induction n generalizing s with
  | zero =>
    obtain hofv | hidle := hph
    · have := stepsLeft_pos h hofv
      omega
    · exact ⟨s, rfl, (busy_eq_false_iff h).mpr hidle⟩
  | succ n ih =>
    obtain hofv | hidle := hph
    · obtain ⟨t, ht⟩ := next_of_written (hw hofv) (step_total_of_alone h ha hofv)
      obtain ⟨ha', hshort, hmarks, hreads, -⟩ := next_of_alone h ha hofv ht
      have hw' : operandsWritten t (verifyReads t) := by
        rw [hreads]
        exact fun o ho => bytesWritten_of_ownMarks hmarks (hw hofv o ho)
      rw [run_succ_of_next ht]
      obtain ⟨hofv', hleft⟩ | ⟨hidle, -⟩ := hshort
      · exact ih (invariantKept s t h ht) ha' (.inl hofv') (fun _ => hw') (by omega)
      · refine ih (invariantKept s t h ht) ha' (.inr hidle) (fun _ => hw') ?_
        rw [stepsLeft, hidle]
        exact Nat.zero_le n
    · have hzero : stepsLeft s = 0 := by rw [stepsLeft, hidle]
      rw [run_succ_of_next (step_of_idle_alone h hidle ha)]
      exact ih h ha (.inr hidle) hw (by omega)

/-- One that is heading for no error is still running after any smaller number of steps. -/
theorem busy_of_lt {e : Ending} (m : Nat) (h : Inv s) (ha : Alone s) (hofv : s.phase.ofVerify = true)
    (hw : operandsWritten s (verifyReads s)) (ht : Toward e s) (he : e.err = .none) (hm : m < stepsLeft s) :
    ∃ u, run m s = .next u ∧ u.status.busy = true := by
  induction m generalizing s e with
  | zero =>
    obtain ⟨hb, -⟩ := running_of_inv h (fun hi => by rw [hi] at hofv; cases hofv)
    exact ⟨s, rfl, hb⟩
  | succ m ih =>
    obtain ⟨t, hst⟩ := next_of_written hw (step_total_of_alone h ha hofv)
    obtain ⟨ha', hshort, hmarks, hreads, -⟩ := next_of_alone h ha hofv hst
    obtain ⟨-, e', rfl, ht'⟩ := toward_step h (undisturbed_of_alone ha) ht hst
    rw [run_succ_of_next hst]
    obtain ⟨hofv', hleft⟩ | ⟨hidle, hlast⟩ := hshort
    · refine ih (invariantKept s t h hst) ha' hofv' ?_ ht' he (by omega)
      rw [hreads]
      exact fun o ho => bytesWritten_of_ownMarks hmarks (hw o ho)
    · obtain ⟨hofv', -⟩ | ⟨-, -, -, herr, -⟩ := ht'
      · rw [hidle] at hofv'
        cases hofv'
      · have := hlast (herr.trans he)
        omega

/-- One that is heading for no error, and for which an operand is not written, stops on such an operand: the phases cannot
all be passed. -/
theorem run_of_unwritten {e : Ending} (n : Nat) (h : Inv s) (ha : Alone s) (hofv : s.phase.ofVerify = true)
    (hseen : Seen s) (hw : ¬ operandsWritten s (verifyReads s)) (ht : Toward e s) (he : e.err = .none)
    (hn : stepsLeft s ≤ n) :
    ∃ o ∈ verifyReads s, ¬ bytesWritten s o.reg o.first o.len ∧ run n s = .fault (.unwrittenOperand o.reg) := by
  induction n generalizing s e with
  | zero =>
    have := stepsLeft_pos h hofv
    omega
  | succ n ih =>
    obtain ⟨t, hst⟩ | ⟨o, ho, hno, hst⟩ := step_total_of_alone h ha hofv
    · obtain ⟨ha', hshort, hmarks, hreads, hnext⟩ := next_of_alone h ha hofv hst
      obtain ⟨hgo, hend⟩ := hnext hseen
      obtain ⟨-, e', rfl, ht'⟩ := toward_step h (undisturbed_of_alone ha) ht hst
      obtain ⟨hofv', hleft⟩ | ⟨hidle, -⟩ := hshort
      · have hw' : ¬ operandsWritten t (verifyReads t) := by
          rw [hreads]
          exact fun hw' => hw (operandsWritten_of_ownMarks hmarks hw')
        obtain ⟨o, ho, hno, hrun⟩ :=
          ih (invariantKept s t h hst) ha' hofv' (hgo hofv') hw' ht' he (by omega)
        rw [hreads] at ho
        exact ⟨o, ho, fun hno' => hno (bytesWritten_of_ownMarks hmarks hno'), (run_succ_of_next hst).trans hrun⟩
      · obtain ⟨hofv', -⟩ | ⟨-, -, -, herr, -⟩ := ht'
        · rw [hidle] at hofv'
          cases hofv'
        · exact absurd (hend hidle (herr.trans he)) hw
    · exact ⟨o, ho, hno, run_succ_of_fault hst⟩

/-- Settles O56: completion by `run_of_written`, the outcome by the statement for every interleaving, the exact count by
`busy_of_lt`, and the stop by `run_of_unwritten`. -/
theorem verifyAgreesWithFunction : Obligations.VerifyAgreesWithFunction := by
  intro s h hph hturns hprog hans
  have ha : Alone s := ⟨hturns, hprog, hans⟩
  have hofv : s.phase.ofVerify = true := by rw [hph]; rfl
  have hleft : stepsLeft s = 7 * s.npub.toNat + 7 := by rw [stepsLeft, hph]
  obtain ⟨hreset, hstarts⟩ := undisturbed_of_alone ha
  obtain ⟨hquiet, -⟩ := quiet_of_phaseCall h (phaseCall_of_phase (by rw [hph]; decide))
  have htoward : Toward (startEnding s.cfg s.a s.b s.c (inputsOf s)) s :=
    .inl ⟨hofv, (aheadOf_of_quiet hquiet).trans (endingOf_of_vLen hph)⟩
  obtain ⟨-, herr, -⟩ := startEnding_agrees s.cfg s.a s.b s.c (inputsOf s)
  refine ⟨fun hw => ⟨?_, fun hnone m hm => ?_⟩, fun hw hnone => ?_⟩
  · obtain ⟨t, hrun, hb⟩ := run_of_written _ h ha (.inl hofv) (fun _ => hw) hleft.le
    obtain ⟨hdone, herr, hvalid, hcalls⟩ := verifyUnderAnyInterleaving s t _ h hph hreset hstarts hrun hb
    exact ⟨t, hrun, hb, hdone, herr, hvalid, hcalls⟩
  · exact busy_of_lt m h ha hofv hw htoward (herr.trans hnone) (hm.trans_eq hleft.symm)
  · have hseen : Seen s := by
      rw [Seen, hph]
      exact ⟨fun hp => (by cases hp), fun hp => (by cases hp), fun hp => (by cases hp), fun hp => (by cases hp),
        fun hp => (by cases hp)⟩
    exact run_of_unwritten _ h ha hofv hseen hw htoward (herr.trans hnone) hleft.le

/-! An engine that never answers. -/

/-- A request is outstanding, the engine does not answer, and no reset comes. -/
def Hung (s : State) : Prop :=
  Inv s ∧ s.cfg.engineAnswers = false ∧ s.status.waiteng = true ∧ s.rspValid = false ∧ Turn.reset ∉ s.turns

theorem busy_of_hung (h : Hung s) : s.status.busy = true ∧ s.status.err = .none := by
  obtain ⟨hinv, -, hw, -, -⟩ := h
  have hne : s.phase ≠ .idle := by
    intro hi
    obtain ⟨hq, -⟩ := quiet_of_phaseCall hinv (phaseCall_of_phase (by rw [hi]; decide))
    rw [hw] at hq
    cases hq
  obtain ⟨hb, -, -, herr, -⟩ := running_of_inv hinv hne
  exact ⟨hb, herr⟩

/-- While a command runs a WAIT of the host stays (30_encoding.md R108). -/
theorem wait_of_busy (hb : s.status.busy = true) (he : hostStep s = .next t) {rest : List HostOp}
    (hp : s.hostProg = .wait :: rest) : t.hostProg = .wait :: rest := by
  obtain rfl | ⟨prog, resp, rfl, line, hline, ⟨rfl, -⟩ | ⟨-, hidle⟩⟩ | ⟨addr, w, rest', hp', -⟩ := hostStep_cases he
  · exact hp
  · exact hp
  · rw [hp, List.cons.injEq] at hline
    rw [hidle hline.1.symm] at hb
    cases hb
  · rw [hp] at hp'
    cases hp'

/-- A step of a hung block leaves it hung, in its phase, with the host's WAIT. -/
theorem hung_step (h : Hung s) (he : step s = .next t) :
    Hung t ∧ t.phase = s.phase ∧ ∀ rest, s.hostProg = .wait :: rest → t.hostProg = .wait :: rest := by
  obtain ⟨hb, -⟩ := busy_of_hung h
  obtain ⟨hinv, hans, hw, hv, hreset⟩ := h
  have hinv' := invariantKept s t hinv he
  have htail : Turn.reset ∉ s.turns.tail := fun hm => hreset (List.mem_of_mem_tail hm)
  obtain rfl | ⟨hr, -⟩ | hhost | ⟨heng, -⟩ | ⟨hseq, -⟩ := step_cases he
  · exact ⟨⟨hinv', hans, hw, hv, htail⟩, rfl, fun _ hp => hp⟩
  · exact absurd (List.mem_of_mem_head? hr) hreset
  · have hwait := fun rest => wait_of_busy (s := afterTurn s) (rest := rest) hb hhost
    obtain ⟨haz, prog, resp, rfl, -⟩ := hostStep_of_busy (s := afterTurn s) hb hhost
    exact ⟨⟨hinv', hans, hw, hv, htail⟩, rfl, hwait⟩
  · rw [engineMoves, hans, Bool.and_false] at heng
    cases heng
  · exact absurd ⟨hw, hv⟩ (not_waiting_of_sequencerEnabled hseq)

theorem hung_run (n : Nat) (h : Hung s) (hr : run n s = .next t) :
    Hung t ∧ t.phase = s.phase ∧ ∀ rest, s.hostProg = .wait :: rest → t.hostProg = .wait :: rest := by
  induction n generalizing s with
  | zero =>
    cases hr
    exact ⟨h, rfl, fun _ hp => hp⟩
  | succ n ih =>
    obtain ⟨u, hs, hr⟩ := run_succ_eq_next hr
    obtain ⟨hu, hph, hp⟩ := hung_step h hs
    obtain ⟨ht, hph', hp'⟩ := ih hu hr
    exact ⟨ht, hph'.trans hph, fun rest hprog => hp' rest (hp rest hprog)⟩

/-- Settles O59, by induction on the steps: no agent but the host has one, and a busy block ignores the host. -/
theorem silentEngineHangs : Obligations.SilentEngineHangs := by
  intro s t n h hans hw hv hreset hr
  obtain ⟨hung, hph, hwait⟩ := hung_run n ⟨h, hans, hw, hv, hreset⟩ hr
  obtain ⟨hb, herr⟩ := busy_of_hung hung
  obtain ⟨-, -, hw', -, -⟩ := hung
  exact ⟨hb, hw', herr, hph, hwait⟩

end

end Sys2Proof.Machine

/-! PROOFS of the statements about the codec commands and NEG (40_bytecodec.md section 2, 41_pointcodec.md section 2,
43_verifier.md section 1). First the bytes of a command word, and what each command ends in where its operands are
written. -/

namespace Sys2Proof.Machine

/-- A packed word as a number: `(A << 16) | (W << 8) | OPC` (30_encoding.md R107). -/
theorem toNat_packWord (opc width : Byte) (append : Bool) :
    (packWord opc width append).toNat = append.toNat * 2 ^ 16 + width.toNat * 2 ^ 8 + opc.toNat := by
  have hopc := opc.isLt
  have hwidth := width.isLt
  have hflag : append.toNat < 2 ^ 1 := append.toNat_lt
  rw [packWord, BitVec.toNat_append, BitVec.toNat_append, BitVec.toNat_append, BitVec.toNat_ofBool,
    ← Nat.shiftLeft_add_eq_or_of_lt hopc, ← Nat.shiftLeft_add_eq_or_of_lt hwidth,
    ← Nat.shiftLeft_add_eq_or_of_lt hflag]
  have hzero : (0 : BitVec 15).toNat = 0 := rfl
  simp only [Nat.shiftLeft_eq, hzero]
  omega

/-- A command word by its fields is the packing of them. -/
theorem commandWord_eq_packWord (append : Bool) {w opc : Nat} (hw : w < 256) (hopc : opc < 256) :
    commandWord append.toNat w opc = packWord (BitVec.ofNat 8 opc) (BitVec.ofNat 8 w) append := by
  have hflag := append.toNat_lt
  apply BitVec.eq_of_toNat_eq
  rw [toNat_packWord, commandWord, BitVec.toNat_ofNat, BitVec.toNat_ofNat, BitVec.toNat_ofNat,
    Nat.mod_eq_of_lt (show w < 2 ^ 8 from hw), Nat.mod_eq_of_lt (show opc < 2 ^ 8 from hopc)]
  omega

/-- An ENCFIX word by its width (30_encoding.md R98). -/
theorem decode_encfixWord (append : Bool) {w : Nat} (hw : w < 256) :
    decode (wordBytes (commandWord append.toNat w 2)) =
      if 1 ≤ w ∧ w ≤ 128 then .instr (.encfix append (BitVec.ofNat 8 w)) else .reject .badWidth := by
  have hv : (BitVec.ofNat 8 w).toNat = w := by rw [BitVec.toNat_ofNat, Nat.mod_eq_of_lt (show w < 2 ^ 8 from hw)]
  rw [decode_wordBytes, commandWord_eq_packWord append hw (by decide), decodeWord_packWord, if_neg (by decide),
    if_pos (by decide), hv]

/-! `strip`. -/

/-- `strip` drops the bytes before the first that is not zero (40_bytecodec.md R130). -/
theorem strip_eq_drop {bs : List Byte} {k : Nat} (hk : k < bs.length) (hne : bs.getD k 0 ≠ 0)
    (hzero : ∀ j, j < k → bs.getD j 0 = 0) : strip bs = bs.drop k := by
  induction bs generalizing k with
  | nil => cases hk
  | cons b bs ih =>
    cases k with
    | zero => exact strip_cons_of_ne_zero hne bs
    | succ k =>
      have hb : b = 0 := hzero 0 (Nat.succ_pos k)
      rw [hb, strip_zero_cons, List.drop_succ_cons]
      exact ih (Nat.lt_of_succ_lt_succ hk) hne fun j hj => hzero (j + 1) (Nat.succ_lt_succ hj)

/-- `strip` gives one zero byte where every byte is zero (40_bytecodec.md R130). -/
theorem strip_of_zeros {bs : List Byte} (hzero : ∀ j, j < bs.length → bs.getD j 0 = 0) : strip bs = [0] := by
  induction bs with
  | nil => rfl
  | cons b bs ih =>
    have hb : b = 0 := hzero 0 (Nat.succ_pos _)
    rw [hb, strip_zero_cons]
    exact ih fun j hj => hzero (j + 1) (Nat.succ_lt_succ hj)

/-- `strip` leaves a sequence that begins with a nonzero byte. -/
theorem strip_of_head_ne_zero {bs : List Byte} (hne : bs.getD 0 0 ≠ 0) : strip bs = bs := by
  cases bs with
  | nil => exact absurd rfl hne
  | cons b bs => exact strip_cons_of_ne_zero hne bs

/-- `strip` makes no nonempty sequence longer. -/
theorem length_strip_le_length {bs : List Byte} (h : 1 ≤ bs.length) : (strip bs).length ≤ bs.length := by
  rw [strip]
  split
  · exact h
  · exact (List.dropWhile_sublist _).length_le

section

variable {s t : State}

theorem cinlen_toNat_pos (h : s.cinlen ≠ 0) : 1 ≤ s.cinlen.toNat :=
  Nat.one_le_iff_ne_zero.mpr fun h0 => h (BitVec.eq_of_toNat_eq h0)

theorem length_cinContent_lt (s : State) : (cinContent s).length < 2 ^ 32 := by
  rw [length_cinContent]
  exact s.cinlen.isLt

/-- STRIP of an empty input is EmptyInput (40_bytecodec.md R136). -/
theorem exec_strip_of_empty {append : Bool} (hw : operandsWritten s (commandReads s (.strip append)))
    (h : s.cinlen = 0) : exec (.strip append) s = .next (errorState .emptyInput (errinfoOf s) s) := by
  rw [exec, execStrip, readThen_written hw, if_pos h, raiseHere_eq]

/-- STRIP of a nonempty input puts what `strip` leaves of it (40_bytecodec.md R136). -/
theorem exec_strip_of_nonempty {append : Bool} (hw : operandsWritten s (commandReads s (.strip append)))
    (h : s.cinlen ≠ 0) : putsCout append (strip (cinContent s)) s (exec (.strip append) s) := by
  have hlen := length_strip_le_length (bs := cinContent s) (by rw [length_cinContent]; exact cinlen_toNat_pos h)
  rw [exec, execStrip, readThen_written hw, if_neg h]
  exact putCout_spec append _ s (hlen.trans_lt (length_cinContent_lt s))

/-- Settles O8: `strip` by induction on the bytes, and the empty input by STRIP's own law. -/
theorem stripDropsLeadingZeros : Obligations.StripDropsLeadingZeros :=
  ⟨fun _ _ => strip_eq_drop, fun _ _ => strip_of_zeros, fun _ _ => exec_strip_of_empty⟩

/-- Settles O11. -/
theorem stripRule : Obligations.StripRule := by
  refine ⟨by decide, by decide, fun append s hw => ⟨exec_strip_of_empty hw, exec_strip_of_nonempty hw,
    strip_of_head_ne_zero, fun _ hzero => strip_of_zeros fun j hj => hzero j ?_⟩⟩
  rwa [length_cinContent] at hj

/-! Putting V, and reading a value into V or P. -/

/-- A V that does not fit the width is an EncodingError (40_bytecodec.md R133, R137). -/
theorem putEncodedV_of_le (append : Bool) {w : Nat} (hw : 1 ≤ w) (h : 256 ^ w ≤ s.v.toNat) :
    putEncodedV append w s = errorState .encodingError (errinfoOf s) s := by
  rw [putEncodedV, (encodeFixed_eq_none _ _ hw).mpr h, raiseHere_eq]

/-- A V that fits is put in its bytes (40_bytecodec.md R137). -/
theorem putEncodedV_of_lt (append : Bool) {w : Nat} (hw : 1 ≤ w) (h : s.v.toNat < 256 ^ w) :
    putEncodedV append w s = putCout append (be s.v.toNat w) s := by
  rw [putEncodedV, (encodeFixed_eq_some _ _ _ hw).mpr ⟨h, rfl⟩]

/-- Settles O12: the words by `decode_encfixWord`, the command by the two ways V can stand to the width. -/
theorem encfixRule : Obligations.EncfixRule := by
  refine ⟨fun w h1 h2 => ⟨?_, ?_⟩, fun a w ha hw => ?_, fun append width s h1 h2 hw => ⟨fun hv => ?_, fun hv => ?_⟩⟩
  · exact (decode_encfixWord false (by omega)).trans (if_pos ⟨h1, h2⟩)
  · exact (decode_encfixWord true (by omega)).trans (if_pos ⟨h1, h2⟩)
  · have hbad : ¬ (1 ≤ w ∧ w ≤ 128) := by omega
    obtain rfl | rfl := Nat.le_one_iff_eq_zero_or_eq_one.mp ha
    · exact (decode_encfixWord false (by omega)).trans (if_neg hbad)
    · exact (decode_encfixWord true (by omega)).trans (if_neg hbad)
  · rw [exec, execEncfix, readThen_written hw, putEncodedV_of_le append h1 hv]
  · rw [exec, execEncfix, readThen_written hw, putEncodedV_of_lt append h1 hv]
    exact putCout_spec append _ s (by rw [length_be]; omega)

/-- SENC is ENCFIX of width 32 (41_pointcodec.md R167). -/
theorem exec_senc (append : Bool) (s : State) : exec (.senc append) s = exec (.encfix append 32) s := rfl

/-- Settles O16, by the rule of ENCFIX at width 32. -/
theorem sencRule : Obligations.SencRule := by
  obtain ⟨-, -, hrule⟩ := encfixRule
  refine ⟨by decide, by decide, fun append s hw => ?_, exec_senc⟩
  have hpow : 256 ^ (32 : Byte).toNat = 2 ^ 256 := (pow_mul 2 8 32).symm
  obtain ⟨hlarge, hsmall⟩ := hrule append 32 s (by decide) (by decide) hw
  rw [exec_senc]
  exact ⟨fun hv => hlarge (hpow.trans_le hv), fun hv => hsmall (hv.trans_eq hpow.symm)⟩

/-- V set to a value of at most 128 bytes, and the completion after it (10_state.md R42). -/
theorem complete_setV_spec {bs : List Byte} (hlen : bs.length ≤ 128) (s : State) :
    ∃ t, Host.Outcome.next (φ := Fault) (ρ := Refusal) (complete (setV (unbe bs) s)) = .next t ∧
      t.v.toNat = unbe bs ∧ nowWritten .v 0 128 s t ∧ t.status = completedStatus s.status ∧ t.phase = .idle ∧
      t = { s with v := t.v, written := t.written, status := t.status, phase := t.phase } := by
  refine ⟨_, rfl, ?_, nowWritten_markWritten .v 0 128 { s with v := BitVec.ofNat 1024 (unbe bs) }, rfl, rfl, rfl⟩
  have hbits : (256 : Nat) ^ 128 = 2 ^ 1024 := (pow_mul 2 8 128).symm
  have hlt : unbe bs < 2 ^ 1024 :=
    ((unbe_lt bs).trans_le (Nat.pow_le_pow_right (by decide) hlen)).trans_eq hbits
  show (BitVec.ofNat 1024 (unbe bs)).toNat = unbe bs
  rw [BitVec.toNat_ofNat, Nat.mod_eq_of_lt hlt]

/-- P set to a point, and the completion after it (10_state.md R40). -/
theorem complete_setP_spec (p : G1) (s : State) :
    ∃ t, Host.Outcome.next (φ := Fault) (ρ := Refusal) (complete (setP p s)) = .next t ∧ t.p = p ∧
      nowWritten .p 0 64 s t ∧ t.status = completedStatus s.status ∧ t.phase = .idle ∧
      t = { s with p := t.p, written := t.written, status := t.status, phase := t.phase } :=
  ⟨_, rfl, rfl, nowWritten_markWritten .p 0 64 { s with p := p }, rfl, rfl, rfl⟩

/-- Settles O13. -/
theorem decuintRule : Obligations.DecuintRule := by
  refine ⟨by decide, fun s hlen hw => ?_⟩
  rw [exec, execDecuint, readThen_written hw]
  exact complete_setV_spec (by rw [length_cinContent]; exact hlen) s

/-- CINLEN by its value. -/
theorem cinlen_eq_iff (s : State) {n : Nat} (hn : n < 2 ^ 32) :
    s.cinlen = BitVec.ofNat 32 n ↔ (cinContent s).length = n := by
  rw [length_cinContent, ← BitVec.toNat_inj, BitVec.toNat_ofNat, Nat.mod_eq_of_lt hn]

/-- Settles O15: 32 bytes are a value for V, any other length a FormatError (41_pointcodec.md R160). -/
theorem sdecRule : Obligations.SdecRule := by
  refine ⟨by decide, fun s hw => ?_⟩
  have hlen := cinlen_eq_iff s (n := 32) (by decide)
  rw [exec, execSdec, readThen_written hw]
  refine ⟨fun h => ?_, fun h => ?_⟩
  · rw [sdecode_of_length_ne (mt hlen.mpr h), raiseHere_eq]
  · have h32 := hlen.mp h
    rw [sdecode_of_length h32]
    exact complete_setV_spec (by omega) s

/-- Settles O17: 64 bytes are a point for P, any other length a FormatError (41_pointcodec.md R162). -/
theorem g1decRule : Obligations.G1decRule := by
  refine ⟨by decide, fun s hw => ?_⟩
  have hlen := cinlen_eq_iff s (n := 64) (by decide)
  rw [exec, execG1dec, readThen_written hw]
  refine ⟨fun h => ?_, fun h => ?_⟩
  · rw [g1decode_of_length_ne (mt hlen.mpr h), raiseHere_eq]
  · have h64 := hlen.mp h
    rw [g1decode_of_length h64]
    obtain ⟨t, ht, hp, hrest⟩ := complete_setP_spec (g1OfImage (cinContent s)) s
    refine ⟨t, ht, ?_, ?_, hrest⟩
    · rw [hp, g1OfImage, toNat_field256 _ (by simp [h64])]
    · rw [hp, g1OfImage, toNat_field256 _ (by simp [h64])]

/-- Settles O14. -/
theorem concatRule : Obligations.ConcatRule := by
  refine ⟨by decide, by decide, fun append s hw => ?_⟩
  rw [exec, execConcat, readThen_written hw]
  exact putCout_spec append _ s (length_cinContent_lt s)

/-- Settles O18: the wire form of P is its register image. -/
theorem g1encRule : Obligations.G1encRule := by
  refine ⟨by decide, by decide, fun append s hw => ?_, fun s k hk => ?_⟩
  · rw [exec, execG1enc, readThen_written hw]
    exact putCout_spec append (enc1 s.p) s (by rw [length_enc1]; decide)
  · have hsize : 0x0200 + k < Reg.base .p + Reg.size s.cfg .p := Nat.add_lt_add_left hk 0x0200
    have hoff : 0x0200 + k - Reg.base .p = k := Nat.add_sub_cancel_left 0x0200 k
    rw [windowByte_reg s .p _ (Nat.le_add_right 0x0200 k) hsize, hoff]
    rfl

/-- Settles O19. -/
theorem g2encRule : Obligations.G2encRule := by
  refine ⟨by decide, by decide, fun append s hw => ?_⟩
  rw [exec, execG2enc, readThen_written hw]
  exact putCout_spec append (enc2 s.q) s (by rw [length_enc2]; decide)

/-- Settles O20, by the value of `negate`. -/
theorem negRule : Obligations.NegRule := by
  refine ⟨by decide, fun s hcfg hw => ?_⟩
  obtain ⟨hlow, hhigh, -⟩ := hcfg
  obtain ⟨hzero, hne⟩ := negateValue s.cfg.baseP s.p hlow hhigh
  obtain ⟨t, ht, hp, hrest⟩ := complete_setP_spec (negate s.cfg.baseP s.p) s
  rw [exec, execNeg, readThen_written hw]
  refine ⟨t, ht, fun h => ?_, fun h => ?_, hrest⟩
  · rw [hp, hzero h]
  · rw [hp]
    exact hne h

/-- Negating twice in numbers: the second negation gives y back exactly for 1 ≤ y ≤ BASE_P. -/
theorem sub_sub_mod_mod_eq_iff {b y : Nat} (hb : 2 < b) :
    b - (b - y % b) % b = y ↔ 1 ≤ y ∧ y ≤ b := by
  have hmod : y % b < b := Nat.mod_lt _ (by omega)
  by_cases h0 : y % b = 0
  · rw [h0, Nat.sub_zero, Nat.mod_self, Nat.sub_zero]
    refine ⟨fun h => by omega, fun ⟨h1, h2⟩ => ?_⟩
    by_contra hne
    rw [Nat.mod_eq_of_lt (by omega)] at h0
    omega
  · rw [Nat.mod_eq_of_lt (show b - y % b < b by omega), Nat.sub_sub_self hmod.le]
    refine ⟨fun h => ⟨by omega, by omega⟩, fun ⟨_, h2⟩ => Nat.mod_eq_of_lt ?_⟩
    refine lt_of_le_of_ne h2 fun he => h0 ?_
    rw [he, Nat.mod_self]

/-- A point is its two coordinates. -/
theorem g1_eq_of {p q : G1} (hx : p.x = q.x) (hy : p.y = q.y) : p = q := by
  cases p
  cases q
  rw [G1.mk.injEq]
  exact ⟨hx, hy⟩

/-- Settles O22: a point other than (0, 0) has a negation other than (0, 0), so both negations follow the formula. -/
theorem doubleNegation : Obligations.DoubleNegation := by
  intro baseP p hlow hhigh
  obtain ⟨hzero, hne⟩ := negateValue baseP p hlow hhigh
  by_cases hp : p = ⟨0, 0⟩
  · have h := hzero hp
    exact ⟨fun _ => .inl hp, fun _ => by rw [h, ← hp, h, ← hp]⟩
  · obtain ⟨hx, hy, hpos, -⟩ := hne hp
    have hq : negate baseP p ≠ ⟨0, 0⟩ := by
      intro hq
      rw [hq] at hpos
      exact absurd hpos (by decide)
    obtain ⟨-, hne'⟩ := negateValue baseP (negate baseP p) hlow hhigh
    obtain ⟨hx', hy', -⟩ := hne' hq
    rw [hy] at hy'
    rw [or_iff_right hp, ← sub_sub_mod_mod_eq_iff hlow, ← hy', BitVec.toNat_inj]
    exact ⟨congrArg G1.y, g1_eq_of (hx'.trans hx)⟩

/-! Replacing, and then appending. -/

/-- What COUT holds after bytes are produced: the bytes before them, where they are appended, and then they. -/
theorem coutContent_of_produced {append : Bool} {r : List Byte} (h : producedBytes append r s t) :
    coutContent t = (if append then coutContent s else []) ++ r := by
  obtain ⟨hlen, hbytes, hkeep, -⟩ := h
  have hhead : t.cout.readBytes 0 (coutStart append s) = s.cout.readBytes 0 (coutStart append s) :=
    Memory.readBytes_congr _ _ _ _ fun j _ hj => hkeep j (.inl (by omega))
  rw [coutContent, hlen, Memory.readBytes_add, hhead, Nat.zero_add, hbytes]
  cases append <;> rfl

/-- A result that fits is COUT's content, or comes after it. -/
theorem coutContent_putCout (append : Bool) (r : List Byte) (s : State) (hr : r.length ≤ 768)
    (hfit : fitsCout append r.length s) :
    coutContent (putCout append r s) = (if append then coutContent s else []) ++ r := by
  obtain ⟨hproduce, -⟩ := putCout_spec append r s (by omega)
  obtain ⟨t, ht, hp⟩ := hproduce hfit
  cases ht
  exact coutContent_of_produced hp

theorem coutContent_putCout_replace (r : List Byte) (s : State) (hr : r.length ≤ 768) :
    coutContent (putCout false r s) = r :=
  coutContent_putCout false r s hr fun h => (by cases h)

theorem coutContent_putCout_append (r : List Byte) (s : State) (hr : s.coutlen.toNat + r.length ≤ 768) :
    coutContent (putCout true r s) = coutContent s ++ r :=
  coutContent_putCout true r s (by omega) fun _ => hr

theorem length_coutContent (s : State) : (coutContent s).length = s.coutlen.toNat := Memory.length_readBytes _ _ _

/-- An append to what another state shows in COUT. -/
theorem coutContent_putCout_append_of {x r : List Byte} (hc : coutContent s = x) (hr : x.length + r.length ≤ 768) :
    coutContent (putCout true r s) = x ++ r := by
  have hlen := length_coutContent s
  rw [hc] at hlen
  rw [coutContent_putCout_append r s (by omega), hc]

theorem coutContent_congr (hcout : t.cout = s.cout) (hlen : t.coutlen = s.coutlen) : coutContent t = coutContent s := by
  rw [coutContent, coutContent, hcout, hlen]

/-- A command start has no business with COUT (30_encoding.md R111). -/
theorem startCommand_cout (w : Word) (s : State) :
    (startCommand w s).cout = s.cout ∧ (startCommand w s).coutlen = s.coutlen := by
  cases hd : decode (wordBytes w) with
  | instr i =>
    rw [startCommand_of_instr hd]
    exact ⟨rfl, rfl⟩
  | reject why =>
    rw [startCommand_of_reject hd]
    exact ⟨rfl, rfl⟩

/-- Produced bytes take no mark away, and COUTLEN has its marks after them. -/
theorem written_of_produced {append : Bool} {r : List Byte} (h : producedBytes append r s t) :
    (∀ o, s.written.read o = 1 → t.written.read o = 1) ∧ bytesWritten t .coutlen 0 4 := by
  obtain ⟨-, -, -, hmarks, -⟩ := h
  refine ⟨fun o ho => ?_, fun o h1 h2 => ?_⟩
  · rw [hmarks, ho, ite_self]
  · rw [hmarks, if_pos (.inl ⟨h1, h2⟩)]

theorem operandsWritten_cons (o : Operand) (ops : List Operand) :
    operandsWritten s (o :: ops) ↔ bytesWritten s o.reg o.first o.len ∧ operandsWritten s ops := List.forall_mem_cons

theorem operandsWritten_nil : operandsWritten s [] := fun _ h => (by cases h)

theorem operandsWritten_cinReads_replace :
    operandsWritten s (cinReads false s) ↔ bytesWritten s .cinlen 0 4 ∧ bytesWritten s .cin 0 s.cinlen.toNat := by
  rw [cinReads, operandsWritten_cons, operandsWritten_cons]
  exact and_congr_right' (and_iff_left operandsWritten_nil)

theorem operandsWritten_cinReads_append : operandsWritten s (cinReads true s) ↔
    bytesWritten s .cinlen 0 4 ∧ bytesWritten s .cin 0 s.cinlen.toNat ∧ bytesWritten s .coutlen 0 4 := by
  rw [cinReads, operandsWritten_cons, operandsWritten_cons, appendReads, if_pos rfl, operandsWritten_singleton]

/-- Produced bytes leave the codec input. -/
theorem cin_of_produced {append : Bool} {r : List Byte} (h : producedBytes append r s t) :
    t.cinlen = s.cinlen ∧ cinContent t = cinContent s := by
  obtain ⟨-, -, -, -, -, -, hframe⟩ := h
  rw [hframe]
  exact ⟨rfl, rfl⟩

/-- The start of CONCAT.A. -/
theorem startCommand_concatAppend (s : State) :
    startCommand 0x00010004 s = { beginCommand 0x00010004 s with phase := .exec } :=
  startCommand_of_instr (i := .concat true) (by decide) s

/-- CONCAT and then CONCAT.A leave the input twice (70_reset_and_hazards.md section 3). -/
theorem concat_concatAppend (hlen : s.cinlen.toNat ≤ 128) (hw : operandsWritten s (commandReads s (.concat false))) :
    ∃ t u, exec (.concat false) s = .next t ∧ exec (.concat true) (startCommand 0x00010004 t) = .next u ∧
    coutContent u = cinContent s ++ cinContent s ∧ u.coutlen.toNat = 2 * s.cinlen.toNat ∧ u.status.err = .none := by
  obtain ⟨-, -, hrule⟩ := concatRule
  obtain ⟨hproduce, -⟩ := hrule false s hw
  obtain ⟨t, ht, hp⟩ := hproduce fun h => (by cases h)
  obtain ⟨hmono, hmark⟩ := written_of_produced hp
  obtain ⟨htlen, htcin⟩ := cin_of_produced hp
  have hcontent : coutContent t = cinContent s := coutContent_of_produced hp
  have hcount : t.coutlen.toNat = s.cinlen.toNat := by rw [← length_coutContent, hcontent, length_cinContent]
  have hw' : operandsWritten t (cinReads true t) := by
    obtain ⟨hcinlen, hcin⟩ := operandsWritten_cinReads_replace.mp hw
    rw [operandsWritten_cinReads_append, htlen]
    exact ⟨bytesWritten_mono hmono hcinlen, bytesWritten_mono hmono hcin, hmark⟩
  obtain ⟨hproduce', -⟩ := hrule true { beginCommand 0x00010004 t with phase := .exec } hw'
  have hfit : t.coutlen.toNat + (cinContent t).length ≤ 768 := by
    rw [hcount, htcin, length_cinContent]
    omega
  obtain ⟨u, hu, hp'⟩ := hproduce' fun _ => hfit
  have hcontent' : coutContent u = cinContent s ++ cinContent s := by
    refine (coutContent_of_produced hp').trans ?_
    show coutContent t ++ cinContent t = _
    rw [hcontent, htcin]
  obtain ⟨-, -, -, -, hstatus, -⟩ := hp'
  refine ⟨t, u, ht, by rw [startCommand_concatAppend]; exact hu, hcontent', ?_, by rw [hstatus]; rfl⟩
  rw [← length_coutContent, hcontent', List.length_append, length_cinContent, Nat.two_mul]

/-- Settles O23, by the content of COUT after one result. -/
theorem appendConcatenates : Obligations.AppendConcatenates := by
  refine ⟨coutContent_putCout_replace, coutContent_putCout_append,
    fun x y z s1 s2 s3 hlen hc2 hl2 hc3 hl3 => ?_, startCommand_cout, fun s => concat_concatAppend⟩
  have h2 : coutContent s2 = x :=
    (coutContent_congr hc2 hl2).trans (coutContent_putCout_replace x s1 (by omega))
  have h3 : coutContent s3 = x ++ y :=
    (coutContent_congr hc3 hl3).trans (coutContent_putCout_append_of h2 (by omega))
  exact coutContent_putCout_append_of h3 (by rw [List.length_append]; omega)

/-! What every command that runs in one step does: it reads its operands, and then touches its own registers only. -/

/-- `t` differs from `s` at most in what a codec command or NEG may change. -/
def CommandFrame (s t : State) : Prop :=
  t = { s with status := t.status, errinfo := t.errinfo, coutlen := t.coutlen, phase := t.phase, p := t.p, v := t.v,
               cout := t.cout, written := t.written, rspValid := t.rspValid }

theorem commandFrame_putCout (append : Bool) (r : List Byte) (s : State) : CommandFrame s (putCout append r s) := by
  rw [putCout]
  split_ifs <;> rfl

theorem commandFrame_putEncodedV (append : Bool) (w : Nat) (s : State) : CommandFrame s (putEncodedV append w s) := by
  rw [putEncodedV]
  cases encodeFixed s.v.toNat w with
  | none => rfl
  | some r => exact commandFrame_putCout append r s

/-- A command that runs in one step reads its operands first (70_reset_and_hazards.md R314), and then leaves all but
its own registers. -/
theorem exec_single_eq_readThen {i : Instr} (hi : singleStep i = true) (s : State) :
    ∃ t, exec i s = readThen (commandReads s i) s t ∧ CommandFrame s t := by
  cases i with
  | strip append =>
    refine ⟨_, rfl, ?_⟩
    split_ifs
    · rfl
    · exact commandFrame_putCout append _ s
  | encfix append width => exact ⟨_, rfl, commandFrame_putEncodedV append width.toNat s⟩
  | decuint => exact ⟨_, rfl, rfl⟩
  | concat append => exact ⟨_, rfl, commandFrame_putCout append _ s⟩
  | sdec =>
    refine ⟨_, rfl, ?_⟩
    cases sdecode (cinContent s) <;> rfl
  | senc append => exact ⟨_, rfl, commandFrame_putEncodedV append 32 s⟩
  | g1dec =>
    refine ⟨_, rfl, ?_⟩
    cases g1decode (cinContent s) <;> rfl
  | g1enc append => exact ⟨_, rfl, commandFrame_putCout append _ s⟩
  | g2enc append => exact ⟨_, rfl, commandFrame_putCout append _ s⟩
  | neg => exact ⟨_, rfl, rfl⟩
  | verify => cases hi
  | engAdd => cases hi
  | engSmul => cases hi
  | engPair => cases hi

/-- A command that runs in one step gives a next state exactly where its operands are written. -/
theorem exec_single_next_iff {i : Instr} {ops : List Operand} (hi : singleStep i = true) (hops : commandReads s i = ops) :
    (∃ t, exec i s = .next t) ↔ operandsWritten s ops := by
  obtain ⟨t, ht, -⟩ := exec_single_eq_readThen hi s
  rw [ht, hops]
  refine ⟨fun ⟨u, hu⟩ => ?_, fun hw => ⟨t, readThen_written hw t⟩⟩
  obtain ⟨hw, -⟩ := readThen_eq_next hu
  exact hw

theorem operandsWritten_appendReads : operandsWritten s (appendReads true) ↔ bytesWritten s .coutlen 0 4 :=
  operandsWritten_singleton _

/-- Settles O60: every command in one step begins by reading its operands, and its list is the hazard rule's. -/
theorem unwrittenOperandFault : Obligations.UnwrittenOperandFault := by
  refine ⟨fun i s hi => ⟨fun hw => (exec_single_next_iff hi rfl).mpr hw, fun before o after hops hb ho => ?_⟩,
    fun i s => ⟨fun h => ?_, fun h => ?_, fun h => ?_, fun h => ?_, fun h => ?_, fun h => ?_, fun h => ?_, fun h => ?_⟩,
    fun s i r hbusy hph hen hturns hd hf n => ?_, fun s t ts he hturns r k n hn hw => ?_⟩
  · obtain ⟨t, ht, -⟩ := exec_single_eq_readThen hi s
    rw [ht, hops]
    exact readThen_unwritten hb ho t
  · simp only [List.mem_cons, List.not_mem_nil, or_false] at h
    rw [← operandsWritten_cinReads_replace]
    obtain rfl | rfl | rfl | rfl | rfl := h <;> exact exec_single_next_iff rfl rfl
  · simp only [List.mem_cons, List.not_mem_nil, or_false] at h
    rw [← operandsWritten_cinReads_append]
    obtain rfl | rfl := h <;> exact exec_single_next_iff rfl rfl
  · rw [← operandsWritten_singleton ⟨.v, 0, 128⟩]
    obtain ⟨w, rfl⟩ | rfl := h <;> exact exec_single_next_iff rfl rfl
  · rw [← operandsWritten_appendReads, ← operandsWritten_cons ⟨.v, 0, 128⟩]
    obtain ⟨w, rfl⟩ | rfl := h <;> exact exec_single_next_iff rfl rfl
  · simp only [List.mem_cons, List.not_mem_nil, or_false] at h
    rw [← operandsWritten_singleton ⟨.p, 0, 64⟩]
    obtain rfl | rfl := h <;> exact exec_single_next_iff rfl rfl
  · rw [h, ← operandsWritten_appendReads, ← operandsWritten_cons ⟨.p, 0, 64⟩]
    exact exec_single_next_iff rfl rfl
  · rw [h, ← operandsWritten_singleton ⟨.q, 0, 128⟩]
    exact exec_single_next_iff rfl rfl
  · rw [h, ← operandsWritten_appendReads, ← operandsWritten_cons ⟨.q, 0, 128⟩]
    exact exec_single_next_iff rfl rfl
  · obtain ⟨hrun, -⟩ := stepRunsDecoded
    obtain ⟨hnone, -⟩ := hrun s i hbusy hph hen hd
    exact run_succ_of_fault ((hnone hturns).trans hf)
  · rw [step_of_reset hturns] at he
    cases he
    have h1 : (0 : Byte) = 1 := hw (r.base + k) (Nat.le_refl _) (Nat.lt_add_of_pos_right hn)
    exact absurd h1 (by decide)

/-- A register that a command does not touch shows the same bytes. -/
theorem regByte_of_commandFrame (h : CommandFrame s t) {r : Reg}
    (hr : r ∉ [Reg.status, .errinfo, .coutlen, .phase, .p, .v, .cout]) (k : Nat) : regByte t r k = regByte s r k := by
  rw [h]
  cases r
  case status | errinfo | coutlen | phase | p | v | cout => exact absurd (by decide) hr
  all_goals rfl

/-- Settles O51, by the register at the offset. -/
theorem commandWindowFrame : Obligations.CommandWindowFrame := by
  intro i s t off hi he
  obtain ⟨u, hu, hframe⟩ := exec_single_eq_readThen hi s
  rw [hu] at he
  obtain ⟨-, rfl⟩ := readThen_eq_next he
  have hcfg : t.cfg = s.cfg := by rw [hframe]
  rw [windowByte, windowByte, hcfg]
  cases hm : mapFind s.cfg off with
  | none => exact .inl rfl
  | some row =>
    obtain ⟨r, rfl, h1, h2⟩ := mapFind_some hm
    by_cases hr : r ∈ [Reg.status, .errinfo, .coutlen, .phase, .p, .v, .cout]
    · simp only [List.mem_cons, List.not_mem_nil, or_false] at hr
      obtain rfl | rfl | rfl | rfl | rfl | rfl | rfl := hr <;> simp only [Reg.base, Reg.size] at h1 h2 <;> omega
    · exact .inl (regByte_of_commandFrame hframe hr _)

end

end Sys2Proof.Machine

/-! PROOFS of the statements about the phases of VERIFY (43_verifier.md section 3), phase by phase. -/

namespace Sys2Proof.Machine

section

variable {s t : State} {ops : List Operand}

/-- An error saves its phase's code and IDX in ERRINFO (60_exceptions.md R276). -/
theorem raiseHere_of_phase {ph : Phase} {code : Word} (h : s.phase = ph) (hcode : ph.code.setWidth 32 <<< 8 = code)
    (e : ErrorClass) : raiseHere e s = errorState e (code ||| s.idx.setWidth 32) s := by
  rw [raiseHere_eq, errinfoOf_eq, h, hcode]

/-- Reading one register (70_reset_and_hazards.md R314). -/
theorem readThen_one {r : Reg} {k n : Nat} (h : bytesWritten s r k n) (t : State) :
    readThen [⟨r, k, n⟩] s t = .next t :=
  readThen_written ((operandsWritten_singleton _).mpr h) t

theorem readThen_one_unwritten {r : Reg} {k n : Nat} (h : ¬ bytesWritten s r k n) (t : State) :
    readThen [⟨r, k, n⟩] s t = .fault (.unwrittenOperand r) :=
  readThen_unwritten (before := []) operandsWritten_nil h t

theorem enginePhase_of_quiet {issue consume : State → Host.Outcome State Fault Refusal} (hw : s.status.waiteng = false) :
    enginePhase issue consume s = issue s := by
  rw [enginePhase, hw, if_neg (by decide)]

/-- PUB[k] by the vector's own entry. -/
theorem pubEntry_of_getElem? {k : Nat} {f : Field} (h : s.pub[k]? = some f) : pubEntry s k = f ∧ k < 64 := by
  obtain ⟨hk, -⟩ := Vector.getElem?_eq_some_iff.mp h
  exact ⟨by rw [pubEntry, h, Option.getD_some], hk⟩

/-! The length and range checks. -/

theorem phaseLen_of_mismatch (hw : bytesWritten s .npub 0 4) (h : s.npub.toNat + 1 ≠ s.cfg.vk.ic.length) :
    phaseLen s = .next (raiseHere .inputLengthMismatch s) := by
  rw [phaseLen, readThen_one hw, if_pos h]

theorem phaseLen_of_match (hw : bytesWritten s .npub 0 4) (h : s.npub.toNat + 1 = s.cfg.vk.ic.length) :
    phaseLen s = .next { s with idx := 0, phase := .vRange } := by
  rw [phaseLen, readThen_one hw, if_neg (not_not.mpr h)]

/-- Settles O24. -/
theorem lengthPhase : Obligations.LengthPhase := by
  intro s hph hw
  rw [exec_verify_of_vLen hph]
  have hbad : s.npub.toNat + 1 ≠ s.cfg.vk.ic.length →
      phaseLen s = .next (errorState .inputLengthMismatch (0x1000 ||| s.idx.setWidth 32) s) := fun h => by
    rw [phaseLen_of_mismatch hw h, raiseHere_of_phase (code := 0x1000) hph rfl]
  refine ⟨hbad, fun h hidx => ?_, phaseLen_of_match hw⟩
  rw [hbad h, hidx]
  rfl

/-- V_RANGE at an input that is there: its value decides (43_verifier.md R228). -/
theorem phaseRange_of_input (hne : s.idx.toNat ≠ s.npub.toNat) (hlt : s.idx.toNat < 64) :
    phaseRange s = readThen (pubReads s.idx.toNat) s
      (if (pubEntry s s.idx.toNat).toNat ≥ s.cfg.scalarR then raiseHere .scalarFieldOverflow s
      else { s with idx := s.idx + 1 }) := by
  rw [phaseRange, if_neg hne, if_pos hlt]

/-- Settles O25. -/
theorem rangePhase : Obligations.RangePhase := by
  intro s hph
  rw [exec_verify_of_vRange hph]
  refine ⟨fun h => if_pos h, fun hne hw f hf => ?_⟩
  obtain ⟨hentry, hlt⟩ := pubEntry_of_getElem? hf
  rw [phaseRange_of_input hne hlt, pubReads, readThen_one hw, hentry]
  refine ⟨fun hlarge => ?_, fun hsmall => ?_⟩
  · rw [if_pos hlarge, raiseHere_of_phase (code := 0x1100) hph rfl]
  · rw [if_neg (Nat.not_le.mpr hsmall)]

/-! The point responses. -/

theorem readPoint_of_length {bs : List Byte} (h : bs.length = 64) : readPoint (.ok bs) = .value (g1OfImage bs) := by
  rw [readPoint, g1decode_of_length h]

theorem readPoint_of_length_ne {bs : List Byte} (h : bs.length ≠ 64) : readPoint (.ok bs) = .error .formatError := by
  rw [readPoint, g1decode_of_length_ne h]

/-- The coordinates of a point read from 64 bytes (41_pointcodec.md R162). -/
theorem toNat_g1OfImage {bs : List Byte} (h : bs.length = 64) :
    (g1OfImage bs).x.toNat = unbe (bs.take 32) ∧ (g1OfImage bs).y.toNat = unbe (bs.drop 32) :=
  ⟨toNat_field256 _ (by simp [h]), toNat_field256 _ (by simp [h])⟩

theorem consumeSmul_of_error {e : ErrorClass} (h : readPoint s.rsp = .error e) :
    consumeSmul s = .next (raiseHere e s) := by
  rw [consumeSmul, h]

theorem consumeSmul_of_value {p : G1} (h : readPoint s.rsp = .value p) :
    consumeSmul s = .next { setTerm p (consumeResponse s) with phase := .vAdd } := by
  rw [consumeSmul, h]

theorem consumeAdd_of_error {e : ErrorClass} (h : readPoint s.rsp = .error e) :
    consumeAdd s = .next (raiseHere e s) := by
  rw [consumeAdd, h]

/-- The sum to VKX, with the next term or the end of the loop (43_verifier.md R232). -/
theorem consumeAdd_of_value {p : G1} (h : readPoint s.rsp = .value p) :
    (s.idx.toNat + 1 < s.npub.toNat →
      consumeAdd s = .next { setVkx p (consumeResponse s) with idx := s.idx + 1, phase := .vSmul }) ∧
    (¬ s.idx.toNat + 1 < s.npub.toNat →
      consumeAdd s = .next { setVkx p (consumeResponse s) with phase := .vNeg }) := by
  rw [consumeAdd, h]
  exact ⟨fun hlt => if_pos hlt, fun hge => if_neg hge⟩

/-- V_SMUL, issue: the point and the input are there (43_verifier.md R231). -/
theorem issueSmul_of_entries {p : G1} (hp : s.cfg.vk.ic[s.idx.toNat + 1]? = some p) (hlt : s.idx.toNat < 64) :
    issueSmul s = readThen (pubReads s.idx.toNat) s (issueRequest (smulCall p (pubEntry s s.idx.toNat)) s) := by
  rw [issueSmul, hp]
  exact if_pos hlt

theorem issueSmul_of_no_input {p : G1} (hp : s.cfg.vk.ic[s.idx.toNat + 1]? = some p) (hge : 64 ≤ s.idx.toNat) :
    issueSmul s = .fault (.absentEntry .pub) := by
  rw [issueSmul, hp]
  exact if_neg (Nat.not_lt.mpr hge)

theorem issueSmul_of_no_point (hp : s.cfg.vk.ic[s.idx.toNat + 1]? = none) : issueSmul s = .fault (.absentEntry .ic) := by
  rw [issueSmul, hp]

/-- Settles O27. -/
theorem scalarMulPhase : Obligations.ScalarMulPhase := by
  intro s hph
  rw [exec_verify_of_vSmul hph]
  refine ⟨fun hq hw p k hp hk => ?_, enginePhase_of_waiting, fun hw hv => ?_⟩
  · obtain ⟨hentry, hlt⟩ := pubEntry_of_getElem? hk
    rw [enginePhase_of_quiet hq, issueSmul_of_entries hp hlt, pubReads, readThen_one hw, hentry]
    rfl
  rw [enginePhase_of_answered hw hv]
  refine ⟨fun hr => ?_, fun bs hr hlen => ?_, fun bs hr hlen => ?_⟩
  · rw [consumeSmul_of_error (by rw [hr, readPoint]), raiseHere_of_phase (code := 0x1300) hph rfl]
  · rw [consumeSmul_of_error (hr ▸ readPoint_of_length_ne hlen), raiseHere_of_phase (code := 0x1300) hph rfl]
  · obtain ⟨hx, hy⟩ := toNat_g1OfImage hlen
    exact ⟨_, consumeSmul_of_value (hr ▸ readPoint_of_length hlen), hx, hy, rfl, rfl, rfl,
      nowWritten_markWritten .term 0 64 { consumeResponse s with term := g1OfImage bs }, rfl⟩

/-- Settles O28. -/
theorem accumulatePhase : Obligations.AccumulatePhase := by
  intro s hph
  rw [exec_verify_of_vAdd hph]
  refine ⟨fun hq hvkx hterm => ?_, enginePhase_of_waiting, fun hw hv => ?_⟩
  · have hwritten : operandsWritten s addReads :=
      (operandsWritten_cons _ _).mpr ⟨hvkx, (operandsWritten_singleton _).mpr hterm⟩
    rw [enginePhase_of_quiet hq, issueAdd, readThen_written hwritten]
    rfl
  rw [enginePhase_of_answered hw hv]
  refine ⟨fun hr => ?_, fun bs hr hlen => ?_, fun bs hr hlen => ?_⟩
  · rw [consumeAdd_of_error (by rw [hr, readPoint]), raiseHere_of_phase (code := 0x1400) hph rfl]
  · rw [consumeAdd_of_error (hr ▸ readPoint_of_length_ne hlen), raiseHere_of_phase (code := 0x1400) hph rfl]
  · obtain ⟨hx, hy⟩ := toNat_g1OfImage hlen
    obtain ⟨hnext, hlast⟩ := consumeAdd_of_value (s := s) (hr ▸ readPoint_of_length hlen)
    have hmarks := nowWritten_markWritten .vkx 0 64 { consumeResponse s with vkx := g1OfImage bs }
    by_cases hlt : s.idx.toNat + 1 < s.npub.toNat
    · exact ⟨_, hnext hlt, hx, hy, fun _ => ⟨rfl, rfl⟩, fun hge => absurd hlt hge, rfl, rfl, hmarks, rfl⟩
    · exact ⟨_, hlast hlt, hx, hy, fun h => absurd h hlt, fun _ => ⟨rfl, rfl⟩, rfl, rfl, hmarks, rfl⟩

/-! The negation and the pairing request. -/

/-- Settles O29, by the value of `negate`. -/
theorem negatePhase : Obligations.NegatePhase := by
  intro s hph hcfg hw
  obtain ⟨hlow, hhigh, -⟩ := hcfg
  obtain ⟨hzero, hne⟩ := negateValue s.cfg.baseP s.a hlow hhigh
  rw [exec_verify_of_vNeg hph, phaseNeg, readThen_one hw]
  refine ⟨_, rfl, hzero, fun h => ?_, rfl, nowWritten_markWritten .nega 0 64 _, rfl⟩
  obtain ⟨hx, hy, -⟩ := hne h
  exact ⟨hx, hy⟩

/-! The payloads of the engine requests. -/

/-- Pieces of one length, laid out one after another: their joint length. -/
theorem length_flatten_map {α : Type} {f : α → List Byte} {n : Nat} (hf : ∀ x, (f x).length = n) (xs : List α) :
    ((xs.map f).flatten).length = n * xs.length := by
  induction xs with
  | nil => rfl
  | cons x xs ih => rw [List.map_cons, List.flatten_cons, List.length_append, hf, ih, List.length_cons]; ring

/-- Pieces of one length, laid out one after another: piece `k`. -/
theorem take_drop_flatten_map {α : Type} {f : α → List Byte} {n : Nat} (hf : ∀ x, (f x).length = n) (rest : List Byte)
    {xs : List α} {k : Nat} {x : α} (h : xs[k]? = some x) :
    (((xs.map f).flatten ++ rest).drop (n * k)).take n = f x := by
  induction xs generalizing k with
  | nil => cases h
  | cons y xs ih =>
    rw [List.map_cons, List.flatten_cons, List.append_assoc]
    cases k with
    | zero =>
      cases h
      exact List.take_left' (hf _)
    | succ k =>
      have hn : n * (k + 1) = (f y).length + n * k := by rw [hf y]; ring
      rw [hn, List.drop_length_add_append]
      exact ih h

/-- One pair in the interleaved layout (42_engine_interface.md R195). -/
def pairBytes (pq : G1 × G2) : List Byte := enc1 pq.1 ++ enc2 pq.2

theorem length_pairBytes (pq : G1 × G2) : (pairBytes pq).length = 192 := by
  rw [pairBytes, List.length_append, length_enc1, length_enc2]

/-- The interleaved layout lays out pairs. -/
theorem pairPayload_interleaved (g1s : List G1) (g2s : List G2) :
    pairPayload .interleaved g1s g2s = ((g1s.zip g2s).map pairBytes).flatten := by
  rw [pairPayload, List.zip_eq_zipWith, List.map_zipWith]
  rfl

theorem length_pairPayload (layout : PairLayout) {g1s : List G1} {g2s : List G2} (h : g1s.length = g2s.length) :
    (pairPayload layout g1s g2s).length = 192 * g1s.length := by
  cases layout with
  | interleaved =>
    rw [pairPayload_interleaved, length_flatten_map length_pairBytes, List.length_zip, ← h, Nat.min_self]
  | split =>
    rw [pairPayload, List.length_append, length_flatten_map length_enc1, length_flatten_map length_enc2, ← h]
    ring

/-- Settles O35: the two arguments of `add` and `scalar_mul` stand one after the other, and the pieces of a pairing
request are laid out by `take_drop_flatten_map`. -/
theorem requestFormats : Obligations.RequestFormats := by
  refine ⟨fun p1 p2 => ⟨rfl, ?_, ?_, ?_⟩, fun p k => ⟨rfl, ?_, ?_, ?_⟩,
    fun layout _ _ h => ⟨rfl, length_pairPayload layout h⟩, fun g1s g2s k p q hp hq => ⟨?_, ?_, ?_⟩⟩
  · rw [addCall, List.length_append, length_enc1, length_enc1]
  · rw [addCall, List.take_left' (length_enc1 p1), g1decode_enc1]
  · rw [addCall, List.drop_left' (length_enc1 p1), g1decode_enc1]
  · rw [smulCall, List.length_append, length_enc1, length_enc256]
  · rw [smulCall, List.take_left' (length_enc1 p), g1decode_enc1]
  · rw [smulCall, List.drop_left' (length_enc1 p), sdecode_of_length (length_enc256 k), enc256, unbe_be_of_lt k.isLt]
  · have hzip : (g1s.zip g2s)[k]? = some (p, q) := List.getElem?_zip_eq_some.mpr ⟨hp, hq⟩
    rw [pairCall, pairPayload_interleaved, ← List.append_nil (List.flatten _)]
    rw [take_drop_flatten_map length_pairBytes [] hzip, pairBytes]
  · rw [pairCall, pairPayload]
    exact take_drop_flatten_map length_enc1 _ hp
  · have hskip : 64 * g1s.length + 128 * k = ((g1s.map enc1).flatten).length + 128 * k := by
      rw [length_flatten_map length_enc1]
    rw [pairCall, pairPayload, hskip, List.drop_length_add_append, ← List.append_nil (List.flatten (g2s.map enc2))]
    exact take_drop_flatten_map length_enc2 [] hq

/-- Settles O30. -/
theorem pairingRequest : Obligations.PairingRequest := by
  intro s hph hq hnega hb hvkx hc
  have hwritten : operandsWritten s pairReads := by
    simp only [pairReads, operandsWritten_cons]
    exact ⟨hnega, hb, hvkx, hc, operandsWritten_nil⟩
  rw [exec_verify_of_vPair hph, enginePhase_of_quiet hq, issuePair, readThen_written hwritten]
  refine ⟨_, rfl, rfl, fun hl => ?_, fun hl => ?_, length_pairPayload s.cfg.pairLayout rfl, rfl, rfl, rfl⟩
  · show pairPayload s.cfg.pairLayout (g1Args s) (g2Args s) = _
    rw [hl]
    simp [pairPayload, g1Args, g2Args]
  · show pairPayload s.cfg.pairLayout (g1Args s) (g2Args s) = _
    rw [hl]
    simp [pairPayload, g1Args, g2Args]

/-! Where VERIFY stops. -/

/-- The states of log 13, in which a phase names an entry of PUB or of the key that is not there. -/
def EntryAbsent (s : State) : Prop :=
  (s.phase = .vRange ∧ s.idx.toNat ≠ s.npub.toNat ∧ 64 ≤ s.idx.toNat) ∨ (s.phase = .vLcinit ∧ s.cfg.vk.ic = []) ∨
    (s.phase = .vSmul ∧ s.status.waiteng = false ∧ ¬ (s.idx.toNat + 1 < s.cfg.vk.ic.length ∧ s.idx.toNat < 64))

/-- The registers that the phases of VERIFY read as operands. -/
def phaseOperands : List Reg := [.npub, .pub, .vkx, .term, .a, .nega, .b, .c]

/-- What a step of VERIFY can be: a next state, UnwrittenOperand for a register its phases read, or the stop of
log 13. -/
def VerifyStops (s : State) (out : Host.Outcome State Fault Refusal) : Prop :=
  (∃ t, out = .next t) ∨ (∃ r ∈ phaseOperands, out = .fault (.unwrittenOperand r)) ∨
    (EntryAbsent s ∧ ∃ r, out = .fault (.absentEntry r))

theorem verifyStops_readThen (hops : ∀ o ∈ ops, o.reg ∈ phaseOperands) (s t : State) :
    VerifyStops s (readThen ops s t) := by
  obtain ⟨-, he⟩ | ⟨before, o, after, rfl, -, -, he⟩ := readThen_cases ops s t
  · exact .inl ⟨t, he⟩
  · exact .inr (.inl ⟨o.reg, hops o List.mem_append_cons_self, he⟩)

theorem verifyStops_readOne {r : Reg} (k n : Nat) (hr : r ∈ phaseOperands) (s t : State) :
    VerifyStops s (readThen [⟨r, k, n⟩] s t) :=
  verifyStops_readThen (fun o ho => by rw [List.mem_singleton.mp ho]; exact hr) s t

theorem verifyStops_enginePhase {issue consume : State → Host.Outcome State Fault Refusal}
    (hissue : s.status.waiteng = false → VerifyStops s (issue s)) (hconsume : ∃ t, consume s = .next t) :
    VerifyStops s (enginePhase issue consume s) := by
  cases hw : s.status.waiteng with
  | false => exact enginePhase_of_quiet hw ▸ hissue hw
  | true =>
    cases hv : s.rspValid with
    | false => exact .inl ⟨s, enginePhase_of_waiting hw hv⟩
    | true => exact enginePhase_of_answered hw hv ▸ .inl hconsume

theorem verifyStops_issueSmul (hph : s.phase = .vSmul) (hq : s.status.waiteng = false) :
    VerifyStops s (issueSmul s) := by
  by_cases hlt : s.idx.toNat + 1 < s.cfg.vk.ic.length ∧ s.idx.toNat < 64
  · obtain ⟨hic, hidx⟩ := hlt
    rw [issueSmul_of_entries (List.getElem?_eq_getElem hic) hidx]
    exact verifyStops_readOne _ _ (by decide) s _
  · refine .inr (.inr ⟨.inr (.inr ⟨hph, hq, hlt⟩), ?_⟩)
    cases hp : s.cfg.vk.ic[s.idx.toNat + 1]? with
    | none => exact ⟨_, issueSmul_of_no_point hp⟩
    | some p =>
      obtain ⟨hic, -⟩ := List.getElem?_eq_some_iff.mp hp
      exact ⟨_, issueSmul_of_no_input hp (Nat.not_lt.mp fun hidx => hlt ⟨hic, hidx⟩)⟩

theorem phaseLcinit_of_point {p : G1} (h : s.cfg.vk.ic[0]? = some p) :
    phaseLcinit s = .next { setVkx p s with idx := 0, phase := if s.npub.toNat > 0 then .vSmul else .vNeg } := by
  rw [phaseLcinit, h]

theorem phaseLcinit_of_no_point (h : s.cfg.vk.ic[0]? = none) : phaseLcinit s = .fault (.absentEntry .ic) := by
  rw [phaseLcinit, h]

theorem phaseRange_of_no_input (hne : s.idx.toNat ≠ s.npub.toNat) (hge : 64 ≤ s.idx.toNat) :
    phaseRange s = .fault (.absentEntry .pub) := by
  rw [phaseRange, if_neg hne, if_neg (Nat.not_lt.mpr hge)]

theorem verifyStops_phaseRange (hph : s.phase = .vRange) : VerifyStops s (phaseRange s) := by
  by_cases heq : s.idx.toNat = s.npub.toNat
  · exact .inl ⟨_, if_pos heq⟩
  by_cases hlt : s.idx.toNat < 64
  · rw [phaseRange_of_input heq hlt]
    exact verifyStops_readOne _ _ (by decide) s _
  · have hge := Nat.not_lt.mp hlt
    exact .inr (.inr ⟨.inl ⟨hph, heq, hge⟩, _, phaseRange_of_no_input heq hge⟩)

theorem verifyStops_phaseLcinit (hph : s.phase = .vLcinit) : VerifyStops s (phaseLcinit s) := by
  cases hic : s.cfg.vk.ic with
  | nil => exact .inr (.inr ⟨.inr (.inl ⟨hph, hic⟩), _, phaseLcinit_of_no_point (by rw [hic]; rfl)⟩)
  | cons p ps => exact .inl ⟨_, phaseLcinit_of_point (by rw [hic]; rfl)⟩

theorem verifyStops_exec_verify (hofv : s.phase.ofVerify = true) : VerifyStops s (exec .verify s) := by
  cases hph : s.phase with
  | idle | exec => rw [hph] at hofv; cases hofv
  | vLen => exact exec_verify_of_vLen hph ▸ verifyStops_readOne 0 4 (by decide) s _
  | vRange => exact exec_verify_of_vRange hph ▸ verifyStops_phaseRange hph
  | vLcinit => exact exec_verify_of_vLcinit hph ▸ verifyStops_phaseLcinit hph
  | vSmul =>
    exact exec_verify_of_vSmul hph ▸ verifyStops_enginePhase (verifyStops_issueSmul hph) (consumeSmul_total s)
  | vAdd =>
    have hissue : VerifyStops s (issueAdd s) := verifyStops_readThen (by decide) s _
    exact exec_verify_of_vAdd hph ▸ verifyStops_enginePhase (fun _ => hissue) (consumeAdd_total s)
  | vNeg => exact exec_verify_of_vNeg hph ▸ verifyStops_readOne 0 64 (by decide) s _
  | vPair =>
    have hissue : VerifyStops s (issuePair s) := verifyStops_readThen (by decide) s _
    exact exec_verify_of_vPair hph ▸ verifyStops_enginePhase (fun _ => hissue) (consumePair_total s)

/-- Settles O32. -/
theorem stopsOfVerify : Obligations.StopsOfVerify := by
  refine ⟨fun s hph hw => ?_, fun s hph hne hlt hw => ?_, fun s hph hq hic hlt hw => ?_, fun s hph hq => ?_,
    fun s hph hw => ?_, fun s hph hq => ?_, fun s hph hne hge => ?_, fun s hph hic => ?_, fun s hph hq hic => ?_,
    fun s hph hq hic hge => ?_, fun s hph => ?_, fun s r h => ?_, fun s hofv hun hrange hinit hsmul => ?_⟩
  · exact (exec_verify_of_vLen hph).trans (readThen_one_unwritten hw _)
  · rw [exec_verify_of_vRange hph, phaseRange_of_input hne hlt]
    exact readThen_one_unwritten hw _
  · rw [exec_verify_of_vSmul hph, enginePhase_of_quiet hq, issueSmul_of_entries (List.getElem?_eq_getElem hic) hlt]
    exact readThen_one_unwritten hw _
  · rw [exec_verify_of_vAdd hph, enginePhase_of_quiet hq]
    exact ⟨fun hvkx => readThen_unwritten (before := []) operandsWritten_nil hvkx _,
      fun hvkx hterm => readThen_unwritten (before := [⟨.vkx, 0, 64⟩]) ((operandsWritten_singleton _).mpr hvkx) hterm _⟩
  · exact (exec_verify_of_vNeg hph).trans (readThen_one_unwritten hw _)
  · rw [exec_verify_of_vPair hph, enginePhase_of_quiet hq]
    have hone {r : Reg} {k n : Nat} (h : bytesWritten s r k n) {ops : List Operand} (hops : operandsWritten s ops) :
        operandsWritten s (⟨r, k, n⟩ :: ops) := (operandsWritten_cons _ _).mpr ⟨h, hops⟩
    exact ⟨fun h => readThen_unwritten (before := []) operandsWritten_nil h _,
      fun h1 h => readThen_unwritten (before := [_]) (hone h1 operandsWritten_nil) h _,
      fun h1 h2 h => readThen_unwritten (before := [_, _]) (hone h1 (hone h2 operandsWritten_nil)) h _,
      fun h1 h2 h3 h =>
        readThen_unwritten (before := [_, _, _]) (hone h1 (hone h2 (hone h3 operandsWritten_nil))) h _⟩
  · rw [exec_verify_of_vRange hph, phaseRange_of_no_input hne hge]
  · rw [exec_verify_of_vLcinit hph, phaseLcinit_of_no_point (by rw [hic]; rfl)]
  · rw [exec_verify_of_vSmul hph, enginePhase_of_quiet hq, issueSmul_of_no_point (List.getElem?_eq_none hic)]
  · rw [exec_verify_of_vSmul hph, enginePhase_of_quiet hq, issueSmul_of_no_input (List.getElem?_eq_getElem hic) hge]
  · exact exec_verify_of_not_ofVerify (by obtain h | h := hph <;> rw [h] <;> rfl)
  · cases hofv : s.phase.ofVerify with
    | false =>
      rw [exec_verify_of_not_ofVerify hofv] at h
      cases h
    | true =>
      obtain ⟨t, ht⟩ | ⟨r', hr', ht⟩ | ⟨-, r', ht⟩ := verifyStops_exec_verify hofv <;> rw [ht] at h <;> cases h
      exact hr'
  · obtain h | ⟨r, -, ht⟩ | ⟨⟨hph, hne, hge⟩ | ⟨hph, hic⟩ | ⟨hph, hq, hno⟩, -⟩ := verifyStops_exec_verify hofv
    · exact h
    · exact absurd ht (hun r)
    · exact absurd (hrange hph) (not_or.mpr ⟨hne, Nat.not_lt.mpr hge⟩)
    · exact absurd hic (hinit hph)
    · exact absurd (hsmul hph hq) hno

/-! The engine's answer, and the instruction the host places. -/

/-- Settles O34: the three requests answer by their own selector. -/
theorem engineAnswers : Obligations.EngineAnswers := by
  intro i sel s hi
  have hexec : exec i s = .next (answerRequest sel s) := by
    simp only [List.mem_cons, List.not_mem_nil, or_false, Prod.mk.injEq] at hi
    obtain ⟨rfl, rfl⟩ | ⟨rfl, rfl⟩ | ⟨rfl, rfl⟩ := hi <;> rfl
  rw [hexec]
  refine ⟨fun hw hv => by rw [answerRequest_of_waiting hw hv], fun h => ?_⟩
  have hoff : ¬ engineEnabled s = true := by
    simpa [engineEnabled] using h
  rw [answerRequest, if_neg hoff]

/-- What a command reads depends on CINLEN and NPUB only. -/
theorem commandReads_congr (hcinlen : t.cinlen = s.cinlen) (hnpub : t.npub = s.npub) (i : Instr) :
    commandReads t i = commandReads s i := by
  cases i <;> simp only [commandReads, cinReads, verifyReads, hcinlen, hnpub]

/-- A placed command word: its operands marked, and its start (log 11). -/
theorem withFetchWord_word {w : Word} {i : Instr} (hd : decode (wordBytes w) = .instr i) (s : State) :
    s.withFetchWord 32 w.toNat =
      { beginCommand w (markOperands (commandReads s i) s) with
        phase := if i = .verify then .vLen else .exec
        turns := [] } := by
  have hplace : placeInstr (wordBytes w) s =
      { startCommand w (markOperands (commandReads s i) s) with turns := [] } := by
    have hbytes : wordBytes w = [w.extractLsb' 24 8, w.extractLsb' 16 8, w.extractLsb' 8 8, w.extractLsb' 0 8] := rfl
    rw [hbytes] at hd ⊢
    rw [placeInstr, hd, wordOfBytes_wordBytes]
  rw [State.withFetchWord, tableBytes, if_neg (by decide), BitVec.ofNat_toNat, BitVec.setWidth_eq, hplace,
    startCommand_of_instr hd]

/-- What the next step looks at in a placed command. -/
theorem fields_withFetchWord {w : Word} {i : Instr} (hd : decode (wordBytes w) = .instr i) (s : State) :
    (s.withFetchWord 32 w.toNat).ctrl = w ∧ (s.withFetchWord 32 w.toNat).status = startStatus w ∧
      (s.withFetchWord 32 w.toNat).turns = [] ∧
      (s.withFetchWord 32 w.toNat).phase = if i = .verify then .vLen else .exec := by
  rw [withFetchWord_word hd]
  exact ⟨rfl, rfl, rfl, rfl⟩

/-- The operands of a placed command are written. -/
theorem operandsWritten_withFetchWord {w : Word} {i : Instr} (hd : decode (wordBytes w) = .instr i) (s : State) :
    operandsWritten (s.withFetchWord 32 w.toNat) (commandReads (s.withFetchWord 32 w.toNat) i) := by
  obtain ⟨-, hmarked, hframe⟩ := markOperands_spec (commandReads s i) s
  have hreads : commandReads (s.withFetchWord 32 w.toNat) i = commandReads s i := by
    refine commandReads_congr ?_ ?_ i
    · rw [withFetchWord_word hd, hframe]
      rfl
    · rw [withFetchWord_word hd, hframe]
      rfl
  rw [hreads, withFetchWord_word hd]
  exact hmarked

/-- Settles O37. -/
theorem placedInstructionRuns : Obligations.PlacedInstructionRuns := by
  obtain ⟨hexec, hverify, hengine⟩ := stepRunsDecoded
  refine fun i s hi => ⟨fun w hw => ?_, fun sel hsel => ?_⟩
  · have hd : decode (wordBytes w) = .instr i := hw ▸ decodeOfEncode i hi
    have hwritten := operandsWritten_withFetchWord hd s
    obtain ⟨hctrl, hstatus, hturns, hphase⟩ := fields_withFetchWord hd s
    generalize s.withFetchWord 32 w.toNat = u at *
    have hbusy : u.status.busy = true := by rw [hstatus]; rfl
    have hquiet : ¬ (u.status.waiteng = true ∧ u.rspValid = false) := by
      rw [hstatus]
      exact fun ⟨h, _⟩ => (by cases h)
    by_cases hv : i = .verify
    · subst hv
      have hlen : u.phase = .vLen := hphase
      obtain ⟨hstep, -⟩ := hverify u hbusy (by rw [hlen]; rfl) hquiet
      refine ⟨hstep hturns, hwritten, ?_⟩
      rw [hstep hturns, exec_verify_of_vLen (s := tick u) hlen]
      exact ⟨_, readThen_one (s := tick u) (hwritten ⟨.npub, 0, 4⟩ List.mem_cons_self) _⟩
    · obtain ⟨hstep, -⟩ := hexec u i hbusy (hphase.trans (if_neg hv)) hquiet (by rw [hctrl]; exact hd)
      have hsingle := singleStep_of_decodeWord ((decode_wordBytes w).symm.trans hd) hv
      refine ⟨hstep hturns, hwritten, ?_⟩
      rw [hstep hturns]
      exact (exec_single_next_iff hsingle (commandReads_congr rfl rfl i)).mpr hwritten
  · have hd : decode [sel] = .instr i := hsel ▸ decodeOfEncode i hi
    have hplaced : s.withFetchWord 8 sel.toNat = { s with
        turns := []
        reqSel := sel
        rspValid := false
        status := { s.status with waiteng := true }
        cfg := { s.cfg with engineAnswers := true } } := by
      rw [State.withFetchWord, tableBytes, if_pos (by decide), BitVec.ofNat_toNat, BitVec.setWidth_eq]
      rfl
    obtain ⟨hstep, -⟩ := hengine (s.withFetchWord 8 sel.toNat) i (by rw [hplaced]) (by rw [hplaced]) (by rw [hplaced])
      (by rw [hplaced]; exact hd)
    have hrun := hstep (by rw [hplaced])
    refine ⟨hrun, ?_⟩
    rw [hrun, ← runEngine_of_decode (s := tick (s.withFetchWord 8 sel.toNat)) (by rw [hplaced]; exact hd)]
    exact ⟨_, runEngine_eq _⟩

end

end Sys2Proof.Machine

/-! PROOFS of the statements about the register window (10_state.md sections 2 and 3, 20_memory.md sections 2 to 6) and
the host's program lines (30_encoding.md section 3). -/

namespace Sys2Proof.Machine

section

variable {s t : State}

/-! The STATUS word, field by field: its fields are appended, so each is read by dropping those below it. -/

/-- Bit 3 of the STATUS word is HAZ. -/
theorem haz_word (st : Status) : st.word.getLsbD 3 = st.haz := by
  simp only [Status.word, BitVec.getLsbD_append]
  simp

/-- Bits 7:5 of the STATUS word are reserved. -/
theorem reserved_word (st : Status) : st.word.extractLsb' 5 3 = 0 := by
  rw [Status.word]
  iterate 5 rw [BitVec.extractLsb'_append_eq_of_le (by decide)]
  exact BitVec.extractLsb'_append_eq_right

/-- Bits 23:16 of the STATUS word are LASTOP. -/
theorem lastop_word (st : Status) : st.word.extractLsb' 16 8 = st.lastop := by
  rw [Status.word]
  iterate 7 rw [BitVec.extractLsb'_append_eq_of_le (by decide)]
  exact BitVec.extractLsb'_append_eq_right

/-- Bits 31:24 of the STATUS word are reserved. -/
theorem top_word (st : Status) : st.word.extractLsb' 24 8 = 0 := by
  rw [Status.word]
  iterate 8 rw [BitVec.extractLsb'_append_eq_of_le (by decide)]
  rfl

/-- Settles O40. -/
theorem statusLayout : Obligations.StatusLayout :=
  ⟨fun st => ⟨busy_word st, done_word st, valid_word st, haz_word st, waiteng_word st, reserved_word st, err_word st,
    lastop_word st, top_word st⟩, rfl⟩

/-! The map. -/

/-- A key of at most 65 points ends below the end of the window (20_memory.md R65). -/
theorem reg_below_window (cfg : Config) (r : Reg) (h : cfg.vk.ic.length ≤ 65) : r.base + r.size cfg ≤ 0x4000 := by
  cases r with
  | ic =>
    simp only [Reg.base, Reg.size]
    omega
  | _ => simp [Reg.base, Reg.size, Config.npubMax]

/-- A row that covers an offset is the row found there. -/
theorem mapFind_of_covers {cfg : Config} {row : MapRow} {off : Nat} (hm : row ∈ addressMap cfg)
    (hc : row.covers off = true) : mapFind cfg off = some row :=
  find_row _ _ _ (addressMap_pairwise cfg) hm hc

/-- The offsets that the table calls reserved are in no row (20_memory.md R65, R66). -/
theorem mapFind_reserved {cfg : Config} {off : Nat} (h : (0x002C ≤ off ∧ off < 0x0040) ∨ (0x02C0 ≤ off ∧ off < 0x0300) ∨
    (0x0700 ≤ off ∧ off < 0x0800) ∨ 0x11C0 + 64 * cfg.vk.ic.length ≤ off) : mapFind cfg off = none := by
  cases hm : mapFind cfg off with
  | none => rfl
  | some row =>
    obtain ⟨r, -, hlo, hhi⟩ := mapFind_some hm
    cases r <;> simp only [Reg.base, Reg.size, Config.npubMax] at hlo hhi <;> omega

theorem windowByte_of_none {off : Nat} (h : mapFind s.cfg off = none) : windowByte s off = 0 := by
  rw [windowByte, h]

/-- Settles O44: an offset has one row, since `mapFind` finds every row that covers it. -/
theorem mapIsUnambiguous : Obligations.MapIsUnambiguous := by
  refine ⟨fun cfg => rfl, fun cfg off r1 r2 hic hm1 hm2 hc1 hc2 => ?_, fun s off h => ?_⟩
  · have hf1 := mapFind_of_covers hm1 hc1
    obtain ⟨r, -, -, hhi⟩ := mapFind_some hf1
    exact ⟨Option.some.inj (hf1.symm.trans (mapFind_of_covers hm2 hc2)), hhi.trans_le (reg_below_window cfg r hic)⟩
  · have hnone := mapFind_reserved h
    exact ⟨hnone, windowByte_of_none hnone⟩

/-! Reading. -/

/-- The byte of the window at a register's own offset. -/
theorem windowByte_base (s : State) (r : Reg) {k : Nat} (hk : k < r.size s.cfg) :
    windowByte s (r.base + k) = regByte s r k := by
  rw [windowByte_reg s r _ (Nat.le_add_right _ _) (Nat.add_lt_add_left hk _), Nat.add_sub_cancel_left]

/-- A byte in a word, by appending zeros above it. -/
theorem setWidth_eq_append (b : Byte) : b.setWidth 32 = (0 : BitVec 24) ++ b := by
  have hb := b.isLt
  apply BitVec.eq_of_toNat_eq
  rw [BitVec.toNat_setWidth, BitVec.toNat_append, Nat.mod_eq_of_lt (by omega)]
  show b.toNat = 0 <<< 8 ||| b.toNat
  rw [Nat.zero_shiftLeft, Nat.zero_or]

/-- The registers whose unwritten bytes read as any value (10_state.md R47). -/
theorem tracked_iff (r : Reg) :
    r.tracked = true ↔ r ∈ [Reg.a, .b, .c, .nega, .vkx, .term, .p, .q, .v, .cin, .cout, .pub] := by
  cases r <;> decide

/-- The bytes of the word a host read returns. -/
theorem getD_hostWord (s : State) (addr : Nat) {j : Nat} (hj : j < 4) :
    (wordBytes (hostWord s addr)).getD j 0 = hostByte s (addr + j) := by
  rw [hostWord, wordBytes_wordOfBytes]
  interval_cases j <;> rfl

/-- A free byte is read exactly where `hostByte_cases` says. -/
theorem hostByte_of_unwritten {off : Nat} {row : MapRow} (hm : mapFind s.cfg off = some row)
    (ht : row.reg.tracked = true) (hn : s.written.read off ≠ 1) : hostByte s off = Config.freeByte s.freeCount off := by
  obtain ⟨-, -, he⟩ | ⟨hall, -⟩ := hostByte_cases s off
  · exact he
  · exact absurd (hall row hm ht) hn

theorem badAccess_eq_false {addr : Nat} (ha : addr % 4 = 0) (hlt : addr < 0x4000) : badAccess addr = false := by
  simp [badAccess, ha, Config.windowBytes, hlt]

/-- Entry `i` of IC stands at byte 64·i (20_memory.md R65). -/
theorem regByte_ic {i k : Nat} {p : G1} (hp : s.cfg.vk.ic[i]? = some p) (hk : k < 64) :
    regByte s .ic (64 * i + k) = (enc1 p).getD k 0 := by
  rw [regByte, show (64 * i + k) / 64 = i by omega, show (64 * i + k) % 64 = k by omega, hp, Option.getD_some]

/-- Entry `i` of PUB stands at byte 32·i (20_memory.md R65). -/
theorem regByte_pub {i k : Nat} {f : Field} (hf : s.pub[i]? = some f) (hk : k < 32) :
    regByte s .pub (32 * i + k) = (enc256 f).getD k 0 := by
  rw [regByte, show (32 * i + k) / 32 = i by omega, show (32 * i + k) % 32 = k by omega, hf, Option.getD_some]

/-- Settles O42: the word by its bytes, and each register's image by `windowByte_base`. -/
theorem hostReadValue : Obligations.HostReadValue := by
  refine ⟨fun addr s ha hlt => ⟨hostWord s addr, hostRead_of_good (badAccess_eq_false ha hlt) s, fun j hj => ?_⟩,
    fun s k hk => ⟨windowByte_base s .ctrl hk, windowByte_base s .status hk, windowByte_base s .errinfo hk,
      windowByte_base s .npub hk, windowByte_base s .cinlen hk, windowByte_base s .coutlen hk, ?_, ?_,
      windowByte_base s .nic hk, windowByte_base s .npubmax hk, windowByte_base s .vkver hk⟩,
    fun s k hk => ⟨windowByte_base s .a hk, windowByte_base s .c hk, windowByte_base s .nega hk,
      windowByte_base s .vkx hk, windowByte_base s .term hk, windowByte_base s .p hk, windowByte_base s .alfa1 hk,
      fun i p hp => ?_⟩,
    fun s k hk => ⟨windowByte_base s .b hk, windowByte_base s .q hk, windowByte_base s .v hk, windowByte_base s .cin hk,
      windowByte_base s .beta2 hk, windowByte_base s .gamma2 hk, windowByte_base s .delta2 hk⟩,
    fun s k hk => windowByte_base s .cout hk, fun s i k f hf hk => ?_⟩
  · rw [getD_hostWord s addr hj]
    refine ⟨fun ⟨row, hm, hr⟩ hn => hostByte_of_unwritten hm ((tracked_iff _).mpr hr) hn, fun h => ?_⟩
    exact hostByte_eq s _ fun row hm ht => h row hm ((tracked_iff _).mp ht)
  · rw [← setWidth_eq_append]
    exact windowByte_base s .phase hk
  · rw [← setWidth_eq_append]
    exact windowByte_base s .idx hk
  · obtain ⟨hi, -⟩ := List.getElem?_eq_some_iff.mp hp
    have hsize : 64 * i + k < Reg.size s.cfg .ic := by
      rw [Reg.size]
      omega
    rw [Nat.add_assoc]
    exact (windowByte_base s .ic hsize).trans (regByte_ic hp hk)
  · obtain ⟨hi, -⟩ := Vector.getElem?_eq_some_iff.mp hf
    have hsize : 32 * i + k < Reg.size s.cfg .pub := by
      rw [Reg.size, Config.npubMax]
      omega
    rw [Nat.add_assoc]
    exact (windowByte_base s .pub hsize).trans (regByte_pub hf hk)

/-! Writing. -/

/-- A write to a register of the idle block is its store. -/
theorem hostWrite_reg {r : Reg} {addr : Nat} (hb : s.status.busy = false) (hgood : badAccess addr = false)
    (hlo : r.base ≤ addr) (hhi : addr < r.base + r.size s.cfg) (w : Word) :
    hostWrite addr w s = .next { storeReg r (addr - r.base) w s with hostResp := .written } := by
  rw [hostWrite_of_idle hgood w hb, storeAt_reg s r addr w hlo hhi]

theorem storeBounded_of_le {r : Reg} {bound : Nat} {w : Word} (h : w.toNat ≤ bound) (stored s : State) :
    storeBounded r bound w stored s = markWritten r.base 4 stored := if_pos h

theorem storeBounded_of_not_le {r : Reg} {bound : Nat} {w : Word} (h : ¬ w.toNat ≤ bound) (stored s : State) :
    storeBounded r bound w stored s = s := if_neg h

/-- Settles O45: a store to a bounded register by the value's own bound. -/
theorem boundedRegisters : Obligations.BoundedRegisters := by
  intro w s hb
  have hword : 0 < 4 := by decide
  refine ⟨⟨_, hostWrite_reg (r := .npub) hb (by decide) (by decide) (Nat.lt_add_of_pos_right hword) w, ?_⟩,
    ⟨_, hostWrite_reg (r := .cinlen) hb (by decide) (by decide) (Nat.lt_add_of_pos_right hword) w, ?_⟩,
    ⟨_, hostWrite_reg (r := .coutlen) hb (by decide) (by decide) (Nat.lt_add_of_pos_right hword) w, ?_⟩⟩
  · rw [storeReg]
    by_cases h : w.toNat ≤ 64
    · rw [storeBounded_of_le h, if_pos h, if_pos h]
      exact ⟨rfl, nowWritten_markWritten .npub 0 4 { s with npub := w }, rfl⟩
    · rw [storeBounded_of_not_le h, if_neg h, if_neg h]
      exact ⟨rfl, rfl, rfl⟩
  · rw [storeReg]
    by_cases h : w.toNat ≤ 128
    · rw [storeBounded_of_le h, if_pos h, if_pos h]
      exact ⟨rfl, nowWritten_markWritten .cinlen 0 4 { s with cinlen := w }, rfl⟩
    · rw [storeBounded_of_not_le h, if_neg h, if_neg h]
      exact ⟨rfl, rfl, rfl⟩
  · rw [storeReg]
    by_cases h : w.toNat ≤ 768
    · rw [storeBounded_of_le h, if_pos h, if_pos h]
      exact ⟨rfl, nowWritten_markWritten .coutlen 0 4 { s with coutlen := w }, rfl⟩
    · rw [storeBounded_of_not_le h, if_neg h, if_neg h]
      exact ⟨rfl, rfl, rfl⟩

/-! Writing a data register. -/

theorem getD_patch_word {bs : List Byte} {k : Nat} {w : Word} (i : Nat) {n : Nat} (hlen : bs.length = n) (hk : k + 4 ≤ n) :
    (patch bs k (wordBytes w)).getD i 0 =
      if k ≤ i ∧ i < k + 4 then (wordBytes w).getD (i - k) 0 else bs.getD i 0 :=
  getD_patch bs k (wordBytes w) i (by rw [hlen]; exact hk)

/-- The entry of PUB after a word of one entry is replaced. -/
theorem pubEntry_storeReg (k : Nat) (w : Word) (s : State) (i : Nat) (hi : i < 64) :
    pubEntry (storeReg .pub k w s) i = if k / 32 = i then pokeField (pubEntry s i) (k % 32) w else pubEntry s i := by
  show ((s.pub.setIfInBounds (k / 32) (pokeField (pubEntry s (k / 32)) (k % 32) w))[i]?).getD 0 = _
  rw [Vector.getElem?_setIfInBounds]
  by_cases hentry : k / 32 = i
  · rw [if_pos hentry, if_pos hentry, hentry, if_pos hi, Option.getD_some]
  · rw [if_neg hentry, if_neg hentry, pubEntry]

/-- A word of an entry of PUB: the bytes of that entry are patched, and the other entries stay. -/
theorem regByte_storeReg_pub {k : Nat} (ha : k % 4 = 0) (w : Word) (s : State) {j : Nat} (hj : j < 32 * 64) :
    regByte (storeReg .pub k w s) .pub j =
      if k ≤ j ∧ j < k + 4 then (wordBytes w).getD (j - k) 0 else regByte s .pub j := by
  show (enc256 (pubEntry (storeReg .pub k w s) (j / 32))).getD (j % 32) 0 = _
  rw [pubEntry_storeReg k w s _ (by omega)]
  by_cases hentry : k / 32 = j / 32
  · rw [if_pos hentry, enc256_pokeField _ _ _ (by omega), getD_patch_word _ (length_enc256 _) (by omega),
      show j % 32 - k % 32 = j - k by omega]
    exact if_congr (by omega) rfl rfl
  · rw [if_neg hentry, if_neg (by omega)]
    rfl

/-- A store to a data register replaces its own four bytes (20_memory.md R69, R80). -/
theorem regByte_storeReg_self {r : Reg} (hr : r.isData = true) {k : Nat} (ha : k % 4 = 0) (hk : k + 4 ≤ r.size s.cfg)
    (w : Word) {j : Nat} (hj : j < r.size s.cfg) :
    regByte (storeReg r k w s) r j =
      if k ≤ j ∧ j < k + 4 then (wordBytes w).getD (j - k) 0 else regByte s r j := by
  cases r with
  | a => exact (congrArg (·.getD j 0) (enc1_pokeG1 s.a k w hk)).trans (getD_patch_word j (length_enc1 _) hk)
  | b => exact (congrArg (·.getD j 0) (enc2_pokeG2 s.b k w hk)).trans (getD_patch_word j (length_enc2 _) hk)
  | c => exact (congrArg (·.getD j 0) (enc1_pokeG1 s.c k w hk)).trans (getD_patch_word j (length_enc1 _) hk)
  | p => exact (congrArg (·.getD j 0) (enc1_pokeG1 s.p k w hk)).trans (getD_patch_word j (length_enc1 _) hk)
  | q => exact (congrArg (·.getD j 0) (enc2_pokeG2 s.q k w hk)).trans (getD_patch_word j (length_enc2 _) hk)
  | v => exact (congrArg (·.getD j 0) (be_pokeV s.v k w hk)).trans (getD_patch_word j (length_be _ _) hk)
  | cin => exact Memory.read_writeBytes _ _ _ _
  | pub => exact regByte_storeReg_pub ha w s hj
  | _ => cases hr

/-- A store to a data register touches no other register. -/
theorem regByte_storeReg_other {r r' : Reg} (hr : r.isData = true) (hne : r' ≠ r) (k : Nat) (w : Word) (j : Nat) :
    regByte (storeReg r k w s) r' j = regByte s r' j := by
  cases r with
  | a => cases r' with | a => exact absurd rfl hne | _ => rfl
  | b => cases r' with | b => exact absurd rfl hne | _ => rfl
  | c => cases r' with | c => exact absurd rfl hne | _ => rfl
  | p => cases r' with | p => exact absurd rfl hne | _ => rfl
  | q => cases r' with | q => exact absurd rfl hne | _ => rfl
  | v => cases r' with | v => exact absurd rfl hne | _ => rfl
  | cin => cases r' with | cin => exact absurd rfl hne | _ => rfl
  | pub => cases r' with | pub => exact absurd rfl hne | _ => rfl
  | _ => cases hr

/-- A store to a data register marks its four bytes and leaves everything but the data registers. -/
theorem storeReg_data_frame {r : Reg} (hr : r.isData = true) (k : Nat) (w : Word) (s : State) :
    (storeReg r k w s).written = (markWritten (r.base + k) 4 s).written ∧
    storeReg r k w s = { s with
      a := (storeReg r k w s).a, b := (storeReg r k w s).b, c := (storeReg r k w s).c, pub := (storeReg r k w s).pub
      p := (storeReg r k w s).p, q := (storeReg r k w s).q, v := (storeReg r k w s).v, cin := (storeReg r k w s).cin
      written := (storeReg r k w s).written } := by
  cases r with
  | a | b | c | p | q | v | cin | pub => exact ⟨rfl, rfl⟩
  | _ => cases hr

/-- The data registers lie inside the window. -/
theorem data_below_rom {r : Reg} (cfg : Config) (hr : r.isData = true) : r.base + r.size cfg ≤ 0x1000 := by
  cases r with
  | a | b | c | p | q | v | cin | pub => exact rw_below_rom cfg rfl
  | _ => cases hr

/-- The window after a store to a data register. -/
theorem windowByte_storeReg {r : Reg} (hr : r.isData = true) {addr : Nat} (ha : addr % 4 = 0) (hlo : r.base ≤ addr)
    (hhi : addr < r.base + r.size s.cfg) (w : Word) (off : Nat) :
    windowByte (storeReg r (addr - r.base) w s) off =
      if addr ≤ off ∧ off < addr + 4 then (wordBytes w).getD (off - addr) 0 else windowByte s off := by
  have hin := word_in_reg ha hlo hhi
  have hreg := four_dvd_reg s.cfg r
  have hfind {o : Nat} (h : addr ≤ o ∧ o < addr + 4) : mapFind s.cfg o = some (mapRow s.cfg r) :=
    mapFind_reg s.cfg r o (by omega) (by omega)
  rw [windowByte, windowByte, storeReg_cfg]
  cases hm : mapFind s.cfg off with
  | none =>
    refine (if_neg fun h => ?_).symm
    rw [hfind h] at hm
    cases hm
  | some row =>
    obtain ⟨r', rfl, hlo', hhi'⟩ := mapFind_some hm
    by_cases hrr : r' = r
    · subst hrr
      refine (regByte_storeReg_self hr (by omega) hin w (j := off - r'.base) (by omega)).trans ?_
      rw [show off - r'.base - (addr - r'.base) = off - addr by omega]
      exact if_congr (by omega) rfl rfl
    · refine (regByte_storeReg_other hr hrr _ w _).trans (if_neg fun h => hrr ?_).symm
      have hrow := hm.symm.trans (hfind h)
      exact congrArg MapRow.reg (Option.some.inj hrow)

/-- Settles O46. -/
theorem dataRegisterWrite : Obligations.DataRegisterWrite := by
  intro r addr w s hb hr ha hlo hhi
  have hrom := data_below_rom s.cfg hr
  obtain ⟨hmarks, hframe⟩ := storeReg_data_frame hr (addr - r.base) w s
  refine ⟨_, hostWrite_reg hb (badAccess_eq_false ha (by omega)) hlo hhi w, windowByte_storeReg hr ha hlo hhi w,
    fun off => ?_, by rw [hframe]⟩
  show (storeReg r (addr - r.base) w s).written.read off = _
  rw [hmarks, read_markWritten, Nat.add_sub_cancel' hlo]

/-! The host's lines. -/

/-- WAIT (30_encoding.md R108). -/
theorem hostStep_of_wait {rest : List HostOp} (h : s.hostProg = .wait :: rest) :
    hostStep s = .next { s with
      hostProg := if s.status.busy then .wait :: rest else rest
      hostResp := .data s.status.word } := by
  rw [hostStep, h]
  dsimp only
  rw [hostWord_status, busy_word, hostRead_of_good (by decide), hostWord_status]
  cases hb : s.status.busy with
  | true => rw [if_pos rfl, if_pos rfl, ← h]
  | false => rfl

/-- With nothing else to move, the host's line is the next step. -/
theorem step_of_host (hb : s.status.busy = false) (hturns : s.turns = []) (hw : s.status.waiteng = false) :
    step s = hostStep s := by
  have hseq : sequencerEnabled s = false := by rw [sequencerEnabled, hb]; rfl
  have heng : engineMoves s = false := by rw [engineMoves, engineEnabled, hw]; rfl
  rw [step_of_nil hturns, idleTurn, hseq, heng]
  rfl

/-- Two neighbouring patches are one. -/
theorem patch_patch {l xs : List Byte} {k : Nat} (h : k + xs.length ≤ l.length) (ys : List Byte) :
    patch (patch l k xs) (k + xs.length) ys = patch l k (xs ++ ys) := by
  have hlen : (l.take k ++ xs).length = k + xs.length := by
    rw [List.length_append, List.length_take, Nat.min_eq_left (by omega)]
  rw [patch, patch, patch, List.take_left' hlen, ← hlen, List.drop_length_add_append, hlen, List.drop_drop,
    List.length_append, Nat.add_assoc, ← List.append_assoc (l.take k)]

/-- A patch of the whole is the new bytes. -/
theorem patch_all {l xs : List Byte} (h : xs.length = l.length) : patch l 0 xs = xs := by
  rw [patch, Nat.zero_add, h, List.drop_length, List.append_nil, List.take_zero, List.nil_append]

/-- One word of WRB into A (30_encoding.md R109, 20_memory.md R69). -/
theorem step_of_wr_a {k : Nat} {w : Word} {prog : List HostOp} (hk : k % 4 = 0) (hlt : k < 64)
    (hb : s.status.busy = false) (hturns : s.turns = []) (hw : s.status.waiteng = false)
    (hprog : s.hostProg = .wr (0x0040 + k) w :: prog) :
    step s = .next { storeReg .a k w { s with hostProg := prog } with hostResp := .written } := by
  have hgood : badAccess (0x0040 + k) = false := badAccess_eq_false (by omega) (by omega)
  rw [step_of_host hb hturns hw, hostStep, hprog]
  refine (hostWrite_reg (r := .a) (s := { s with hostProg := prog }) hb hgood (Nat.le_add_right _ k)
    (Nat.add_lt_add_left hlt _) w).trans ?_
  rw [show 0x0040 + k - Reg.base .a = k from Nat.add_sub_cancel_left 0x0040 k]

/-- The first word of a sequence of whole words. -/
theorem exists_word_of_length {bs : List Byte} {n : Nat} (h : bs.length = 4 * (n + 1)) :
    ∃ b0 b1 b2 b3 bs', bs = b0 :: b1 :: b2 :: b3 :: bs' ∧ bs'.length = 4 * n := by
  match bs, h with
  | b0 :: b1 :: b2 :: b3 :: bs, h =>
    refine ⟨b0, b1, b2, b3, bs, rfl, ?_⟩
    simp only [List.length_cons] at h
    omega
  | [], h | [_], h | [_, _], h | [_, _, _], h =>
    simp only [List.length_cons, List.length_nil] at h
    omega

/-- The words of WRB, one a step, patch A (30_encoding.md R109). -/
theorem run_wrb_a (n : Nat) (k : Nat) (bs : List Byte) (rest : List HostOp) (s : State) (hlen : bs.length = 4 * n)
    (hk : k % 4 = 0) (hn : k + 4 * n ≤ 64) (hb : s.status.busy = false) (hturns : s.turns = [])
    (hw : s.status.waiteng = false) (hprog : s.hostProg = wrb (0x0040 + k) bs ++ rest) :
    ∃ t, run n s = .next t ∧ enc1 t.a = patch (enc1 s.a) k bs ∧ t.hostProg = rest ∧
      t = { s with a := t.a, written := t.written, hostProg := t.hostProg, hostResp := t.hostResp } := by
  induction n generalizing k bs s with
  | zero =>
    obtain rfl := List.eq_nil_of_length_eq_zero hlen
    refine ⟨s, rfl, ?_, hprog, rfl⟩
    rw [patch, List.append_nil, List.length_nil, Nat.add_zero, List.take_append_drop]
  | succ n ih =>
    obtain ⟨b0, b1, b2, b3, bs, rfl, hlen'⟩ := exists_word_of_length hlen
    have hstep := step_of_wr_a hk (by omega) hb hturns hw hprog
    obtain ⟨t, ht, ha, hrest, hframe⟩ := ih (k + 4) bs
      { storeReg .a k (wordOfBytes b0 b1 b2 b3) { s with hostProg := wrb (0x0040 + k + 4) bs ++ rest } with
        hostResp := .written } hlen' (by omega) (by omega) hb hturns hw rfl
    refine ⟨t, (run_succ_of_next hstep).trans ht, ?_, hrest, hframe⟩
    have hpoke : enc1 (pokeG1 s.a k (wordOfBytes b0 b1 b2 b3)) = patch (enc1 s.a) k [b0, b1, b2, b3] := by
      rw [enc1_pokeG1 _ _ _ (by omega), wordBytes_wordOfBytes]
    have hfits : k + [b0, b1, b2, b3].length ≤ (enc1 s.a).length := by
      rw [length_enc1]
      simp only [List.length_cons, List.length_nil]
      omega
    exact (ha.trans (congrArg (fun l => patch l (k + 4) bs) hpoke)).trans (patch_patch hfits bs)

/-- Settles O48. -/
theorem hostNotation : Obligations.HostNotation := by
  refine ⟨fun s rest => hostStep_of_wait, fun off b0 b1 b2 b3 bs => rfl, fun p rest s hb hturns hw hprog => ?_⟩
  obtain ⟨t, ht, ha, hrest, hframe⟩ := run_wrb_a 16 0 (enc1 p) rest s (length_enc1 p) rfl (by decide) hb hturns hw hprog
  refine ⟨t, ht, ?_, hrest, hframe⟩
  rw [patch_all (by rw [length_enc1, length_enc1])] at ha
  rw [← g1OfImage_enc1 t.a, ha, g1OfImage_enc1]

end

end Sys2Proof.Machine
